-- ==== Sys2Proof/Word.lean ====
section
/-! DEFINITION. The word types of the block (00_scope.md R9, R11): bytes, 32-bit words and the payload buffer. -/

namespace Sys2Proof

/-- A byte: 8 bits, bit 0 the least significant (00_scope.md R11). -/
abbrev Byte := BitVec 8

/-- A 32-bit word: a command word (30_encoding.md R70), an arbitration ID or an ID mask (10_state.md R22, R27). -/
abbrev Word := BitVec 32

/-- The payload buffer `pay[0..7]`, always 8 bytes wide at the interface (20_memory.md R40). -/
abbrev Payload := Vector Byte 8

end Sys2Proof
end

