-- ==== Sys2Proof/Config.lean ====
section
/-! DEFINITION. What an implementation fixes (00_scope.md R9, R10): the number type as an argument, the constants of the source and the named parameters. -/

namespace Sys2Proof

/-- The default of the parameter `NUM` (00_scope.md R10): the exact rationals. The operations of the block
are defined for every number type (`NumType`); `State`, `exec` and `step` are the block at this one (log 4). -/
abbrev NUM := Rat

/-- `PAY_BYTES` of 00_scope.md R9: capacity of the payload buffer, bytes. -/
abbrev payBytes : Nat := 8

/-- `PAY_BITS` of 00_scope.md R9: bit positions 0..63. -/
abbrev payBits : Nat := 64

/-- `LEN_MAX` of 00_scope.md R9: the largest bit_length. -/
abbrev lenMax : Nat := 64

/-- `DLC_MAX` of 00_scope.md R9: the largest dlc. -/
abbrev dlcMax : Nat := 8

/-- `SIG_MAX` of 00_scope.md R9: the most signals one message can hold, and the number of lanes of a
value array (10_state.md R29). -/
abbrev sigMax : Nat := 64

/-- The values of the parameter `ROUND_TIES` (00_scope.md R10, R17; 90_conflicts.md C9). -/
inductive RoundTies where
  | away
  | even
  | up
  | down
deriving DecidableEq, Repr

/-- The parameter `NUM` (00_scope.md R10, R16): a number type, with the operations the block uses on it. A
finite format states its own rounding, overflow and not-a-number rules by giving these functions; at
the default it is `rational`. `lt` and `le` are the order `<` and `≤`, and `round` takes the parameter
`ROUND_TIES` (R17). -/
structure NumType (ν : Type) where
  ofInt : Int → ν
  add : ν → ν → ν
  sub : ν → ν → ν
  mul : ν → ν → ν
  div : ν → ν → ν
  lt : ν → ν → Bool
  le : ν → ν → Bool
  round : RoundTies → ν → Int

/-- The order of a number type is total, as 00_scope.md R16 has it. A format with not-a-number values has no
such order, and states its own rules. -/
structure NumType.Ordered {ν : Type} (N : NumType ν) : Prop where
  total : ∀ x y, N.le x y = true ∨ N.le y x = true
  trans : ∀ x y z, N.le x y = true → N.le y z = true → N.le x z = true
  antisymm : ∀ x y, N.le x y = true → N.le y x = true → x = y
  lt_iff : ∀ x y, N.lt x y = true ↔ N.le y x = false

/-- The other named parameters that the source leaves open (00_scope.md R10). A state carries them and
no operation writes them, so that a statement about every state is one about every value (log 3). -/
structure Params where
  /-- `ROUND_TIES`: how `round` breaks a tie at exactly one half. -/
  roundTies : RoundTies
  /-- `N_MSG_MAX`: capacity of the message table, 0..256. -/
  nMsgMax : Fin 257
deriving DecidableEq, Repr

/-- The defaults of 00_scope.md R10: ties away from zero, 256 messages. -/
def Params.default : Params := { roundTies := .away, nMsgMax := 256 }

end Sys2Proof
end

