-- ==== Sys2Proof/Syntax.lean ====
section
/-! DEFINITION. The operations of 30_encoding.md R72, one constructor per row, and the descriptor records they work on: Signal and Message records (10_state.md R22, R23) and the table image that BUILD is given (30_encoding.md R80). -/

namespace Sys2Proof

/-- `POL`, the out-of-range policy of an encode request (30_encoding.md R71). -/
inductive Policy where
  /-- `POL = 0`: clamp to the nearest bound and proceed. -/
  | clamp
  /-- `POL = 1`: reject. -/
  | reject
deriving DecidableEq, Repr

/-- The eleven operations of 30_encoding.md R72. `m` is the message index `M`, `s` the signal index `S`
of the command word (R76); every other operand is a field of the request record (10_state.md R27). -/
inductive Instr where
  /-- `BUILD`, 41_table_build.md R131. -/
  | build
  /-- `FIND`, 42_matcher.md R151. -/
  | find
  /-- `DEC`, 40_signal_codec.md R103. -/
  | dec (m : BitVec 8) (s : BitVec 6)
  /-- `ENC`, 40_signal_codec.md R106. -/
  | enc (pol : Policy) (m : BitVec 8) (s : BitVec 6)
  /-- `DECALL`, 40_signal_codec.md R108. -/
  | decall (m : BitVec 8)
  /-- `ENCALL`, 40_signal_codec.md R110. -/
  | encall (pol : Policy) (m : BitVec 8)
  /-- `RXF`, 43_frame_dispatch.md R161. -/
  | rxf
  /-- `TXF`, 43_frame_dispatch.md R165. -/
  | txf (pol : Policy) (m : BitVec 8)
  /-- `STAT`, 41_table_build.md R138. -/
  | stat
  /-- `GETM`, 41_table_build.md R139. -/
  | getm (m : BitVec 8)
  /-- `GETS`, 41_table_build.md R140. -/
  | gets (m : BitVec 8) (s : BitVec 6)
deriving DecidableEq, Repr

/-- The byte order of a signal (20_memory.md R41). -/
inductive ByteOrder where
  /-- LittleEndian ("Intel"), `LE`. -/
  | le
  /-- BigEndian ("Motorola"), `BE`. -/
  | be
deriving DecidableEq, Repr

/-- A Signal record (10_state.md R23) over a number type, its fields over the raw domains of 30_encoding.md R80, so that an
out-of-domain value can be presented to BUILD and refused. An installed record also meets
41_table_build.md R132. -/
structure Signal (ν : Type := NUM) where
  startBit : Fin 64
  bitLength : Fin 128
  byteOrder : ByteOrder
  isSigned : Bool
  scale : ν
  offset : ν
  minValue : ν
  maxValue : ν
deriving DecidableEq, Repr

/-- A Message record (10_state.md R22); `nsig` is the length of `sig`. `dlc` is over the raw domain of
30_encoding.md R80. -/
structure Message (ν : Type := NUM) where
  messageId : Word
  idMask : Word
  dlc : Fin 16
  sig : List (Signal ν)
deriving DecidableEq, Repr

/-- A raw signal of a table image: the record, and whether a bit that 30_encoding.md R81 marks zero is
set in its word SG0 (never, in the abstract image of R80; log 9). -/
structure RawSignal (ν : Type := NUM) where
  record : Signal ν
  reserved : Bool
deriving DecidableEq, Repr

/-- A raw message definition of a table image (30_encoding.md R80); `reserved` says that a bit marked
zero is set in its word MH2 (R81; log 9). -/
structure RawMessage (ν : Type := NUM) where
  messageId : Word
  idMask : Word
  dlc : Fin 16
  sig : List (RawSignal ν)
  reserved : Bool
deriving DecidableEq, Repr

/-- The table image, operand of BUILD (30_encoding.md R80): `nmsg` is the length of `msgs`; `reserved`
says that a bit marked zero is set in the word IH (R81; log 9). -/
structure Image (ν : Type := NUM) where
  msgs : List (RawMessage ν)
  reserved : Bool
deriving DecidableEq, Repr

end Sys2Proof
end

