-- ==== Sys2Proof/WellFormed.lean ====
section
/-! DEFINITION. Well-formedness of operands. An `Instr` needs no check: the type of each of its operands is exactly the field of the command word that carries it (30_encoding.md R70). What a type does not bound is the number of records of a table image (30_encoding.md R80). -/

namespace Sys2Proof

/-- The raw domain of `nsig`: 0..127 (30_encoding.md R80). -/
def RawMessage.nsigInDomain {ν : Type} (msg : RawMessage ν) : Bool := decide (msg.sig.length ≤ 127)

/-- The raw domain of `nmsg`: 0..511 (30_encoding.md R80). -/
def Image.nmsgInDomain {ν : Type} (img : Image ν) : Bool := decide (img.msgs.length ≤ 511)

/-- A table image whose two counts lie in their raw domains (30_encoding.md R80). BUILD does not rely on
it: an image outside is refused all the same (log 15). -/
def Image.wellFormed {ν : Type} (img : Image ν) : Bool :=
  img.nmsgInDomain && img.msgs.all RawMessage.nsigInDomain

end Sys2Proof
end

