-- ==== Sys2Proof/Decode.lean ====
section
/-! DEFINITION. The command word (30_encoding.md R70 to R73): the decoder, total on all 2^32 words, the encoder, and the operation map of R72 as a table. -/

namespace Sys2Proof

/-- Why a command word is illegal (30_encoding.md R73). The response is the same for every reason. -/
inductive IllegalWord where
  /-- `OP` in 0x0, 0xC, 0xD, 0xE, 0xF. -/
  | opcode
  /-- Any of bits 26:16 or 7:6 set. -/
  | reservedBits
  /-- `POL` set in an operation that has no `POL`. -/
  | policyBit
  /-- `M` non-zero in an operation that does not use it. -/
  | messageIndex
  /-- `S` non-zero in an operation that does not use it. -/
  | signalIndex
deriving DecidableEq, Repr

/-- `OP`, bits 31:28 (30_encoding.md R70). -/
def opField (w : Word) : BitVec 4 := w.extractLsb' 28 4

/-- `POL`, bit 27 (30_encoding.md R70). -/
def polField (w : Word) : Policy := if w.getLsbD 27 then .reject else .clamp

/-- `M`, bits 15:8 (30_encoding.md R70, R76). -/
def mField (w : Word) : BitVec 8 := w.extractLsb' 8 8

/-- `S`, bits 5:0 (30_encoding.md R70, R76). -/
def sField (w : Word) : BitVec 6 := w.extractLsb' 0 6

/-- Bits 26:16 and 7:6 are zero (30_encoding.md R70). -/
def reservedZero (w : Word) : Bool := w.extractLsb' 16 11 == 0#11 && w.extractLsb' 6 2 == 0#2

/-- `POL` must be 0 in an operation that has none (30_encoding.md R71). -/
def noPol (w : Word) (rest : Except IllegalWord Instr) : Except IllegalWord Instr :=
  if polField w = .clamp then rest else .error .policyBit

/-- `M` must be 0 in an operation that does not use it (30_encoding.md R73). -/
def noM (w : Word) (rest : Except IllegalWord Instr) : Except IllegalWord Instr :=
  if mField w = 0#8 then rest else .error .messageIndex

/-- `S` must be 0 in an operation that does not use it (30_encoding.md R73). -/
def noS (w : Word) (rest : Except IllegalWord Instr) : Except IllegalWord Instr :=
  if sField w = 0#6 then rest else .error .signalIndex

/-- The decoder: the operation a command word selects (30_encoding.md R72), or why it selects none (R73). -/
def decode (w : Word) : Except IllegalWord Instr :=
  if reservedZero w then
    match opField w with
    | 0x1#4 => noPol w (noM w (noS w (.ok .build)))
    | 0x2#4 => noPol w (noM w (noS w (.ok .find)))
    | 0x3#4 => noPol w (.ok (.dec (mField w) (sField w)))
    | 0x4#4 => .ok (.enc (polField w) (mField w) (sField w))
    | 0x5#4 => noPol w (noS w (.ok (.decall (mField w))))
    | 0x6#4 => noS w (.ok (.encall (polField w) (mField w)))
    | 0x7#4 => noPol w (noM w (noS w (.ok .rxf)))
    | 0x8#4 => noS w (.ok (.txf (polField w) (mField w)))
    | 0x9#4 => noPol w (noM w (noS w (.ok .stat)))
    | 0xA#4 => noPol w (noS w (.ok (.getm (mField w))))
    | 0xB#4 => noPol w (.ok (.gets (mField w) (sField w)))
    | _ => .error .opcode
  else .error .reservedBits

/-- `POL` as a bit: 0 clamp, 1 reject (30_encoding.md R70). -/
def polBit : Policy → BitVec 1
  | .clamp => 0#1
  | .reject => 1#1

/-- The one format of a command word (30_encoding.md R70):
`OP << 28 | POL << 27 | M << 8 | S`, every other bit 0. -/
def commandWord (op : BitVec 4) (pol : BitVec 1) (m : BitVec 8) (s : BitVec 6) : Word :=
  op ++ pol ++ 0#11 ++ m ++ 0#2 ++ s

/-- The encoder: the command word of an operation (30_encoding.md R70, R72). -/
def encode : Instr → Word
  | .build => commandWord 0x1#4 0#1 0#8 0#6
  | .find => commandWord 0x2#4 0#1 0#8 0#6
  | .dec m s => commandWord 0x3#4 0#1 m s
  | .enc pol m s => commandWord 0x4#4 (polBit pol) m s
  | .decall m => commandWord 0x5#4 0#1 m 0#6
  | .encall pol m => commandWord 0x6#4 (polBit pol) m 0#6
  | .rxf => commandWord 0x7#4 0#1 0#8 0#6
  | .txf pol m => commandWord 0x8#4 (polBit pol) m 0#6
  | .stat => commandWord 0x9#4 0#1 0#8 0#6
  | .getm m => commandWord 0xA#4 0#1 m 0#6
  | .gets m s => commandWord 0xB#4 0#1 m s

/-- The mnemonics of the eleven rows of 30_encoding.md R72. -/
inductive Mnemonic where
  | BUILD
  | FIND
  | DEC
  | ENC
  | DECALL
  | ENCALL
  | RXF
  | TXF
  | STAT
  | GETM
  | GETS
deriving DecidableEq, Repr

/-- The row of 30_encoding.md R72 that an operation belongs to. -/
def Instr.mnemonic : Instr → Mnemonic
  | .build => .BUILD
  | .find => .FIND
  | .dec _ _ => .DEC
  | .enc _ _ _ => .ENC
  | .decall _ => .DECALL
  | .encall _ _ => .ENCALL
  | .rxf => .RXF
  | .txf _ _ => .TXF
  | .stat => .STAT
  | .getm _ => .GETM
  | .gets _ _ => .GETS

/-- A row of the operation map: a word `c` selects it exactly when `c & mask = match` (30_encoding.md R72). -/
structure MapRow where
  mnemonic : Mnemonic
  matchBits : Word
  mask : Word
deriving DecidableEq, Repr

/-- A command word selects a row (30_encoding.md R72). -/
def MapRow.selects (row : MapRow) (w : Word) : Bool := w &&& row.mask == row.matchBits

/-- The operation map of 30_encoding.md R72, `match` and `mask` as the table has them. -/
def operationMap : List MapRow :=
  [ ⟨.BUILD, 0x10000000#32, 0xFFFFFFFF#32⟩,
    ⟨.FIND, 0x20000000#32, 0xFFFFFFFF#32⟩,
    ⟨.DEC, 0x30000000#32, 0xFFFF00C0#32⟩,
    ⟨.ENC, 0x40000000#32, 0xF7FF00C0#32⟩,
    ⟨.DECALL, 0x50000000#32, 0xFFFF00FF#32⟩,
    ⟨.ENCALL, 0x60000000#32, 0xF7FF00FF#32⟩,
    ⟨.RXF, 0x70000000#32, 0xFFFFFFFF#32⟩,
    ⟨.TXF, 0x80000000#32, 0xF7FF00FF#32⟩,
    ⟨.STAT, 0x90000000#32, 0xFFFFFFFF#32⟩,
    ⟨.GETM, 0xA0000000#32, 0xFFFF00FF#32⟩,
    ⟨.GETS, 0xB0000000#32, 0xFFFF00C0#32⟩ ]

/-- The command word that an instruction's bits `w` stand for: the low `nbits` bits of `w`, every bit
above them 0. -/
def tableWord (nbits w : Nat) : Word := BitVec.ofNat 32 (w % 2 ^ nbits)

/-- The operation the decoder reads from an instruction of the opcode table whose bits are `w`. -/
def decodeTableWord (nbits w : Nat) : Option Instr := (decode (tableWord nbits w)).toOption

end Sys2Proof
end

