-- ==== Sys2Proof/Machine/State.lean ====
section
/-! DEFINITION. The state of the block (10_state.md): the three pieces of held state (R20), and at its interface the request and response records (R27, R28), which the block does not hold. All of it is plain data. -/

namespace Sys2Proof.Machine

open Sys2Proof

/-- The status codes of 60_exceptions.md R170; the numbers are `Status.code`. -/
inductive Status where
  | ok
  | notFound
  | payloadTooShort
  | valueOutOfRange
  | tableInvalid
  | noTable
  | locked
  | badIndex
  | badLength
  | illegalCmd
deriving DecidableEq, Repr

/-- The sub-causes of TABLE_INVALID (60_exceptions.md R172); the numbers are `SubCause.code`. -/
inductive SubCause where
  | range
  | placement
  | overlap
  | scale
  | minMax
  | idCollision
  | capacity
deriving DecidableEq, Repr

/-- The three result flags of one value (10_state.md R30). -/
structure Flags where
  rovf : Bool
  clamped : Bool
  oor : Bool
deriving DecidableEq, Repr

/-- The `msg` field of a response, produced by GETM (10_state.md R28). -/
structure MsgInfo where
  messageId : Word
  idMask : Word
  dlc : Fin 16
  nsig : Nat
deriving DecidableEq, Repr

/-- The request record (10_state.md R27). -/
structure Request (ν : Type := NUM) where
  cmd : Word
  id : Word
  len : BitVec 4
  pay : Payload
  v : ν
  vals : Vector ν 64
  img : Image ν
deriving DecidableEq, Repr

/-- The response record (10_state.md R28). `sub = none` is the code 0. -/
structure Response (ν : Type := NUM) where
  st : Status
  sub : Option SubCause
  m : BitVec 8
  s : BitVec 6
  aux : BitVec 8
  id : Word
  len : BitVec 4
  pay : Payload
  v : ν
  fl : Flags
  vals : Vector ν 64
  vfl : Vector Flags 64
  tvalid : Bool
  nmsg : BitVec 9
  msg : MsgInfo
  sig : Signal ν
deriving DecidableEq, Repr

/-- What stands at the interface: a request (10_state.md R27), or a reset (70_reset_and_hazards.md R200). -/
inductive Event where
  | request (r : Request)
  | reset
deriving DecidableEq, Repr

/-- Held state: the three pieces of state the block holds between operations, TVALID, NMSG and TABLE
(10_state.md R20, R21, R22, R24), over a number type. -/
structure Held (ν : Type := NUM) where
  tvalid : Bool
  nmsg : BitVec 9
  table : List (Message ν)
deriving DecidableEq, Repr

/-- The machine, at the default number type: the held state, and beside it three fields that are the
model's own. `params` are the parameters ROUND_TIES and N_MSG_MAX of 00_scope.md R10, written by nothing
(log 3). `pending` are the events at the interface in the order in which the block
serves them (20_memory.md R54; log 1) and `rsp` is the response to the operation answered last (log 2);
these two are the interface, not held state. -/
structure State extends Held NUM where
  params : Params
  pending : List Event
  rsp : Option Response
deriving DecidableEq, Repr

/-- Why a step stops with a fault: never. The block has no fault (60_exceptions.md R176), and "every
request in every state has exactly one response and one next state" (93_implementation_defined.md), so
the type has no constructor. Safe (log 12). -/
inductive Fault where
deriving DecidableEq, Repr

/-- Why a step is refused. -/
inductive Refusal where
  /-- Raised by an arm of `exec` whose instruction has no meaning yet, and by nothing else. No arm raises
  it: every instruction has its meaning. Safe. -/
  | notModelled (mnemonic : String)
deriving DecidableEq, Repr

/-- The held state that reset leaves: TVALID = 0, NMSG = 0, TABLE empty (10_state.md R36,
70_reset_and_hazards.md R200, R201). -/
def Held.reset {ν : Type} : Held ν := { tvalid := false, nmsg := 0#9, table := [] }

/-- The state right after reset: TVALID = 0, NMSG = 0, TABLE empty (10_state.md R36, 70_reset_and_hazards.md
R200, R201). DESIGN CHOICE, unsafe: the parameters at the defaults of 00_scope.md R10 (log 3), no
event pending (log 5), no response given yet (log 2). -/
def State.reset : State :=
  { toHeld := Held.reset
    params := Params.default
    pending := []
    rsp := none }

end Sys2Proof.Machine
end

