-- ==== Sys2Proof/Machine/Operands.lean ====
section
/-! DEFINITION. Operand forms: the payload bit space and its bit-fields (20_memory.md R42 to R49), the raw value of a signal (40_signal_codec.md R100, R105), rounding and clamping (00_scope.md R17, R18), value lanes (10_state.md R29). -/

namespace Sys2Proof.Machine

open Sys2Proof

/-- `cell(order, p)`: the physical (byte index, bit index) that position `p` names (20_memory.md R42). -/
def cell (order : ByteOrder) (p : Nat) : Nat × Nat :=
  match order with
  | .le => (p / 8, p % 8)
  | .be => (p / 8, 7 - p % 8)

/-- `weight(order, n, i)`: the bit of the `n`-bit raw field that position `start_bit + i` carries
(20_memory.md R43). -/
def weight (order : ByteOrder) (n i : Nat) : Nat :=
  match order with
  | .le => i
  | .be => n - 1 - i

/-- `pay[b][k]`, one physical bit of the buffer (00_scope.md R11). A byte index outside 0..7 names no
byte and reads 0; no installed signal reaches one (log 8). -/
def cellBit (pay : Payload) (c : Nat × Nat) : Bool :=
  match pay[c.1]? with
  | some byte => byte.getLsbD c.2
  | none => false

/-- `PayBit(pay, order, p)` (20_memory.md R44). -/
def payBit (pay : Payload) (order : ByteOrder) (p : Nat) : Bool := cellBit pay (cell order p)

/-- `bit_length` of a signal, as a number: the `n` of 20_memory.md R43 to R46. -/
def sigLen {ν : Type} (sig : Signal ν) : Nat := sig.bitLength.val

/-- `start_bit` of a signal, as a number. -/
def sigStart {ν : Type} (sig : Signal ν) : Nat := sig.startBit.val

/-- The cell of the signal's position `start_bit + i`. -/
def sigCell {ν : Type} (sig : Signal ν) (i : Nat) : Nat × Nat := cell sig.byteOrder (sigStart sig + i)

/-- `extract(sig, pay)`: the field as an unsigned integer (20_memory.md R45). -/
def extract {ν : Type} (sig : Signal ν) (pay : Payload) : Nat :=
  ((List.range (sigLen sig)).map fun i =>
    (payBit pay sig.byteOrder (sigStart sig + i)).toNat *
      2 ^ weight sig.byteOrder (sigLen sig) i).sum

/-- The bit that `insert(sig, w, pay)` leaves in a cell: the field's bit of `w` where the cell is one of
the signal's, the buffer's own bit elsewhere (20_memory.md R46). -/
def insertedBit {ν : Type} (sig : Signal ν) (w : Nat) (pay : Payload) (c : Nat × Nat) : Bool :=
  match (List.range (sigLen sig)).find? fun i => sigCell sig i == c with
  | some i => w.testBit (weight sig.byteOrder (sigLen sig) i)
  | none => cellBit pay c

/-- `insert(sig, w, pay)`: the buffer with the field written and every other bit kept (20_memory.md R46). -/
def insert {ν : Type} (sig : Signal ν) (w : Nat) (pay : Payload) : Payload :=
  Vector.ofFn fun b : Fin 8 => BitVec.ofFnLE fun k : Fin 8 => insertedBit sig w pay (b.val, k.val)

/-- `need(sig)`: the number of payload bytes that must exist for the signal to be read (20_memory.md R48). -/
def need {ν : Type} (sig : Signal ν) : Nat := (sigStart sig + sigLen sig + 7) / 8

/-- `cells(sig)`, the physical cells of the signal (20_memory.md R49). -/
def cells {ν : Type} (sig : Signal ν) : List (Nat × Nat) := (List.range (sigLen sig)).map (sigCell sig)

/-- `interval(a) ∩ interval(b) ≠ ∅` for the position intervals `[start_bit, start_bit + bit_length)` of two
signals with non-empty intervals (20_memory.md R49, 41_table_build.md R134). -/
def intervalsMeet {ν : Type} (a b : Signal ν) : Bool :=
  decide (sigStart a < sigStart b + sigLen b) &&
    decide (sigStart b < sigStart a + sigLen a)

/-- `cells(a) ∩ cells(b) ≠ ∅` (20_memory.md R49, 41_table_build.md R134). -/
def cellsMeet {ν : Type} (a b : Signal ν) : Bool := (cells a).any fun c => (cells b).contains c

/-- `sraw(sig, pay)`: the raw integer, sign-extended when the signal is signed (40_signal_codec.md R100). -/
def sraw {ν : Type} (sig : Signal ν) (pay : Payload) : Int :=
  if sig.isSigned && (extract sig pay).testBit (sigLen sig - 1) then
    (extract sig pay : Int) - 2 ^ sigLen sig
  else (extract sig pay : Int)

/-- The field bits that `trunc(sig, r)` writes: `r mod 2^n` (40_signal_codec.md R105). -/
def truncBits {ν : Type} (sig : Signal ν) (r : Int) : Nat := (r % 2 ^ sigLen sig).toNat

/-- How an exact tie between `f` and `f + 1` is broken (00_scope.md R17). -/
def breakTie (ties : RoundTies) (f : Int) : Int :=
  match ties with
  | .away => if f < 0 then f else f + 1
  | .even => if f % 2 = 0 then f else f + 1
  | .up => f + 1
  | .down => f

/-- `round(q)` at `NUM = ℚ`: the integer nearest to `q`, an exact tie broken as `ROUND_TIES` says (00_scope.md R17). -/
def roundNum (ties : RoundTies) (q : NUM) : Int :=
  let f := q.floor
  let d := q - (f : NUM)
  if d < 1 / 2 then f else if 1 / 2 < d then f + 1 else breakTie ties f

/-- `NUM = ℚ`, the default of 00_scope.md R10: every operation is exact (R16), and `round` is to nearest (R17). -/
def rational : NumType NUM :=
  { ofInt := fun r => (r : NUM)
    add := fun x y => x + y
    sub := fun x y => x - y
    mul := fun x y => x * y
    div := fun x y => x / y
    lt := fun x y => decide (x < y)
    le := fun x y => decide (x ≤ y)
    round := roundNum }

/-- `ofInt 0`, what a `NUM` field of a response that an operation does not set holds (10_state.md R28). -/
def numZero {ν : Type} (N : NumType ν) : ν := N.ofInt 0

/-- A number is zero: `x ≤ ofInt 0` and `ofInt 0 ≤ x`. In the total order of 00_scope.md R16 this is equality with
`ofInt 0`. DESIGN CHOICE, unsafe, for a number type whose order is not total, which the spec leaves open
(93_implementation_defined.md U4): a number that compares with nothing, a not-a-number, is not zero, so that
BUILD does not refuse it as a scale, which U4 recommends and does not require (log 4). -/
def isZero {ν : Type} (N : NumType ν) (x : ν) : Bool := N.le x (numZero N) && N.le (numZero N) x

/-- `clamp(v, lo, hi)` (00_scope.md R18). -/
def clampNum {ν : Type} (N : NumType ν) (v lo hi : ν) : ν := if N.lt v lo then lo else if N.lt hi v then hi else v

/-- The buffer of eight zero bytes that ENCALL starts from (40_signal_codec.md R110). -/
def zeroPayload : Payload := Vector.replicate 8 0#8

/-- The 64 lanes of a value array that holds the listed elements and zero above them (10_state.md R29). -/
def lanes {α : Type} (zero : α) (xs : List α) : Vector α 64 := Vector.ofFn fun i : Fin 64 => xs.getD i.val zero

end Sys2Proof.Machine
end

