-- ==== Sys2Proof/Machine/Flags.lean ====
section
/-! DEFINITION. The three per-value result flags (10_state.md R30): when each is set, and their places in a response. -/

namespace Sys2Proof.Machine

open Sys2Proof

/-- All three flags clear (10_state.md R28). -/
def noFlags : Flags := { rovf := false, clamped := false, oor := false }

/-- A physical value lies below `min_value` or above `max_value` (40_signal_codec.md R101, R104). -/
def outOfRange {ν : Type} (N : NumType ν) (sig : Signal ν) (v : ν) : Bool :=
  N.lt v sig.minValue || N.lt sig.maxValue v

/-- `fits`: an integer lies in the raw range of the signal's field (40_signal_codec.md R105). -/
def fitsRaw {ν : Type} (sig : Signal ν) (r : Int) : Bool :=
  if sig.isSigned then
    decide (-(2 ^ (sigLen sig - 1)) ≤ r) && decide (r ≤ 2 ^ (sigLen sig - 1) - 1)
  else decide (0 ≤ r) && decide (r ≤ 2 ^ sigLen sig - 1)

/-- The flags of a decoded value: `oor` alone (10_state.md R30, 40_signal_codec.md R101). -/
def decodeFlags {ν : Type} (N : NumType ν) (sig : Signal ν) (v : ν) : Flags :=
  { rovf := false, clamped := false, oor := outOfRange N sig v }

/-- The flags of an encoded value: `clamped` when the given value was out of range, `rovf` when the
rounded raw integer does not fit (10_state.md R30, 40_signal_codec.md R104, R105). -/
def encodeFlags {ν : Type} (N : NumType ν) (sig : Signal ν) (v : ν) (r : Int) : Flags :=
  { rovf := !fitsRaw sig r, clamped := outOfRange N sig v, oor := false }

/-- The three bits `rovf, clamped, oor` of a flag field, `oor` in bit 0 (10_state.md R28, R30). -/
def flagBits (fl : Flags) : BitVec 3 :=
  BitVec.ofBool fl.rovf ++ BitVec.ofBool fl.clamped ++ BitVec.ofBool fl.oor

end Sys2Proof.Machine
end

