-- ==== Sys2Proof/Machine/Ops.lean ====
section
/-! DEFINITION. The shared operations: status codes, responses and the one way an error result is made (60_exceptions.md), reading the installed table with the common checks (R173, R174), serving a request, an illegal command, and the reset event. -/

namespace Sys2Proof.Machine

open Sys2Proof

/-- What a step answers. -/
abbrev Result := Host.Outcome State Fault Refusal

/-- The 4-bit status codes (60_exceptions.md R170). -/
def statusCode : Status → BitVec 4
  | .ok => 0#4
  | .notFound => 1#4
  | .payloadTooShort => 2#4
  | .valueOutOfRange => 3#4
  | .tableInvalid => 4#4
  | .noTable => 5#4
  | .locked => 6#4
  | .badIndex => 7#4
  | .badLength => 8#4
  | .illegalCmd => 9#4

/-- The 4-bit validation sub-cause codes (60_exceptions.md R172); 0 where there is none. -/
def subCauseCode : Option SubCause → BitVec 4
  | none => 0#4
  | some .range => 1#4
  | some .placement => 2#4
  | some .overlap => 3#4
  | some .scale => 4#4
  | some .minMax => 5#4
  | some .idCollision => 6#4
  | some .capacity => 7#4

/-- The Signal record with every field zero (10_state.md R28). -/
def zeroSignal {ν : Type} (N : NumType ν) : Signal ν :=
  { startBit := 0, bitLength := 0, byteOrder := .le, isSigned := false
    scale := numZero N, offset := numZero N, minValue := numZero N, maxValue := numZero N }

/-- The response with status OK and every other field zero (10_state.md R28). -/
def okResponse {ν : Type} (N : NumType ν) : Response ν :=
  { st := .ok, sub := none, m := 0#8, s := 0#6, aux := 0#8, id := 0#32, len := 0#4
    pay := zeroPayload, v := numZero N, fl := noFlags
    vals := Vector.replicate 64 (numZero N), vfl := Vector.replicate 64 noFlags
    tvalid := false, nmsg := 0#9
    msg := { messageId := 0#32, idMask := 0#32, dlc := 0, nsig := 0 }, sig := zeroSignal N }

/-- THE error result (60_exceptions.md R171, R176): a status, with the sub-cause and indices it
records, and nothing else delivered. It is the block's only form of an exception: no state is saved,
no mode changes and control goes nowhere (R176), and there is no return from it (R177). -/
def errorResult {ν : Type} (N : NumType ν) (st : Status) (sub : Option SubCause) (m : BitVec 8) (s : BitVec 6)
    (aux : BitVec 8) : Response ν :=
  { okResponse N with st := st, sub := sub, m := m, s := s, aux := aux }

/-- An error result that records nothing but its status (60_exceptions.md R171). -/
def errorStatus {ν : Type} (N : NumType ν) (st : Status) : Response ν := errorResult N st none 0#8 0#6 0#8

/-- An error result that names a signal of a message (60_exceptions.md R171). -/
def errorAtSignal {ν : Type} (N : NumType ν) (st : Status) (m : BitVec 8) (s : BitVec 6) : Response ν :=
  errorResult N st none m s 0#8

/-- The installed messages, or NO_TABLE in phase UNBUILT (60_exceptions.md R173, R182). They are
`TABLE[0]` to `TABLE[NMSG-1]` (10_state.md R22, R24). -/
def installedTable {ν : Type} (h : Held ν) : Except Status (List (Message ν)) :=
  if h.tvalid then .ok (h.table.take h.nmsg.toNat) else .error .noTable

/-- `TABLE[m]`, after the checks NO_TABLE and BAD_INDEX (60_exceptions.md R173, R174). -/
def messageAt {ν : Type} (h : Held ν) (m : BitVec 8) : Except Status (Message ν) :=
  match installedTable h with
  | .error e => .error e
  | .ok table =>
    match table[m.toNat]? with
    | none => .error .badIndex
    | some msg => .ok msg

/-- `TABLE[m].sig[i]`, after the checks NO_TABLE and BAD_INDEX, `M` before `S` (60_exceptions.md R173, R174). -/
def signalAt {ν : Type} (h : Held ν) (m : BitVec 8) (i : BitVec 6) : Except Status (Signal ν) :=
  match messageAt h m with
  | .error e => .error e
  | .ok msg =>
    match msg.sig[i.toNat]? with
    | none => .error .badIndex
    | some sig => .ok sig

/-- BAD_LENGTH: `len` is one of the reserved values 9 to 15 (30_encoding.md R74, 60_exceptions.md R173). -/
def badLength (len : BitVec 4) : Bool := decide (8 < len.toNat)

/-- Serve the request at the head of the interface: the operation computes the held state and the
response from the held state and the request, the request is consumed and the response given
(10_state.md R20, R26, R27). Where no request stands there, no operation runs and nothing changes (log 7). -/
def serve (s : State) (op : Held → Request → Held × Response) : Result :=
  match s.pending with
  | .request r :: rest =>
    .next { s with toHeld := (op s.toHeld r).1, pending := rest, rsp := some (op s.toHeld r).2 }
  | _ => .next s

/-- Serve the request with an operation that writes no held state (10_state.md R20). -/
def answer (s : State) (op : Held → Request → Response) : Result := serve s fun h r => (h, op h r)

/-- A command word that selects no operation (30_encoding.md R73): ILLEGAL_CMD, no state changed. -/
def illegalCommand (s : State) : Result := answer s fun _ _ => errorStatus rational .illegalCmd

/-- The reset event (70_reset_and_hazards.md R200): TVALID, NMSG and TABLE at their reset values. The
parameters stay, and no response is given (log 6). -/
def resetEvent (s : State) (rest : List Event) : State :=
  { s with toHeld := Held.reset, pending := rest, rsp := none }

/-- A requester puts a request at the end of the service order (60_exceptions.md R180, R181). -/
def issue (s : State) (r : Request) : State := { s with pending := s.pending ++ [.request r] }

/-- A request whose every field is zero but for its command word. -/
def bareRequest {ν : Type} (N : NumType ν) (cmd : Word) : Request ν :=
  { cmd := cmd, id := 0#32, len := 0#4, pay := zeroPayload, v := numZero N
    vals := Vector.replicate 64 (numZero N), img := { msgs := [], reserved := false } }

/-- The interface with `cmd` as the command word of the request served next: the request that stands
first keeps its other fields; where none stands first, a bare one is put there (log 5). -/
def withCommand (events : List Event) (cmd : Word) : List Event :=
  match events with
  | .request r :: rest => .request { r with cmd := cmd } :: rest
  | rest => .request (bareRequest rational cmd) :: rest

end Sys2Proof.Machine
end

