-- ==== Sys2Proof/Machine/Codec.lean ====
section
/-! DEFINITION. The signal codec operations DEC, ENC, DECALL and ENCALL (40_signal_codec.md). -/

namespace Sys2Proof.Machine

open Sys2Proof

/-- The physical value of `decode(sig, pay)`: `ofInt(sraw) * scale + offset`, not clamped (40_signal_codec.md R101). -/
def decodeValue {ν : Type} (N : NumType ν) (sig : Signal ν) (pay : Payload) : ν :=
  N.add (N.mul (N.ofInt (sraw sig pay)) sig.scale) sig.offset

/-- The rounded raw integer of `encode(sig, v, ...)`: `round((clamp(v) - offset) / scale)`
(40_signal_codec.md R104). An installed signal has `scale ≠ 0`; the quotient by 0 is reached in no run
(log 8). -/
def encodeRaw {ν : Type} (N : NumType ν) (p : Params) (sig : Signal ν) (v : ν) : Int :=
  N.round p.roundTies (N.div (N.sub (clampNum N v sig.minValue sig.maxValue) sig.offset) sig.scale)

/-- `encode` under the clamp policy, which never rejects: the buffer with the field written, and the
flags (40_signal_codec.md R104, R105). -/
def encodeClamped {ν : Type} (N : NumType ν) (p : Params) (sig : Signal ν) (v : ν) (pay : Payload) : Payload × Flags :=
  (insert sig (truncBits sig (encodeRaw N p sig v)) pay, encodeFlags N sig v (encodeRaw N p sig v))

/-- `encode(sig, v, pay, pol)`; none is a reject (40_signal_codec.md R104). -/
def encodeSignal {ν : Type} (N : NumType ν) (p : Params) (pol : Policy) (sig : Signal ν) (v : ν) (pay : Payload) :
    Option (Payload × Flags) :=
  match pol with
  | .clamp => some (encodeClamped N p sig v pay)
  | .reject => if outOfRange N sig v then none else some (encodeClamped N p sig v pay)

/-- A frame of length `len` is too short for the signal (40_signal_codec.md R102). -/
def tooShort {ν : Type} (len : BitVec 4) (sig : Signal ν) : Bool := decide (len.toNat < need sig)

/-- The response of DEC to a frame (40_signal_codec.md R103). -/
def decResponse {ν : Type} (N : NumType ν) (h : Held ν) (m : BitVec 8) (i : BitVec 6) (r : Request ν) : Response ν :=
  match signalAt h m i with
  | .error e => errorStatus N e
  | .ok sig =>
    if badLength r.len then errorStatus N .badLength
    else if tooShort r.len sig then errorAtSignal N .payloadTooShort m i
    else { okResponse N with v := decodeValue N sig r.pay, fl := decodeFlags N sig (decodeValue N sig r.pay) }

/-- The response of ENC to a value and a buffer (40_signal_codec.md R106). -/
def encResponse {ν : Type} (N : NumType ν) (p : Params) (h : Held ν) (pol : Policy) (m : BitVec 8) (i : BitVec 6)
    (r : Request ν) : Response ν :=
  match signalAt h m i with
  | .error e => errorStatus N e
  | .ok sig =>
    match encodeSignal N p pol sig r.v r.pay with
    | none => errorAtSignal N .valueOutOfRange m i
    | some (pay, fl) => { okResponse N with pay := pay, fl := fl }

/-- Decoding every signal of message `m`, all or nothing; a failure names the least failing index
(40_signal_codec.md R108). -/
def decodeMessage {ν : Type} (N : NumType ν) (m : BitVec 8) (msg : Message ν) (len : BitVec 4) (pay : Payload) :
    Response ν :=
  match msg.sig.findIdx? (tooShort len) with
  | some k => errorAtSignal N .payloadTooShort m (BitVec.ofNat 6 k)
  | none =>
    { okResponse N with
      vals := lanes (numZero N) (msg.sig.map fun sig => decodeValue N sig pay)
      vfl := lanes noFlags (msg.sig.map fun sig => decodeFlags N sig (decodeValue N sig pay)) }

/-- The response of DECALL to a frame (40_signal_codec.md R108). -/
def decallResponse {ν : Type} (N : NumType ν) (h : Held ν) (m : BitVec 8) (r : Request ν) : Response ν :=
  match messageAt h m with
  | .error e => errorStatus N e
  | .ok msg => if badLength r.len then errorStatus N .badLength else decodeMessage N m msg r.len r.pay

/-- The loop of ENCALL (40_signal_codec.md R110): each signal's value encoded in turn into the buffer,
with the flags of each. -/
def encodeLoop {ν : Type} (N : NumType ν) (p : Params) : List (Signal ν × ν) → Payload → Payload × List Flags
  | [], pay => (pay, [])
  | (sig, v) :: rest, pay =>
    ((encodeLoop N p rest (encodeClamped N p sig v pay).1).1,
      (encodeClamped N p sig v pay).2 :: (encodeLoop N p rest (encodeClamped N p sig v pay).1).2)

/-- The signals of a message, each with its value: `vals[s]` belongs to the signal with index `s`
(10_state.md R29). -/
def assignments {ν : Type} (msg : Message ν) (vals : Vector ν 64) : List (Signal ν × ν) := msg.sig.zip vals.toList

/-- The least signal index whose value is out of range, looked for under the reject policy alone
(40_signal_codec.md R110). -/
def firstRejected {ν : Type} (N : NumType ν) (pol : Policy) (msg : Message ν) (vals : Vector ν 64) : Option Nat :=
  match pol with
  | .clamp => none
  | .reject => (assignments msg vals).findIdx? fun sv => outOfRange N sv.1 sv.2

/-- The response of ENCALL to a value array (40_signal_codec.md R110). -/
def encallResponse {ν : Type} (N : NumType ν) (p : Params) (h : Held ν) (pol : Policy) (m : BitVec 8) (r : Request ν) :
    Response ν :=
  match messageAt h m with
  | .error e => errorStatus N e
  | .ok msg =>
    match firstRejected N pol msg r.vals with
    | some k => errorAtSignal N .valueOutOfRange m (BitVec.ofNat 6 k)
    | none =>
      { okResponse N with
        pay := (encodeLoop N p (assignments msg r.vals) zeroPayload).1
        len := BitVec.ofNat 4 msg.dlc.val
        vfl := lanes noFlags (encodeLoop N p (assignments msg r.vals) zeroPayload).2 }

/-- DEC (40_signal_codec.md R103). -/
def execDec (m : BitVec 8) (i : BitVec 6) (s : State) : Result :=
  answer s fun h r => decResponse rational h m i r

/-- ENC (40_signal_codec.md R106). -/
def execEnc (pol : Policy) (m : BitVec 8) (i : BitVec 6) (s : State) : Result :=
  answer s fun h r => encResponse rational s.params h pol m i r

/-- DECALL (40_signal_codec.md R108). -/
def execDecall (m : BitVec 8) (s : State) : Result := answer s fun h r => decallResponse rational h m r

/-- ENCALL (40_signal_codec.md R110). -/
def execEncall (pol : Policy) (m : BitVec 8) (s : State) : Result :=
  answer s fun h r => encallResponse rational s.params h pol m r

end Sys2Proof.Machine
end

