-- ==== Sys2Proof/Machine/Matcher.lean ====
section
/-! DEFINITION. The message-ID matcher and its operation FIND (42_matcher.md). -/

namespace Sys2Proof.Machine

open Sys2Proof

/-- The match predicate: frame ID `id` matches the message, all 32 bits compared (42_matcher.md R150, R152). -/
def matchesId {ν : Type} (id : Word) (msg : Message ν) : Bool := id &&& msg.idMask == msg.messageId &&& msg.idMask

/-- The scan in ascending table order: the least matching index (42_matcher.md R151, R153). -/
def findMatch {ν : Type} (table : List (Message ν)) (id : Word) : Option Nat := table.findIdx? (matchesId id)

/-- The response of FIND to an ID (42_matcher.md R151). -/
def findResponse {ν : Type} (N : NumType ν) (h : Held ν) (r : Request ν) : Response ν :=
  match installedTable h with
  | .error e => errorStatus N e
  | .ok table =>
    match findMatch table r.id with
    | none => errorStatus N .notFound
    | some k => { okResponse N with m := BitVec.ofNat 8 k }

/-- FIND (42_matcher.md R151). -/
def execFind (s : State) : Result := answer s fun h r => findResponse rational h r

end Sys2Proof.Machine
end

