-- ==== Sys2Proof/Machine/Frame.lean ====
section
/-! DEFINITION. The frame-level data flows RXF and TXF (43_frame_dispatch.md). -/

namespace Sys2Proof.Machine

open Sys2Proof

/-- The response of RXF to a frame: match, then decode every signal (43_frame_dispatch.md R161). -/
def rxfResponse {ν : Type} (N : NumType ν) (h : Held ν) (r : Request ν) : Response ν :=
  match installedTable h with
  | .error e => errorStatus N e
  | .ok table =>
    if badLength r.len then errorStatus N .badLength
    else
      match findMatch table r.id with
      | none => errorStatus N .notFound
      | some k =>
        match table[k]? with
        | none => errorStatus N .notFound
        | some msg => { decodeMessage N (BitVec.ofNat 8 k) msg r.len r.pay with m := BitVec.ofNat 8 k }

/-- The response of TXF: that of ENCALL, with the definition's own ID added when it is OK
(43_frame_dispatch.md R165). -/
def txfResponse {ν : Type} (N : NumType ν) (p : Params) (h : Held ν) (pol : Policy) (m : BitVec 8) (r : Request ν) :
    Response ν :=
  match (encallResponse N p h pol m r).st, messageAt h m with
  | .ok, .ok msg => { encallResponse N p h pol m r with id := msg.messageId }
  | _, _ => encallResponse N p h pol m r

/-- RXF (43_frame_dispatch.md R161). -/
def execRxf (s : State) : Result := answer s fun h r => rxfResponse rational h r

/-- TXF (43_frame_dispatch.md R165). -/
def execTxf (pol : Policy) (m : BitVec 8) (s : State) : Result :=
  answer s fun h r => txfResponse rational s.params h pol m r

end Sys2Proof.Machine
end

