-- ==== Sys2Proof/Machine/Table.lean ====
section
/-! DEFINITION. The table operations BUILD, STAT, GETM and GETS (41_table_build.md), with the validation of a table image. -/

namespace Sys2Proof.Machine

open Sys2Proof

/-- What a failed validation reports (41_table_build.md R136). -/
structure Violation where
  sub : SubCause
  m : Nat
  s : Nat
  aux : Nat
deriving DecidableEq, Repr

/-- The per-signal checks of 41_table_build.md R133, in the order of R136: the sub-cause of the first
that fires, for a signal of a message with the given `dlc`. DESIGN CHOICE, unsafe, for a number type with
infinities or not-a-numbers: no test of its own refuses them (93_implementation_defined.md U4; log 4). -/
def signalFault {ν : Type} (N : NumType ν) (dlc : Nat) (sig : RawSignal ν) : Option SubCause :=
  if sigLen sig.record = 0 ∨ 64 < sigLen sig.record ∨ sig.reserved = true then some .range
  else if dlc * 8 < sigStart sig.record + sigLen sig.record then some .placement
  else if isZero N sig.record.scale then some .scale
  else if N.lt sig.record.maxValue sig.record.minValue then some .minMax
  else none

/-- Two different signals of one message overlap (41_table_build.md R134). -/
def overlap {ν : Type} (a b : RawSignal ν) : Bool := intervalsMeet a.record b.record || cellsMeet a.record b.record

/-- `key`: the masked ID of a message (41_table_build.md R135). -/
def maskedId (messageId idMask : Word) : Word := messageId &&& idMask

/-- Two messages collide (41_table_build.md R135). -/
def idsCollide {ν : Type} (a b : RawMessage ν) : Bool :=
  maskedId a.messageId a.idMask == maskedId b.messageId b.idMask

/-- The first pair `i < j`, `i` outermost, whose elements are bad together; indices count from `base`
(the double loops of 41_table_build.md R136). -/
def firstPair {α : Type} (bad : α → α → Bool) (base : Nat) : List α → Option (Nat × Nat)
  | [] => none
  | x :: xs =>
    match xs.findIdx? (bad x) with
    | some k => some (base, base + 1 + k)
    | none => firstPair bad (base + 1) xs

/-- The first element at which a check fires, with its index counted from `base` (the single loops of
41_table_build.md R136). -/
def firstFault {α β : Type} (check : Nat → α → Option β) (base : Nat) : List α → Option β
  | [] => none
  | x :: xs =>
    match check base x with
    | some v => some v
    | none => firstFault check (base + 1) xs

/-- The checks of message `m` (41_table_build.md R136): its own fields, then every signal's, then the
overlap pairs. -/
def messageFault {ν : Type} (N : NumType ν) (m : Nat) (msg : RawMessage ν) : Option Violation :=
  if 8 < msg.dlc.val ∨ 64 < msg.sig.length ∨ msg.reserved = true then some ⟨.range, m, 0, 0⟩
  else
    match firstFault (fun s sig => (signalFault N msg.dlc.val sig).map fun sub => Violation.mk sub m s 0) 0
      msg.sig with
    | some v => some v
    | none => (firstPair overlap 0 msg.sig).map fun ij => ⟨.overlap, m, ij.1, ij.2⟩

/-- `first_violation(img)` (41_table_build.md R136). -/
def firstViolation {ν : Type} (N : NumType ν) (p : Params) (img : Image ν) : Option Violation :=
  if img.reserved = true then some ⟨.range, 0, 0, 0⟩
  else if p.nMsgMax.val < img.msgs.length then some ⟨.capacity, 0, 0, 0⟩
  else
    match firstFault (messageFault N) 0 img.msgs with
    | some v => some v
    | none => (firstPair idsCollide 0 img.msgs).map fun ij => ⟨.idCollision, ij.1, 0, ij.2⟩

/-- The Message record that BUILD installs for a raw definition, each field as given (41_table_build.md R131). -/
def installedMessage {ν : Type} (msg : RawMessage ν) : Message ν :=
  { messageId := msg.messageId, idMask := msg.idMask, dlc := msg.dlc, sig := msg.sig.map RawSignal.record }

/-- The records of an image, in order, each field as given (41_table_build.md R131). -/
def installedRecords {ν : Type} (img : Image ν) : List (Message ν) := img.msgs.map installedMessage

/-- The TABLE_INVALID response to a violation (41_table_build.md R131, 60_exceptions.md R171). -/
def violationResult {ν : Type} (N : NumType ν) (v : Violation) : Response ν :=
  errorResult N .tableInvalid (some v.sub) (BitVec.ofNat 8 v.m) (BitVec.ofNat 6 v.s) (BitVec.ofNat 8 v.aux)

/-- BUILD on a request: LOCKED, TABLE_INVALID, or all three pieces of held state written (41_table_build.md R131). -/
def buildTable {ν : Type} (N : NumType ν) (p : Params) (h : Held ν) (r : Request ν) : Held ν × Response ν :=
  if h.tvalid then (h, errorStatus N .locked)
  else
    match firstViolation N p r.img with
    | some v => (h, violationResult N v)
    | none =>
      ({ table := installedRecords r.img, nmsg := BitVec.ofNat 9 r.img.msgs.length, tvalid := true }, okResponse N)

/-- The response of STAT (41_table_build.md R138). -/
def statResponse {ν : Type} (N : NumType ν) (h : Held ν) : Response ν :=
  { okResponse N with tvalid := h.tvalid, nmsg := h.nmsg }

/-- The response of GETM (41_table_build.md R139). -/
def getmResponse {ν : Type} (N : NumType ν) (h : Held ν) (m : BitVec 8) : Response ν :=
  match messageAt h m with
  | .error e => errorStatus N e
  | .ok msg =>
    { okResponse N with
      msg := { messageId := msg.messageId, idMask := msg.idMask, dlc := msg.dlc, nsig := msg.sig.length } }

/-- The response of GETS (41_table_build.md R140). -/
def getsResponse {ν : Type} (N : NumType ν) (h : Held ν) (m : BitVec 8) (i : BitVec 6) : Response ν :=
  match signalAt h m i with
  | .error e => errorStatus N e
  | .ok sig => { okResponse N with sig := sig }

/-- BUILD (41_table_build.md R131). -/
def execBuild (s : State) : Result := serve s fun h r => buildTable rational s.params h r

/-- STAT (41_table_build.md R138). -/
def execStat (s : State) : Result := answer s fun h _ => statResponse rational h

/-- GETM (41_table_build.md R139). -/
def execGetm (m : BitVec 8) (s : State) : Result := answer s fun h _ => getmResponse rational h m

/-- GETS (41_table_build.md R140). -/
def execGets (m : BitVec 8) (i : BitVec 6) (s : State) : Result :=
  answer s fun h _ => getsResponse rational h m i

end Sys2Proof.Machine
end

