-- ==== Sys2Proof/Machine/Dispatch.lean ====
section
/-! DEFINITION. The meaning of each operation, one arm per constructor (30_encoding.md R72). -/

namespace Sys2Proof.Machine

def exec (i : Instr) (s : State) : Host.Outcome State Fault Refusal :=
  match i with
  | .build => Sys2Proof.Machine.execBuild s
  | .find => Sys2Proof.Machine.execFind s
  | .dec m j => Sys2Proof.Machine.execDec m j s
  | .enc pol m j => Sys2Proof.Machine.execEnc pol m j s
  | .decall m => Sys2Proof.Machine.execDecall m s
  | .encall pol m => Sys2Proof.Machine.execEncall pol m s
  | .rxf => Sys2Proof.Machine.execRxf s
  | .txf pol m => Sys2Proof.Machine.execTxf pol m s
  | .stat => Sys2Proof.Machine.execStat s
  | .getm m => Sys2Proof.Machine.execGetm m s
  | .gets m j => Sys2Proof.Machine.execGets m j s

end Sys2Proof.Machine
end

