-- ==== Sys2Proof/Machine/Step.lean ====
section
/-! DEFINITION. One step: the event at the head of the interface is served (10_state.md R26, 60_exceptions.md R181). -/

namespace Sys2Proof.Machine

open Sys2Proof

/-- One step. A request's command word is decoded and its operation run, or ILLEGAL_CMD answered
(30_encoding.md R73, 60_exceptions.md R174); a reset resets (70_reset_and_hazards.md R200); with no
event pending nothing changes (log 5). -/
def step (s : State) : Host.Outcome State Fault Refusal :=
  match s.pending with
  | [] => .next s
  | .reset :: rest => .next (resetEvent s rest)
  | .request r :: _ =>
    match decode r.cmd with
    | .ok i => exec i s
    | .error _ => illegalCommand s

/-- `s` with the instruction whose bits are `w` as the command word of the request served next. -/
def State.withFetchWord (s : State) (nbits w : Nat) : State :=
  { s with pending := withCommand s.pending (tableWord nbits w) }

end Sys2Proof.Machine
end

