-- ==== Sys2Proof/Machine/Assembler.lean ====
section
/-! DEFINITION. The assembler syntax and the pseudo-operations (30_encoding.md R86, R87): the request that each line of assembly issues. -/

namespace Sys2Proof.Machine

open Sys2Proof

/-- A line of assembly (30_encoding.md R86), or a pseudo-operation (R87). The policy suffix `.C` is
`some .clamp`, `.R` is `some .reject`, no suffix is `none`. -/
inductive Asm (ν : Type := NUM) where
  | build (img : Image ν)
  | find (id : Word)
  | dec (m : BitVec 8) (s : BitVec 6) (len : BitVec 4) (pay : List Byte)
  | enc (suffix : Option Policy) (m : BitVec 8) (s : BitVec 6) (v : ν) (pay : List Byte)
  | decall (m : BitVec 8) (len : BitVec 4) (pay : List Byte)
  | encall (suffix : Option Policy) (m : BitVec 8) (vals : List ν)
  | rxf (id : Word) (len : BitVec 4) (pay : List Byte)
  | txf (suffix : Option Policy) (m : BitVec 8) (vals : List ν)
  | stat
  | getm (m : BitVec 8)
  | gets (m : BitVec 8) (s : BitVec 6)
  /-- `ZENC m, s, v`: encode into an all-zero buffer. -/
  | zenc (m : BitVec 8) (s : BitVec 6) (v : ν)
  /-- `COUNT`: STAT, taking `rsp.nmsg`. -/
  | count
  /-- `MATCH id`: FIND. -/
  | matchId (id : Word)
deriving DecidableEq, Repr

/-- No suffix means the documented policy, clamp (30_encoding.md R71, R87). -/
def suffixPolicy : Option Policy → Policy
  | none => .clamp
  | some pol => pol

/-- A payload written byte 0 first, missing bytes taken as 00 (30_encoding.md R86). -/
def payloadOf (bytes : List Byte) : Payload := Vector.ofFn fun b : Fin 8 => bytes.getD b.val 0#8

/-- The operation that a line of assembly selects (30_encoding.md R86, R87). -/
def asmInstr {ν : Type} : Asm ν → Instr
  | .build _ => .build
  | .find _ => .find
  | .dec m s _ _ => .dec m s
  | .enc suffix m s _ _ => .enc (suffixPolicy suffix) m s
  | .decall m _ _ => .decall m
  | .encall suffix m _ => .encall (suffixPolicy suffix) m
  | .rxf _ _ _ => .rxf
  | .txf suffix m _ => .txf (suffixPolicy suffix) m
  | .stat => .stat
  | .getm m => .getm m
  | .gets m s => .gets m s
  | .zenc m s _ => .enc .clamp m s
  | .count => .stat
  | .matchId _ => .find

/-- The request that a line of assembly issues: its command word and operand fields, every other field
zero; a value list fills `vals[0]`, `vals[1]`, ... and the rest are 0 (30_encoding.md R86). -/
def asmRequest {ν : Type} (N : NumType ν) (a : Asm ν) : Request ν :=
  let r := bareRequest N (encode (asmInstr a))
  match a with
  | .build img => { r with img := img }
  | .find id => { r with id := id }
  | .dec _ _ len pay => { r with len := len, pay := payloadOf pay }
  | .enc _ _ _ v pay => { r with v := v, pay := payloadOf pay }
  | .decall _ len pay => { r with len := len, pay := payloadOf pay }
  | .encall _ _ vals => { r with vals := lanes (numZero N) vals }
  | .rxf id len pay => { r with id := id, len := len, pay := payloadOf pay }
  | .txf _ _ vals => { r with vals := lanes (numZero N) vals }
  | .stat => r
  | .getm _ => r
  | .gets _ _ => r
  | .zenc _ _ v => { r with v := v }
  | .count => r
  | .matchId id => { r with id := id }

end Sys2Proof.Machine
end

