-- ==== Sys2Proof/Machine/Block.lean ====
section
/-! DEFINITION. The block for every value of the parameter `NUM` (00_scope.md R10, R16): held state and a request in, held state and a response out (10_state.md R20, R26). `exec` and `step` are this block at `NUM = ℚ`. -/

namespace Sys2Proof.Machine

open Sys2Proof

/-- What an operation does with a request: the held state it leaves and its response (30_encoding.md R72). -/
def operate {ν : Type} (N : NumType ν) (p : Params) (i : Instr) (h : Held ν) (r : Request ν) :
    Held ν × Response ν :=
  match i with
  | .build => buildTable N p h r
  | .find => (h, findResponse N h r)
  | .dec m k => (h, decResponse N h m k r)
  | .enc pol m k => (h, encResponse N p h pol m k r)
  | .decall m => (h, decallResponse N h m r)
  | .encall pol m => (h, encallResponse N p h pol m r)
  | .rxf => (h, rxfResponse N h r)
  | .txf pol m => (h, txfResponse N p h pol m r)
  | .stat => (h, statResponse N h)
  | .getm m => (h, getmResponse N h m)
  | .gets m k => (h, getsResponse N h m k)

/-- What the block does with a request: the operation its command word selects, or ILLEGAL_CMD
(30_encoding.md R73, 60_exceptions.md R174). -/
def respond {ν : Type} (N : NumType ν) (p : Params) (h : Held ν) (r : Request ν) : Held ν × Response ν :=
  match decode r.cmd with
  | .ok i => operate N p i h r
  | .error _ => (h, errorStatus N .illegalCmd)

end Sys2Proof.Machine
end

