-- ==== Sys2Proof/Machine/PackedImage.lean ====
section
/-! DEFINITION. The packed table image (30_encoding.md R81), for a number type of `NUM_W` bits. No operation reads it: an operation is given the abstract image of R80, which the packed form stands for, and at the default `NUM` "there is no packed form and rule R80 is the interface" (log 10). -/

namespace Sys2Proof.Machine

open Sys2Proof

/-- How a `NUM` is written in `NUM_W` bits: part of the parameter `NUM` (30_encoding.md R81, 00_scope.md R16). -/
structure NumFormat (ν : Type) where
  /-- `NUM_W`. -/
  width : Nat
  toBits : ν → BitVec width
  ofBits : BitVec width → ν

/-- A number that the format holds: its bits are read back as itself. -/
def holdsExactly {ν : Type} (f : NumFormat ν) (q : ν) : Prop := f.ofBits (f.toBits q) = q

/-- `NW = ceil(NUM_W / 32)`, the words of a number (30_encoding.md R81). -/
def numWords {ν : Type} (f : NumFormat ν) : Nat := (f.width + 31) / 32

/-- The `NW` words of a number, least significant word first (30_encoding.md R81). The bits of the last
word above `NUM_W` are 0 (log 10). -/
def packNumber {ν : Type} (f : NumFormat ν) (q : ν) : List Word :=
  (List.range (numWords f)).map fun k => (f.toBits q).extractLsb' (32 * k) 32

/-- The number that words stand for, least significant word first (30_encoding.md R81). -/
def wordsValue : List Word → Nat
  | [] => 0
  | w :: ws => w.toNat + 2 ^ 32 * wordsValue ws

/-- The number read from its words; bits at and above `NUM_W` are ignored (30_encoding.md R81; log 10). -/
def unpackNumber {ν : Type} (f : NumFormat ν) (ws : List Word) : ν := f.ofBits (BitVec.ofNat f.width (wordsValue ws))

/-- `byte_order` as a bit: 0 = LE, 1 = BE (30_encoding.md R81). -/
def orderBit : ByteOrder → BitVec 1
  | .le => 0#1
  | .be => 1#1

/-- The word IH: `[8:0]` nmsg, `[31:9]` zero (30_encoding.md R81). -/
def packIH (nmsg : Nat) : Word := 0#23 ++ BitVec.ofNat 9 nmsg

/-- The word MH2: `[3:0]` dlc, `[10:4]` nsig, `[31:11]` zero (30_encoding.md R81). -/
def packMH2 (dlc nsig : Nat) : Word := 0#21 ++ BitVec.ofNat 7 nsig ++ BitVec.ofNat 4 dlc

/-- The word SG0: `[5:0]` start_bit, `[7:6]` zero, `[14:8]` bit_length, `[15]` zero, `[16]` byte_order,
`[17]` is_signed, `[31:18]` zero (30_encoding.md R81). -/
def packSG0 {ν : Type} (sig : Signal ν) : Word :=
  0#14 ++ BitVec.ofBool sig.isSigned ++ orderBit sig.byteOrder ++ 0#1 ++ BitVec.ofNat 7 sig.bitLength.val ++
    0#2 ++ BitVec.ofNat 6 sig.startBit.val

/-- A reserved bit of IH is set (41_table_build.md R136). -/
def reservedIH (w : Word) : Bool := w.extractLsb' 9 23 != 0#23

/-- A reserved bit of MH2 is set (41_table_build.md R136). -/
def reservedMH2 (w : Word) : Bool := w.extractLsb' 11 21 != 0#21

/-- A reserved bit of SG0 is set (41_table_build.md R136). -/
def reservedSG0 (w : Word) : Bool :=
  w.extractLsb' 6 2 != 0#2 || w.getLsbD 15 || w.extractLsb' 18 14 != 0#14

/-- The words of a signal: SG0, then scale, offset, min_value and max_value (30_encoding.md R81). -/
def packSignal {ν : Type} (f : NumFormat ν) (sig : Signal ν) : List Word :=
  packSG0 sig ::
    (packNumber f sig.scale ++ packNumber f sig.offset ++ packNumber f sig.minValue ++ packNumber f sig.maxValue)

/-- The words of a message: MH0, MH1, MH2, then its signals in index order (30_encoding.md R81). -/
def packMessage {ν : Type} (f : NumFormat ν) (msg : RawMessage ν) : List Word :=
  msg.messageId :: msg.idMask :: packMH2 msg.dlc.val msg.sig.length ::
    (msg.sig.map fun sig => packSignal f sig.record).flatten

/-- The packed image, every reserved bit zero (30_encoding.md R81). -/
def packImage {ν : Type} (f : NumFormat ν) (img : Image ν) : List Word :=
  packIH img.msgs.length :: (img.msgs.map (packMessage f)).flatten

/-- The Signal record of a word SG0 and its four numbers (30_encoding.md R81). -/
def unpackSG0 {ν : Type} (w : Word) (scale offset minValue maxValue : ν) : RawSignal ν :=
  { record :=
      { startBit := (w.extractLsb' 0 6).toFin
        bitLength := (w.extractLsb' 8 7).toFin
        byteOrder := if w.getLsbD 16 then .be else .le
        isSigned := w.getLsbD 17
        scale := scale, offset := offset, minValue := minValue, maxValue := maxValue }
    reserved := reservedSG0 w }

/-- Number `k` of the four that follow a word SG0 (30_encoding.md R81). -/
def numberAt {ν : Type} (f : NumFormat ν) (ws : List Word) (k : Nat) : ν :=
  unpackNumber f ((ws.drop (k * numWords f)).take (numWords f))

/-- One signal read from the front of the words; none where they run out. -/
def unpackSignal {ν : Type} (f : NumFormat ν) : List Word → Option (RawSignal ν × List Word)
  | [] => none
  | w :: ws =>
    if ws.length < 4 * numWords f then none
    else
      some (unpackSG0 w (numberAt f ws 0) (numberAt f ws 1) (numberAt f ws 2) (numberAt f ws 3),
        ws.drop (4 * numWords f))

/-- `n` signals read from the front of the words. -/
def unpackSignals {ν : Type} (f : NumFormat ν) : Nat → List Word → Option (List (RawSignal ν) × List Word)
  | 0, ws => some ([], ws)
  | n + 1, ws =>
    match unpackSignal f ws with
    | none => none
    | some (sig, rest) =>
      match unpackSignals f n rest with
      | none => none
      | some (sigs, rest') => some (sig :: sigs, rest')

/-- One message read from the front of the words (30_encoding.md R81). -/
def unpackMessage {ν : Type} (f : NumFormat ν) : List Word → Option (RawMessage ν × List Word)
  | mh0 :: mh1 :: mh2 :: ws =>
    match unpackSignals f (mh2.extractLsb' 4 7).toNat ws with
    | none => none
    | some (sigs, rest) =>
      some ({ messageId := mh0, idMask := mh1, dlc := (mh2.extractLsb' 0 4).toFin, sig := sigs
              reserved := reservedMH2 mh2 }, rest)
  | _ => none

/-- `n` messages read from the front of the words. -/
def unpackMessages {ν : Type} (f : NumFormat ν) : Nat → List Word → Option (List (RawMessage ν) × List Word)
  | 0, ws => some ([], ws)
  | n + 1, ws =>
    match unpackMessage f ws with
    | none => none
    | some (msg, rest) =>
      match unpackMessages f n rest with
      | none => none
      | some (msgs, rest') => some (msg :: msgs, rest')

/-- The image that a sequence of words packs: its length "follows from `nmsg` and each `nsig`"
(30_encoding.md R81, R85); none where the sequence is shorter or longer than that (log 10). -/
def unpackImage {ν : Type} (f : NumFormat ν) : List Word → Option (Image ν)
  | [] => none
  | ih :: ws =>
    match unpackMessages f (ih.extractLsb' 0 9).toNat ws with
    | some (msgs, []) => some { msgs := msgs, reserved := reservedIH ih }
    | _ => none

end Sys2Proof.Machine
end

