-- ==== Sys2Proof/Safety.lean ====
section
/-! DEFINITION. The terms in which claims about the block are made: a valid table and the state invariant (41_table_build.md R132, 10_state.md R35), installed records, held state, what each operation reads, sets and may answer (30_encoding.md R75, 60_exceptions.md R170), the fired lines of a validation (41_table_build.md R136), and the whole-word views of a payload (20_memory.md R47). -/

namespace Sys2Proof.Machine

open Sys2Proof

/-- The two signals' intervals of positions are disjoint (20_memory.md R49). -/
def intervalsDisjoint {ν : Type} (a b : Signal ν) : Prop :=
  ∀ p : Nat, ¬ (sigStart a ≤ p ∧ p < sigStart a + sigLen a ∧ sigStart b ≤ p ∧ p < sigStart b + sigLen b)

/-- The two signals' sets of physical cells are disjoint (20_memory.md R49). -/
def cellsDisjoint {ν : Type} (a b : Signal ν) : Prop := ∀ c ∈ cells a, c ∉ cells b

/-- A signal record of a message with the given `dlc` is valid: 41_table_build.md R132, item 3. -/
def signalValid {ν : Type} (N : NumType ν) (dlc : Nat) (sig : Signal ν) : Prop :=
  1 ≤ sigLen sig ∧ sigLen sig ≤ 64 ∧ sigStart sig + sigLen sig ≤ dlc * 8 ∧
    isZero N sig.scale = false ∧ N.le sig.minValue sig.maxValue = true

/-- A message record is valid: 41_table_build.md R132, items 2, 3 and 4. -/
def messageValid {ν : Type} (N : NumType ν) (msg : Message ν) : Prop :=
  msg.dlc.val ≤ 8 ∧ msg.sig.length ≤ 64 ∧ (∀ sig ∈ msg.sig, signalValid N msg.dlc.val sig) ∧
    msg.sig.Pairwise fun a b => intervalsDisjoint a b ∧ cellsDisjoint a b

/-- A sequence of message records is a valid table: 41_table_build.md R132, items 1 to 5. -/
def tableValid {ν : Type} (N : NumType ν) (p : Params) (table : List (Message ν)) : Prop :=
  table.length ≤ p.nMsgMax.val ∧ (∀ msg ∈ table, messageValid N msg) ∧
    table.Pairwise fun a b => a.messageId &&& a.idMask ≠ b.messageId &&& b.idMask

/-- No reserved bit of the image is set: 41_table_build.md R132, item 1. -/
def noReservedBit {ν : Type} (img : Image ν) : Prop :=
  img.reserved = false ∧ ∀ msg ∈ img.msgs, msg.reserved = false ∧ ∀ sig ∈ msg.sig, sig.reserved = false

/-- `valid(img)` as the five conditions of 41_table_build.md R132. -/
def imageValid {ν : Type} (N : NumType ν) (p : Params) (img : Image ν) : Prop :=
  noReservedBit img ∧ tableValid N p (installedRecords img)

/-- The state invariant (10_state.md R35), with what holds in phase UNBUILT (R36, 60_exceptions.md
R182) and NMSG as the derived count of TABLE (10_state.md R24), for every number type. -/
def Held.Inv {ν : Type} (N : NumType ν) (p : Params) (h : Held ν) : Prop :=
  (h.tvalid = true → h.nmsg.toNat = h.table.length ∧ tableValid N p h.table) ∧
    (h.tvalid = false → h.nmsg = 0#9 ∧ h.table = [])

/-- The state invariant of the machine, whose number type is the default. -/
abbrev State.Inv (s : State) : Prop := Held.Inv rational s.params s.toHeld

/-- `TABLE[m]` is an installed record of an OPERATIONAL block (10_state.md R32). -/
abbrev Installed (s : State) (m : Nat) (msg : Message) : Prop :=
  s.tvalid = true ∧ m < s.nmsg.toNat ∧ s.table[m]? = some msg

/-- `TABLE[m].sig[k]` is an installed record of an OPERATIONAL block (10_state.md R32). -/
abbrev InstalledSignal (s : State) (m k : Nat) (sig : Signal) : Prop :=
  s.tvalid = true ∧ m < s.nmsg.toNat ∧ (s.table[m]?.bind fun msg => msg.sig[k]?) = some sig

/-- The three pieces of held state, and the parameters, are the same (10_state.md R20). -/
abbrev SameHeld (s t : State) : Prop :=
  t.params = s.params ∧ t.tvalid = s.tvalid ∧ t.nmsg = s.nmsg ∧ t.table = s.table

/-- The message index an operation uses (30_encoding.md R72). -/
def usesM : Instr → Option (BitVec 8)
  | .build => none
  | .find => none
  | .dec m _ => some m
  | .enc _ m _ => some m
  | .decall m => some m
  | .encall _ m => some m
  | .rxf => none
  | .txf _ m => some m
  | .stat => none
  | .getm m => some m
  | .gets m _ => some m

/-- The signal index an operation uses (30_encoding.md R72). -/
def usesS : Instr → Option (BitVec 6)
  | .build => none
  | .find => none
  | .dec _ k => some k
  | .enc _ _ k => some k
  | .decall _ => none
  | .encall _ _ => none
  | .rxf => none
  | .txf _ _ => none
  | .stat => none
  | .getm _ => none
  | .gets _ k => some k

/-- The operation reads `len` (60_exceptions.md R173). -/
def readsLen : Instr → Bool
  | .build => false
  | .find => false
  | .dec _ _ => true
  | .enc _ _ _ => false
  | .decall _ => true
  | .encall _ _ => false
  | .rxf => true
  | .txf _ _ => false
  | .stat => false
  | .getm _ => false
  | .gets _ _ => false

/-- The indices an operation uses name installed records: neither half of BAD_INDEX holds
(60_exceptions.md R173). -/
def indicesGood (i : Instr) (s : State) : Prop :=
  (∀ m, usesM i = some m → ∃ msg, Installed s m.toNat msg ∧ ∀ k, usesS i = some k → k.toNat < msg.sig.length)

/-- The statuses each operation can answer (the column "raised by" of 60_exceptions.md R170). -/
def statusesOf : Instr → List Status
  | .build => [.ok, .tableInvalid, .locked]
  | .find => [.ok, .notFound, .noTable]
  | .dec _ _ => [.ok, .payloadTooShort, .noTable, .badIndex, .badLength]
  | .enc .clamp _ _ => [.ok, .noTable, .badIndex]
  | .enc .reject _ _ => [.ok, .valueOutOfRange, .noTable, .badIndex]
  | .decall _ => [.ok, .payloadTooShort, .noTable, .badIndex, .badLength]
  | .encall .clamp _ => [.ok, .noTable, .badIndex]
  | .encall .reject _ => [.ok, .valueOutOfRange, .noTable, .badIndex]
  | .rxf => [.ok, .notFound, .payloadTooShort, .noTable, .badLength]
  | .txf .clamp _ => [.ok, .noTable, .badIndex]
  | .txf .reject _ => [.ok, .valueOutOfRange, .noTable, .badIndex]
  | .stat => [.ok]
  | .getm _ => [.ok, .noTable, .badIndex]
  | .gets _ _ => [.ok, .noTable, .badIndex]

/-- The part of a response that the operation can set in an OK response, every other field zero (30_encoding.md
R75, 10_state.md R28). -/
def settable {ν : Type} (N : NumType ν) (i : Instr) (x : Response ν) : Response ν :=
  match i with
  | .build => okResponse N
  | .find => { okResponse N with m := x.m }
  | .dec _ _ => { okResponse N with v := x.v, fl := { noFlags with oor := x.fl.oor } }
  | .enc _ _ _ =>
    { okResponse N with pay := x.pay, fl := { noFlags with clamped := x.fl.clamped, rovf := x.fl.rovf } }
  | .decall _ => { okResponse N with vals := x.vals, vfl := x.vfl.map fun fl => { noFlags with oor := fl.oor } }
  | .encall _ _ =>
    { okResponse N with
      pay := x.pay, len := x.len
      vfl := x.vfl.map fun fl => { noFlags with clamped := fl.clamped, rovf := fl.rovf } }
  | .rxf =>
    { okResponse N with m := x.m, vals := x.vals, vfl := x.vfl.map fun fl => { noFlags with oor := fl.oor } }
  | .txf _ _ =>
    { okResponse N with
      id := x.id, pay := x.pay, len := x.len
      vfl := x.vfl.map fun fl => { noFlags with clamped := fl.clamped, rovf := fl.rovf } }
  | .stat => { okResponse N with tvalid := x.tvalid, nmsg := x.nmsg }
  | .getm _ => { okResponse N with msg := x.msg }
  | .gets _ _ => { okResponse N with sig := x.sig }

/-- Two payloads agree on the bytes below `n`. -/
def samePayBelow (n : Nat) (p q : Payload) : Prop := ∀ b : Nat, b < n → p[b]? = q[b]?

/-- Two requests agree on every field that the operation reads (30_encoding.md R75), `cmd` apart. -/
def sameRead (i : Instr) (s : State) (r q : Request) : Prop :=
  match i with
  | .build => r.img = q.img
  | .find => r.id = q.id
  | .dec m k => r.len = q.len ∧ ∀ sig, InstalledSignal s m.toNat k.toNat sig → samePayBelow (need sig) r.pay q.pay
  | .enc _ _ _ => r.v = q.v ∧ r.pay = q.pay
  | .decall _ => r.len = q.len ∧ samePayBelow r.len.toNat r.pay q.pay
  | .encall _ m =>
    ∀ msg, Installed s m.toNat msg → ∀ j : Nat, j < msg.sig.length → r.vals[j]? = q.vals[j]?
  | .rxf => r.id = q.id ∧ r.len = q.len ∧ samePayBelow r.len.toNat r.pay q.pay
  | .txf _ m =>
    ∀ msg, Installed s m.toNat msg → ∀ j : Nat, j < msg.sig.length → r.vals[j]? = q.vals[j]?
  | .stat => True
  | .getm _ => True
  | .gets _ _ => True

/-- A list with one element where the condition holds, and none elsewhere. -/
def lineIf {α : Type} (c : Prop) [Decidable c] (v : α) : List α := if c then [v] else []

/-- The lines of the signal checks of 41_table_build.md R136 that fire for signal `s` of message `m`, in order. -/
def signalLines {ν : Type} (N : NumType ν) (m s dlc : Nat) (sig : RawSignal ν) : List Violation :=
  lineIf (sigLen sig.record = 0 ∨ 64 < sigLen sig.record ∨ sig.reserved = true) ⟨.range, m, s, 0⟩ ++
  lineIf (dlc * 8 < sigStart sig.record + sigLen sig.record) ⟨.placement, m, s, 0⟩ ++
  lineIf (isZero N sig.record.scale) ⟨.scale, m, s, 0⟩ ++
  lineIf (N.lt sig.record.maxValue sig.record.minValue) ⟨.minMax, m, s, 0⟩

/-- The pairs `i < j` of indices into a list, `i` outermost and ascending, whose elements are bad together. -/
def badPairs {α : Type} (bad : α → α → Bool) (xs : List α) : List (Nat × Nat) :=
  (List.range xs.length).flatMap fun i =>
    (List.range xs.length).flatMap fun j =>
      match xs[i]?, xs[j]? with
      | some a, some b => lineIf (i < j ∧ bad a b = true) (i, j)
      | _, _ => []

/-- The lines of 41_table_build.md R136 that fire for message `m`, in order. -/
def messageLines {ν : Type} (N : NumType ν) (m : Nat) (msg : RawMessage ν) : List Violation :=
  lineIf (8 < msg.dlc.val ∨ 64 < msg.sig.length ∨ msg.reserved = true) ⟨.range, m, 0, 0⟩ ++
  (msg.sig.zipIdx.flatMap fun x => signalLines N m x.2 msg.dlc.val x.1) ++
  (badPairs overlap msg.sig).map fun ij => ⟨.overlap, m, ij.1, ij.2⟩

/-- Every line of `first_violation(img)` that fires, in the order of 41_table_build.md R136. -/
def firedLines {ν : Type} (N : NumType ν) (p : Params) (img : Image ν) : List Violation :=
  lineIf (img.reserved = true) ⟨.range, 0, 0, 0⟩ ++
  lineIf (p.nMsgMax.val < img.msgs.length) ⟨.capacity, 0, 0, 0⟩ ++
  (img.msgs.zipIdx.flatMap fun x => messageLines N x.2 x.1) ++
  (badPairs idsCollide img.msgs).map fun ij => ⟨.idCollision, ij.1, 0, ij.2⟩

/-- `W`: the buffer as a 64-bit little-endian number (20_memory.md R47). -/
def leWord (pay : Payload) : BitVec 64 :=
  pay[7] ++ pay[6] ++ pay[5] ++ pay[4] ++ pay[3] ++ pay[2] ++ pay[1] ++ pay[0]

/-- `B`: the buffer as a 64-bit big-endian number (20_memory.md R47). -/
def beWord (pay : Payload) : BitVec 64 :=
  pay[0] ++ pay[1] ++ pay[2] ++ pay[3] ++ pay[4] ++ pay[5] ++ pay[6] ++ pay[7]

/-- The field lies inside the 64 positions of a payload: the precondition of 20_memory.md R45 and R60. -/
abbrev fieldInside {ν : Type} (sig : Signal ν) : Prop := sigStart sig + sigLen sig ≤ 64

/-- The events hold no reset. -/
def noReset (events : List Event) : Prop := Event.reset ∉ events

/-- Every number of the image is one the format holds exactly. -/
def imageHeldExactly {ν : Type} (f : NumFormat ν) (img : Image ν) : Prop :=
  ∀ msg ∈ img.msgs, ∀ sig ∈ msg.sig,
    holdsExactly f sig.record.scale ∧ holdsExactly f sig.record.offset ∧
      holdsExactly f sig.record.minValue ∧ holdsExactly f sig.record.maxValue

end Sys2Proof.Machine
end

