-- ==== Sys2Proof/Certificates/Slice0/Obligations.lean ====
section
/-! DEFINITION. The statements for the provers, one `def Obligations.<Name> : Prop` each. The docstring of each says which rule of the specification it formalises. -/

open Sys2Proof Sys2Proof.Machine

/-! ## Encoding -/

/-- 30_encoding.md R72: each operation with given operands has exactly one command word. A word decodes
to an operation exactly when it is the operation's encoding. -/
def Obligations.EveryOperationHasExactlyOneCommandWord : Prop :=
  ∀ (w : Word) (i : Instr), decode w = .ok i ↔ encode i = w

/-- 30_encoding.md R72: the decoder accepts exactly the words that select a row of the operation map, and
a word it accepts selects the row of the operation it reads and no other. -/
def Obligations.DecoderAcceptsExactlyTheOperationMap : Prop :=
  ∀ w : Word,
    (∀ i, decode w = .ok i → ∀ row ∈ operationMap, (row.selects w = true ↔ row.mnemonic = i.mnemonic)) ∧
    ((∃ i, decode w = .ok i) ↔ ∃ row ∈ operationMap, row.selects w = true)

/-- 30_encoding.md R73: the illegal words, condition by condition, and what a step answers to one: status
ILLEGAL_CMD, every other field zero, no state changed, before every other check. -/
def Obligations.IllegalCommandWordsAnswerIllegalCmd : Prop :=
  ∀ (s : State) (r : Request) (rest : List Event), s.pending = .request r :: rest →
    (r.cmd >>> 28 = 0x0#32 ∨ r.cmd >>> 28 = 0xC#32 ∨ r.cmd >>> 28 = 0xD#32 ∨ r.cmd >>> 28 = 0xE#32 ∨
      r.cmd >>> 28 = 0xF#32 ∨
      r.cmd &&& 0x07FF00C0#32 ≠ 0#32 ∨
      (r.cmd &&& 0x08000000#32 ≠ 0#32 ∧ r.cmd >>> 28 ≠ 0x4#32 ∧ r.cmd >>> 28 ≠ 0x6#32 ∧ r.cmd >>> 28 ≠ 0x8#32) ∨
      (r.cmd &&& 0x0000FF00#32 ≠ 0#32 ∧
        (r.cmd >>> 28 = 0x1#32 ∨ r.cmd >>> 28 = 0x2#32 ∨ r.cmd >>> 28 = 0x7#32 ∨ r.cmd >>> 28 = 0x9#32)) ∨
      (r.cmd &&& 0x0000003F#32 ≠ 0#32 ∧ r.cmd >>> 28 ≠ 0x3#32 ∧ r.cmd >>> 28 ≠ 0x4#32 ∧ r.cmd >>> 28 ≠ 0xB#32)) →
    step s = .next { s with pending := rest, rsp := some { okResponse rational with st := .illegalCmd } }

/-- Command words of 95_test_vectors.md (P1, P2, P3, P4), written out from 30_encoding.md R70 and R72,
decode to the operations that section lists. A sanity statement. -/
def Obligations.ListedCommandWordsDecode : Prop :=
  decode 0x10000000#32 = .ok .build ∧ decode 0x20000000#32 = .ok .find ∧
  decode 0x30000103#32 = .ok (.dec 1#8 3#6) ∧ decode 0x48000201#32 = .ok (.enc .reject 2#8 1#6) ∧
  decode 0x50000200#32 = .ok (.decall 2#8) ∧ decode 0x60000200#32 = .ok (.encall .clamp 2#8) ∧
  decode 0x70000000#32 = .ok .rxf ∧ decode 0x88000300#32 = .ok (.txf .reject 3#8) ∧
  decode 0x90000000#32 = .ok .stat ∧ decode 0xA0000000#32 = .ok (.getm 0#8) ∧
  decode 0xB0000001#32 = .ok (.gets 0#8 1#6) ∧ decode 0x30010000#32 = .error .reservedBits

/-- 30_encoding.md R81: the packed image, for every number type and width: unpacking the packing of an abstract
image gives the image back. -/
def Obligations.PackedImageReadsBack : Prop :=
  ∀ (ν : Type) (f : NumFormat ν) (img : Image ν), img.wellFormed = true → noReservedBit img → imageHeldExactly f img →
    unpackImage f (packImage f img) = some img

/-- 30_encoding.md R81: a set bit in any field marked zero makes a packed image invalid with sub-cause
V_RANGE at the message it belongs to: in IH at message 0; in the MH2 of message `m` when no line of
41_table_build.md R136 fires for an earlier message; in the SG0 of its signal `k` (bits 7:6, 15 and 31:18)
when none fires for an earlier signal either. For every number type and width. -/
def Obligations.PackedReservedBitsAreRefused : Prop :=
  ∀ (ν : Type) (N : NumType ν) (f : NumFormat ν) (p : Params) (ih : Word) (ws : List Word) (img : Image ν),
    unpackImage f (ih :: ws) = some img →
    (ih >>> 9 ≠ 0#32 → firstViolation N p img = some ⟨.range, 0, 0, 0⟩) ∧
    ∀ (m : Nat) (msgs : List (RawMessage ν)) (mh0 mh1 mh2 : Word) (post : List Word),
      ih >>> 9 = 0#32 → (ih &&& 0x1FF#32).toNat ≤ p.nMsgMax.val → m < (ih &&& 0x1FF#32).toNat →
      unpackMessages f m ws = some (msgs, mh0 :: mh1 :: mh2 :: post) →
      (∀ (j : Nat) (msg : RawMessage ν), msgs[j]? = some msg → messageLines N j msg = []) →
      (mh2 >>> 11 ≠ 0#32 → firstViolation N p img = some ⟨.range, m, 0, 0⟩) ∧
      ∀ (k : Nat) (sigs : List (RawSignal ν)) (sg0 : Word) (post' : List Word),
        mh2 >>> 11 = 0#32 → (mh2 &&& 0xF#32).toNat ≤ 8 → ((mh2 >>> 4) &&& 0x7F#32).toNat ≤ 64 →
        k < ((mh2 >>> 4) &&& 0x7F#32).toNat → unpackSignals f k post = some (sigs, sg0 :: post') →
        (∀ (j : Nat) (sig : RawSignal ν), sigs[j]? = some sig →
          signalLines N m j (mh2 &&& 0xF#32).toNat sig = []) →
        sg0 &&& 0xFFFC80C0#32 ≠ 0#32 → firstViolation N p img = some ⟨.range, m, k, 0⟩

/-- 30_encoding.md R87: the pseudo-operations issue exactly the request of their expansion. -/
def Obligations.PseudoOperationsExpand : Prop :=
  ∀ (ν : Type) (N : NumType ν),
    (∀ m k v pay, asmRequest N (.enc none m k v pay) = asmRequest N (.enc (some .clamp) m k v pay)) ∧
    (∀ m vals, asmRequest N (.encall none m vals) = asmRequest N (.encall (some .clamp) m vals)) ∧
    (∀ m vals, asmRequest N (.txf none m vals) = asmRequest N (.txf (some .clamp) m vals)) ∧
    (∀ m k v, asmRequest N (.zenc m k v) =
      asmRequest N (.enc (some .clamp) m k v [0#8, 0#8, 0#8, 0#8, 0#8, 0#8, 0#8, 0#8])) ∧
    asmRequest N .count = asmRequest N .stat ∧
    (∀ id, asmRequest N (.matchId id) = asmRequest N (.find id))

/-! ## The step, reset and the phases -/

/-- 10_state.md R26, 60_exceptions.md R181: a step runs the decoded operation, and nothing around it. -/
def Obligations.StepRunsTheDecodedOperation : Prop :=
  ∀ (s : State) (r : Request) (rest : List Event) (i : Instr),
    s.pending = .request r :: rest → decode r.cmd = .ok i → step s = exec i s

/-- 10_state.md R36: after reset TVALID = 0, NMSG = 0, TABLE is empty. -/
def Obligations.ResetLeavesNoTable : Prop :=
  State.reset.tvalid = false ∧ State.reset.nmsg = 0#9 ∧ State.reset.table = []

/-- 70_reset_and_hazards.md R200: a reset event sets the three pieces of held state, and it is the only
way from phase OPERATIONAL back to UNBUILT. The kept parameters and the missing response are the
model's choice (log 6). -/
def Obligations.ResetEventIsTheOnlyWayBackToUnbuilt : Prop :=
  (∀ (s : State) (rest : List Event), s.pending = .reset :: rest →
    step s = .next { s with tvalid := false, nmsg := 0#9, table := [], pending := rest, rsp := none }) ∧
  (∀ s t : State, step s = .next t → s.tvalid = true → t.tvalid = false →
    ∃ rest, s.pending = .reset :: rest)

/-- 60_exceptions.md R182, 20_memory.md R57: UNBUILT is left only by a BUILD that answers OK, and while
OPERATIONAL no step but a reset changes TABLE or NMSG. -/
def Obligations.OnlyASuccessfulBuildLeavesUnbuilt : Prop :=
  (∀ s t : State, step s = .next t → s.tvalid = false → t.tvalid = true →
    ∃ r rest, s.pending = .request r :: rest ∧ decode r.cmd = .ok .build ∧ t.rsp = some (okResponse rational)) ∧
  (∀ s t : State, step s = .next t → s.tvalid = true → t.tvalid = true →
    t.table = s.table ∧ t.nmsg = s.nmsg)

/-- The invariant of 10_state.md R35 holds at reset, and of the held state that reset leaves for every number
type. -/
def Obligations.ResetMeetsTheStateInvariant : Prop :=
  State.Inv State.reset ∧ ∀ (ν : Type) (N : NumType ν) (p : Params), Held.Inv N p (Held.reset : Held ν)

/-- 10_state.md R35: whenever TVALID = 1 the installed table is valid. Every step keeps it, from every
state that meets it; and for every number type with a total order (00_scope.md R16) every request to the
block keeps it. -/
def Obligations.EveryStepKeepsTheStateInvariant : Prop :=
  (∀ s t : State, State.Inv s → step s = .next t → State.Inv t) ∧
  ∀ (ν : Type) (N : NumType ν) (p : Params) (h : Held ν) (r : Request ν), N.Ordered → Held.Inv N p h →
    Held.Inv N p (respond N p h r).1

/-- 93_implementation_defined.md, section 1: every request in every state has exactly one response and one
next state. No step stops, the parameters stay, and an event that stands first is consumed. The clauses
hold of every state: that a step with no event changes nothing is the model's choice (log 5), and that a
reset consumes its own event alone and keeps the parameters is too (log 6). -/
def Obligations.EveryStepAnswersANextState : Prop :=
  ∀ s : State, ∃ t : State, step s = .next t ∧ t.params = s.params ∧ t.pending = s.pending.tail

/-- 70_reset_and_hazards.md R209: every issued operation is answered. As many steps as events stand at
the interface serve all of them, and each request gets, when its turn comes, the response that the block
gives it in the held state it then finds. That a request behind a reset is still served is the model's
choice (log 6). -/
def Obligations.EveryIssuedOperationIsAnswered : Prop :=
  ∀ s : State,
    (∃ t : State, Host.Core.run Sys2Proof.core s.pending.length s = .next t ∧ t.pending = []) ∧
    ∀ (pre rest : List Event) (r : Request), s.pending = pre ++ .request r :: rest →
      ∃ u t : State, Host.Core.run Sys2Proof.core pre.length s = .next u ∧ u.pending = .request r :: rest ∧
        Host.Core.run Sys2Proof.core (pre.length + 1) s = .next t ∧ t.pending = rest ∧
        t.rsp = some (respond rational s.params u.toHeld r).2

/-- With no event pending a step changes nothing: the model's choice (log 5). -/
def Obligations.IdleStepChangesNothing : Prop :=
  ∀ s : State, s.pending = [] → step s = .next s

/-- 10_state.md R20, 20_memory.md R51: an operation other than BUILD writes no held state. This is the
frame of the ten operations: the parameters, TVALID, NMSG and TABLE stay, the request is consumed and a
response given. -/
def Obligations.OperationsOtherThanBuildWriteNoHeldState : Prop :=
  ∀ (i : Instr) (s : State) (r : Request) (rest : List Event), i ≠ .build → s.pending = .request r :: rest →
    ∃ x : Response, exec i s = .next { s with pending := rest, rsp := some x }

/-- 20_memory.md R54: the order of service does not show. In phase OPERATIONAL, with no reset among the
operations served first, a request gets the response it would get if it were served at once. The order
of service is the list `pending` (log 1). -/
def Obligations.ServiceOrderDoesNotShowInResponses : Prop :=
  ∀ (s t u : State) (pre rest : List Event) (r : Request), s.tvalid = true → noReset pre →
    s.pending = pre ++ .request r :: rest →
    Host.Core.run Sys2Proof.core (pre.length + 1) s = .next t →
    step { s with pending := [.request r] } = .next u → t.rsp = u.rsp ∧ SameHeld s t

/-! ## Interface conditions and error results -/

/-- 60_exceptions.md R173, in the order of R174: NO_TABLE, LOCKED, BAD_INDEX (M, then S) and BAD_LENGTH, each
with its status, nothing else delivered, and no held state written. -/
def Obligations.InterfaceConditionsAnswerTheirStatus : Prop :=
  ∀ (i : Instr) (s : State) (r : Request) (rest : List Event), s.pending = .request r :: rest →
    (s.tvalid = false → i ≠ .build → i ≠ .stat →
      exec i s = .next { s with pending := rest, rsp := some { okResponse rational with st := .noTable } }) ∧
    (s.tvalid = true → i = .build →
      exec i s = .next { s with pending := rest, rsp := some { okResponse rational with st := .locked } }) ∧
    (∀ m, s.tvalid = true → usesM i = some m → s.nmsg.toNat ≤ m.toNat →
      exec i s = .next { s with pending := rest, rsp := some { okResponse rational with st := .badIndex } }) ∧
    (∀ m k msg, usesM i = some m → usesS i = some k → Installed s m.toNat msg → msg.sig.length ≤ k.toNat →
      exec i s = .next { s with pending := rest, rsp := some { okResponse rational with st := .badIndex } }) ∧
    (s.tvalid = true → readsLen i = true → indicesGood i s → 8 < r.len.toNat →
      exec i s = .next { s with pending := rest, rsp := some { okResponse rational with st := .badLength } })

/-- 40_signal_codec.md R102, R103, R108 and 43_frame_dispatch.md R161: a frame shorter than a signal's byte
span is refused with PAYLOAD_TOO_SHORT, the message and the (least) failing signal named. -/
def Obligations.TruncatedFramesAnswerPayloadTooShort : Prop :=
  ∀ (s : State) (r : Request) (rest : List Event), s.pending = .request r :: rest → r.len.toNat ≤ 8 →
    (∀ (m : BitVec 8) (k : BitVec 6) (sig : Signal), InstalledSignal s m.toNat k.toNat sig →
      8 * r.len.toNat < sigStart sig + sigLen sig →
      exec (.dec m k) s =
        .next { s with pending := rest, rsp := some { okResponse rational with st := .payloadTooShort, m := m, s := k } }) ∧
    (∀ (m : BitVec 8) (k : BitVec 6) (msg : Message) (sig : Signal), Installed s m.toNat msg →
      msg.sig[k.toNat]? = some sig → 8 * r.len.toNat < sigStart sig + sigLen sig →
      (∀ j < k.toNat, ∀ sig', msg.sig[j]? = some sig' → sigStart sig' + sigLen sig' ≤ 8 * r.len.toNat) →
      exec (.decall m) s =
        .next { s with pending := rest, rsp := some { okResponse rational with st := .payloadTooShort, m := m, s := k } }) ∧
    (∀ (m : BitVec 8) (k : BitVec 6) (msg : Message) (sig : Signal), Installed s m.toNat msg →
      r.id &&& msg.idMask = msg.messageId &&& msg.idMask →
      (∀ j < m.toNat, ∀ msg', s.table[j]? = some msg' → r.id &&& msg'.idMask ≠ msg'.messageId &&& msg'.idMask) →
      msg.sig[k.toNat]? = some sig → 8 * r.len.toNat < sigStart sig + sigLen sig →
      (∀ j < k.toNat, ∀ sig', msg.sig[j]? = some sig' → sigStart sig' + sigLen sig' ≤ 8 * r.len.toNat) →
      exec .rxf s =
        .next { s with pending := rest, rsp := some { okResponse rational with st := .payloadTooShort, m := m, s := k } })

/-- 40_signal_codec.md R104, R106, R110 and 43_frame_dispatch.md R165: under POL = 1 a value outside
`[min_value, max_value]` is refused with VALUE_OUT_OF_RANGE, the message and the (least) failing signal
named, and no payload is delivered. -/
def Obligations.RejectedValuesAnswerValueOutOfRange : Prop :=
  ∀ (s : State) (r : Request) (rest : List Event) (m : BitVec 8) (k : BitVec 6) (sig : Signal),
    s.pending = .request r :: rest → InstalledSignal s m.toNat k.toNat sig →
    (r.v < sig.minValue ∨ sig.maxValue < r.v →
      exec (.enc .reject m k) s =
        .next { s with pending := rest, rsp := some { okResponse rational with st := .valueOutOfRange, m := m, s := k } }) ∧
    (∀ v, r.vals[k.toNat]? = some v → v < sig.minValue ∨ sig.maxValue < v →
      (∀ j < k.toNat, ∀ sig' v', InstalledSignal s m.toNat j sig' → r.vals[j]? = some v' →
        sig'.minValue ≤ v' ∧ v' ≤ sig'.maxValue) →
      exec (.encall .reject m) s =
        .next { s with pending := rest, rsp := some { okResponse rational with st := .valueOutOfRange, m := m, s := k } } ∧
      exec (.txf .reject m) s =
        .next { s with pending := rest, rsp := some { okResponse rational with st := .valueOutOfRange, m := m, s := k } })

/-- 60_exceptions.md R171: a response that is not OK carries its status, and for the statuses listed there the
sub-cause and indices; every other field is zero. -/
def Obligations.ErrorResultsDeliverNothingElse : Prop :=
  ∀ (i : Instr) (s t : State) (r : Request) (rest : List Event) (x : Response),
    s.pending = .request r :: rest → exec i s = .next t → t.rsp = some x → x.st ≠ .ok →
    x = { okResponse rational with st := x.st, sub := x.sub, m := x.m, s := x.s, aux := x.aux } ∧
    (x.sub ≠ none ↔ x.st = .tableInvalid) ∧
    (x.st ≠ .tableInvalid → x.aux = 0#8) ∧
    (x.st ≠ .tableInvalid → x.st ≠ .payloadTooShort → x.st ≠ .valueOutOfRange → x.m = 0#8 ∧ x.s = 0#6)

/-- 60_exceptions.md R170: the codes of the ten statuses, and which operations raise which. R172: the codes of
the sub-causes, 0 where there is none. 10_state.md R30: the places of the three flags in a flag field. -/
def Obligations.StatusesAndWhoRaisesThem : Prop :=
  (statusCode .ok = 0#4 ∧ statusCode .notFound = 1#4 ∧ statusCode .payloadTooShort = 2#4 ∧
    statusCode .valueOutOfRange = 3#4 ∧ statusCode .tableInvalid = 4#4 ∧ statusCode .noTable = 5#4 ∧
    statusCode .locked = 6#4 ∧ statusCode .badIndex = 7#4 ∧ statusCode .badLength = 8#4 ∧
    statusCode .illegalCmd = 9#4) ∧
  (subCauseCode none = 0#4 ∧ subCauseCode (some .range) = 1#4 ∧ subCauseCode (some .placement) = 2#4 ∧
    subCauseCode (some .overlap) = 3#4 ∧ subCauseCode (some .scale) = 4#4 ∧ subCauseCode (some .minMax) = 5#4 ∧
    subCauseCode (some .idCollision) = 6#4 ∧ subCauseCode (some .capacity) = 7#4) ∧
  (∀ fl : Flags, (flagBits fl).getLsbD 0 = fl.oor ∧ (flagBits fl).getLsbD 1 = fl.clamped ∧
    (flagBits fl).getLsbD 2 = fl.rovf) ∧
  ∀ (i : Instr) (s t : State) (r : Request) (rest : List Event) (x : Response),
    s.pending = .request r :: rest → exec i s = .next t → t.rsp = some x → x.st ∈ statusesOf i

/-- 10_state.md R28, 30_encoding.md R75: an OK response sets only the fields its operation lists, every other
field is zero. -/
def Obligations.OkResponsesSetOnlyTheirFields : Prop :=
  ∀ (i : Instr) (s t : State) (r : Request) (rest : List Event) (x : Response),
    s.pending = .request r :: rest → exec i s = .next t → t.rsp = some x → x.st = .ok → settable rational i x = x

/-- 10_state.md R29: the lanes at and above `nsig` of a whole-message operation are zero. -/
def Obligations.InactiveLanesAreZero : Prop :=
  ∀ (s t : State) (r : Request) (rest : List Event) (x : Response) (m : BitVec 8) (msg : Message) (pol : Policy),
    s.pending = .request r :: rest → Installed s m.toNat msg →
    exec (.decall m) s = .next t ∨ exec (.encall pol m) s = .next t ∨ exec (.txf pol m) s = .next t ∨
      (State.Inv s ∧ exec .rxf s = .next t ∧ ∃ y, t.rsp = some y ∧ y.st = .ok ∧ y.m = m) →
    t.rsp = some x →
    ∀ (j : Nat) (h : j < 64), msg.sig.length ≤ j → x.vals[j] = 0 ∧ x.vfl[j] = noFlags

/-- 30_encoding.md R75, 10_state.md R27: a request field that an operation does not read has no effect. Two
requests that agree on what the operation reads lead to the same next state. -/
def Obligations.UnreadRequestFieldsHaveNoEffect : Prop :=
  ∀ (i : Instr) (s : State) (r q : Request) (rest : List Event), sameRead i s r q →
    exec i { s with pending := .request r :: rest } = exec i { s with pending := .request q :: rest }

/-! ## BUILD and the table -/

/-- 41_table_build.md R131: LOCKED while TVALID = 1; on a valid image (as R132 lists the conditions) all
three pieces of held state are written in one step and the answer is OK. -/
def Obligations.BuildInstallsAValidImage : Prop :=
  ∀ (s : State) (r : Request) (rest : List Event), s.pending = .request r :: rest → s.tvalid = false →
    imageValid rational s.params r.img →
    exec .build s = .next
      { s with
        table := r.img.msgs.map fun msg =>
          { messageId := msg.messageId, idMask := msg.idMask, dlc := msg.dlc, sig := msg.sig.map RawSignal.record }
        nmsg := BitVec.ofNat 9 r.img.msgs.length
        tvalid := true
        pending := rest
        rsp := some (okResponse rational) }

/-- 41_table_build.md R131: on an image that is not valid BUILD answers TABLE_INVALID with the violation
that `first_violation` reports, and writes no held state. -/
def Obligations.BuildRefusesAnInvalidImage : Prop :=
  ∀ (s : State) (r : Request) (rest : List Event), s.pending = .request r :: rest → s.tvalid = false →
    ¬ imageValid rational s.params r.img →
    ∃ v, firstViolation rational s.params r.img = some v ∧
      exec .build s = .next
        { s with
          pending := rest
          rsp := some { okResponse rational with
            st := .tableInvalid, sub := some v.sub, m := BitVec.ofNat 8 v.m, s := BitVec.ofNat 6 v.s
            aux := BitVec.ofNat 8 v.aux } }

/-- 41_table_build.md R132: `valid(img)` holds exactly when `first_violation(img)` is none, for every number
type with a total order (00_scope.md R16). -/
def Obligations.ImageIsValidExactlyWhenNoViolation : Prop :=
  ∀ (ν : Type) (N : NumType ν) (p : Params) (img : Image ν), N.Ordered →
    (firstViolation N p img = none ↔ imageValid N p img)

/-- 41_table_build.md R136: `first_violation` is the first of the lines that fire, in the order given there, for every
number type. -/
def Obligations.FirstViolationIsTheFirstFiredLine : Prop :=
  ∀ (ν : Type) (N : NumType ν) (p : Params) (img : Image ν),
    firstViolation N p img = (firedLines N p img).head?

/-- 41_table_build.md R136: the indices of a violation fit the response fields that report them, and a
failing message index is below N_MSG_MAX. -/
def Obligations.ViolationIndicesFitTheResponse : Prop :=
  ∀ (ν : Type) (N : NumType ν) (p : Params) (img : Image ν) (v : Violation), firstViolation N p img = some v →
    v.m < 256 ∧ v.s < 64 ∧ v.aux < 256 ∧
    (img.reserved = false → v.sub ≠ .capacity → v.m < p.nMsgMax.val ∧ v.m < img.msgs.length)

/-- 41_table_build.md R133: `nsig ≤ 64` is implied by the other checks: signals of at least one bit inside 64
positions whose intervals are pairwise disjoint are at most 64 (00_scope.md R9, SIG_MAX). -/
def Obligations.DisjointSignalsAreAtMostSixtyFour : Prop :=
  ∀ (ν : Type) (sigs : List (Signal ν)), (∀ sig ∈ sigs, 1 ≤ sigLen sig ∧ fieldInside sig) → sigs.Pairwise intervalsDisjoint →
    sigs.length ≤ 64

/-- 41_table_build.md R137: what validity gives for every installed message and signal. -/
def Obligations.InstalledRecordsAreUsable : Prop :=
  ∀ (s : State) (m : Nat) (msg : Message), State.Inv s → Installed s m msg →
    msg.sig.length ≤ 64 ∧
    (∀ sig ∈ msg.sig, 1 ≤ need sig ∧ need sig ≤ msg.dlc.val ∧ msg.dlc.val ≤ 8 ∧ sig.scale ≠ 0 ∧
      sig.minValue ≤ sig.maxValue) ∧
    msg.sig.Pairwise cellsDisjoint

/-- 41_table_build.md R138: STAT answers TVALID and NMSG, in either phase. -/
def Obligations.StatAnswersTheTableStatus : Prop :=
  ∀ (s : State) (r : Request) (rest : List Event), s.pending = .request r :: rest →
    exec .stat s = .next
      { s with pending := rest, rsp := some { okResponse rational with tvalid := s.tvalid, nmsg := s.nmsg } }

/-- 41_table_build.md R139: GETM answers the fields of the message as given to BUILD. -/
def Obligations.GetmAnswersTheMessageRecord : Prop :=
  ∀ (s : State) (r : Request) (rest : List Event) (m : BitVec 8) (msg : Message),
    s.pending = .request r :: rest → Installed s m.toNat msg →
    exec (.getm m) s = .next
      { s with
        pending := rest
        rsp := some { okResponse rational with
          msg := { messageId := msg.messageId, idMask := msg.idMask, dlc := msg.dlc, nsig := msg.sig.length } } }

/-- 41_table_build.md R140: GETS answers all eight fields of the signal as given to BUILD. -/
def Obligations.GetsAnswersTheSignalRecord : Prop :=
  ∀ (s : State) (r : Request) (rest : List Event) (m : BitVec 8) (k : BitVec 6) (sig : Signal),
    s.pending = .request r :: rest → InstalledSignal s m.toNat k.toNat sig →
    exec (.gets m k) s = .next { s with pending := rest, rsp := some { okResponse rational with sig := sig } }

/-! ## The payload bit space -/

/-- 20_memory.md R46: `insert` writes exactly the field's cells, each with its bit of `w`, and keeps every
other bit of the buffer; `cell(order, .)` is one-to-one. -/
def Obligations.InsertWritesExactlyTheFieldsCells : Prop :=
  (∀ (ν : Type) (sig : Signal ν) (w : Nat) (pay : Payload) (b k : Nat) (hb : b < 8), k < 8 →
    (∀ i < sigLen sig, cell sig.byteOrder (sigStart sig + i) = (b, k) →
      (insert sig w pay)[b].getLsbD k = w.testBit (weight sig.byteOrder (sigLen sig) i)) ∧
    ((∀ i < sigLen sig, cell sig.byteOrder (sigStart sig + i) ≠ (b, k)) →
      (insert sig w pay)[b].getLsbD k = pay[b].getLsbD k)) ∧
  ∀ (order : ByteOrder) (p q : Nat), cell order p = cell order q → p = q

/-- 20_memory.md R60: the four laws of `extract` and `insert`. -/
def Obligations.ExtractAndInsertObeyTheirLaws : Prop :=
  (∀ (ν : Type) (sig : Signal ν) (w : Nat) (pay : Payload), fieldInside sig → w < 2 ^ sigLen sig →
    extract sig (insert sig w pay) = w) ∧
  (∀ (ν : Type) (sig : Signal ν) (pay : Payload), fieldInside sig → insert sig (extract sig pay) pay = pay) ∧
  (∀ (ν : Type) (a b : Signal ν) (x w : Nat) (pay : Payload), fieldInside a → fieldInside b → cellsDisjoint a b →
    extract a (insert b w pay) = extract a pay ∧
    insert a x (insert b w pay) = insert b w (insert a x pay)) ∧
  (∀ (ν : Type) (sig : Signal ν) (w : Nat) (pay : Payload) (b : Nat) (hb : b < 8), fieldInside sig →
    b < sigStart sig / 8 ∨ need sig ≤ b → (insert sig w pay)[b] = pay[b])

/-- 20_memory.md R47: the whole-word forms of `extract` and `insert`, for both byte orders. -/
def Obligations.WholeWordFormsAgree : Prop :=
  ∀ (ν : Type) (sig : Signal ν) (w : Nat) (pay : Payload), fieldInside sig → w < 2 ^ sigLen sig →
    (sig.byteOrder = .le →
      extract sig pay = ((leWord pay).toNat >>> sigStart sig) % 2 ^ sigLen sig ∧
      leWord (insert sig w pay) =
        (leWord pay &&& ~~~(BitVec.ofNat 64 (2 ^ sigLen sig - 1) <<< sigStart sig)) |||
          (BitVec.ofNat 64 w <<< sigStart sig)) ∧
    (sig.byteOrder = .be →
      extract sig pay = ((beWord pay).toNat >>> (64 - sigStart sig - sigLen sig)) % 2 ^ sigLen sig ∧
      beWord (insert sig w pay) =
        (beWord pay &&& ~~~(BitVec.ofNat 64 (2 ^ sigLen sig - 1) <<< (64 - sigStart sig - sigLen sig))) |||
          (BitVec.ofNat 64 w <<< (64 - sigStart sig - sigLen sig)))

/-- 20_memory.md R49: a signal has `bit_length` cells; for signals of one byte order disjoint intervals and
disjoint cells are the same thing; for signals of different orders neither implies the other, by the rule's
own two pairs of signals. -/
def Obligations.IntervalsAndCellsAgreeWithinOneByteOrder : Prop :=
  (∀ (ν : Type) (sig : Signal ν), (cells sig).Nodup ∧ (cells sig).length = sigLen sig) ∧
  (∀ (ν : Type) (a b : Signal ν), a.byteOrder = b.byteOrder → (intervalsDisjoint a b ↔ cellsDisjoint a b)) ∧
  (∀ (ν : Type) (a b : Signal ν), a.byteOrder = .le → sigStart a = 0 → sigLen a = 4 → b.byteOrder = .be → sigStart b = 4 →
    sigLen b = 4 → intervalsDisjoint a b ∧ ∀ c, c ∈ cells a ↔ c ∈ cells b) ∧
  (∀ (ν : Type) (a b : Signal ν), a.byteOrder = .le → sigStart a = 0 → sigLen a = 4 → b.byteOrder = .be → sigStart b = 0 →
    sigLen b = 4 → ¬ intervalsDisjoint a b ∧ cellsDisjoint a b)

/-! ## The signal codec -/

/-- 00_scope.md R17: `round` is to nearest, with the four ways of breaking a tie. -/
def Obligations.RoundIsToNearest : Prop :=
  ∀ (ties : RoundTies) (q : NUM),
    |(roundNum ties q : NUM) - q| ≤ 1 / 2 ∧
    (0 ≤ q → roundNum .away q = (q + 1 / 2).floor) ∧ (q < 0 → roundNum .away q = -(-q + 1 / 2).floor) ∧
    ∀ f : Int, q = (f : NUM) + 1 / 2 →
      roundNum .up q = f + 1 ∧ roundNum .down q = f ∧
      (roundNum .even q = f ∨ roundNum .even q = f + 1) ∧ roundNum .even q % 2 = 0

/-- 40_signal_codec.md R100: the raw integer of a signal, sign-extended, and its range. -/
def Obligations.RawIntegerIsSignExtendedAndInRange : Prop :=
  ∀ (ν : Type) (sig : Signal ν) (pay : Payload), 1 ≤ sigLen sig → fieldInside sig →
    (sig.isSigned = false → sraw sig pay = (extract sig pay : Int) ∧ 0 ≤ sraw sig pay ∧
      sraw sig pay ≤ 2 ^ sigLen sig - 1) ∧
    (sig.isSigned = true →
      sraw sig pay = (BitVec.ofNat (sigLen sig) (extract sig pay)).toInt ∧
      -(2 ^ (sigLen sig - 1)) ≤ sraw sig pay ∧ sraw sig pay ≤ 2 ^ (sigLen sig - 1) - 1)

/-- 40_signal_codec.md R105: when an integer fits a field, and the truncated bits of one that fits read back
as that integer. -/
def Obligations.FittingRawIntegerReadsBack : Prop :=
  ∀ (ν : Type) (sig : Signal ν) (r : Int) (pay : Payload), 1 ≤ sigLen sig → fieldInside sig →
    (sig.isSigned = false → (fitsRaw sig r = true ↔ 0 ≤ r ∧ r ≤ 2 ^ sigLen sig - 1)) ∧
    (sig.isSigned = true →
      (fitsRaw sig r = true ↔ -(2 ^ (sigLen sig - 1)) ≤ r ∧ r ≤ 2 ^ (sigLen sig - 1) - 1)) ∧
    (truncBits sig r : Int) = r % 2 ^ sigLen sig ∧ truncBits sig r < 2 ^ sigLen sig ∧
    (fitsRaw sig r = true → sraw sig (insert sig (truncBits sig r) pay) = r)

/-- 40_signal_codec.md R107: the round-trip law; for every number type with a total order the round-tripped
value, at `NUM = ℚ` its distance. -/
def Obligations.EncodeThenDecodeRoundTrips : Prop :=
  (∀ (ν : Type) (N : NumType ν) (p : Params) (pol : Policy) (sig : Signal ν) (v : ν) (pay : Payload), N.Ordered →
    1 ≤ sigLen sig → fieldInside sig → N.le sig.minValue v = true → N.le v sig.maxValue = true →
    ∃ (pay' : Payload) (fl : Flags), encodeSignal N p pol sig v pay = some (pay', fl) ∧ fl.clamped = false ∧
      (fl.rovf = false →
        decodeValue N sig pay' =
          N.add (N.mul (N.ofInt (N.round p.roundTies (N.div (N.sub v sig.offset) sig.scale))) sig.scale) sig.offset)) ∧
  ∀ (p : Params) (pol : Policy) (sig : Signal) (v : NUM) (pay : Payload), 1 ≤ sigLen sig → fieldInside sig →
    sig.scale ≠ 0 → sig.minValue ≤ v → v ≤ sig.maxValue →
    ∃ (pay' : Payload) (fl : Flags), encodeSignal rational p pol sig v pay = some (pay', fl) ∧ fl.clamped = false ∧
      (fl.rovf = false →
        decodeValue rational sig pay' =
          (roundNum p.roundTies ((v - sig.offset) / sig.scale) : NUM) * sig.scale + sig.offset ∧
        |decodeValue rational sig pay' - v| ≤ |sig.scale| / 2 ∧
        (∀ k : Int, (v - sig.offset) / sig.scale = (k : NUM) → decodeValue rational sig pay' = v))

/-- 40_signal_codec.md R109: the non-clobber law, for two different signals of one message of a valid table,
for every number type with a total order; the exact value at `NUM = ℚ`. -/
def Obligations.EncodingOneSignalKeepsTheOthers : Prop :=
  (∀ (ν : Type) (N : NumType ν) (p : Params) (table : List (Message ν)) (msg : Message ν) (j k : Nat)
    (a b : Signal ν), N.Ordered → tableValid N p table → msg ∈ table → j ≠ k → msg.sig[j]? = some a →
    msg.sig[k]? = some b →
    cellsDisjoint a b ∧
    (∀ (w : ν) (pay : Payload), sraw a (encodeClamped N p b w pay).1 = sraw a pay ∧
      decodeValue N a (encodeClamped N p b w pay).1 = decodeValue N a pay) ∧
    (∀ (v w : ν) (pay : Payload), N.le a.minValue v = true → N.le v a.maxValue = true →
      fitsRaw a (encodeRaw N p a v) = true →
      decodeValue N a (encodeClamped N p b w (encodeClamped N p a v pay).1).1 =
        N.add (N.mul (N.ofInt (N.round p.roundTies (N.div (N.sub v a.offset) a.scale))) a.scale) a.offset)) ∧
  ∀ (p : Params) (table : List Message) (msg : Message) (j k : Nat) (a b : Signal), tableValid rational p table →
    msg ∈ table → j ≠ k → msg.sig[j]? = some a → msg.sig[k]? = some b →
    ∀ (v w : NUM) (pay : Payload) (n : Int), a.minValue ≤ v → v ≤ a.maxValue →
      fitsRaw a (encodeRaw rational p a v) = true → (v - a.offset) / a.scale = (n : NUM) →
      decodeValue rational a (encodeClamped rational p b w (encodeClamped rational p a v pay).1).1 = v

/-- 40_signal_codec.md R111, first sentence: for a message of a valid table, folding `encode` over the
signals in any order gives the same payload, and each signal the same flags, for every number type. -/
def Obligations.EncodeOrderDoesNotMatter : Prop :=
  ∀ (ν : Type) (N : NumType ν) (p : Params) (table : List (Message ν)) (msg : Message ν) (vals : Vector ν 64)
    (order : List (Signal ν × ν)) (pay : Payload), tableValid N p table → msg ∈ table →
    order.Perm (assignments msg vals) →
    (encodeLoop N p order pay).1 = (encodeLoop N p (assignments msg vals) pay).1 ∧
    ∃ flagsOf : Signal ν × ν → Flags, (encodeLoop N p order pay).2 = order.map flagsOf ∧
      (encodeLoop N p (assignments msg vals) pay).2 = (assignments msg vals).map flagsOf

/-- 40_signal_codec.md R111, second sentence: ENCALL, under either policy, when it answers OK, then DECALL of
the same message with `len = dlc` gives each signal the value that encoding its own value and decoding it
gives. -/
def Obligations.EncallThenDecallRoundTrips : Prop :=
  ∀ (s : State) (pol : Policy) (m : BitVec 8) (msg : Message) (r q : Request) (rest rest' : List Event) (t u : State)
    (x y : Response), State.Inv s → Installed s m.toNat msg → s.pending = .request r :: rest →
    exec (.encall pol m) s = .next t → t.rsp = some x → x.st = .ok → q.len = x.len → q.pay = x.pay →
    exec (.decall m) { s with pending := .request q :: rest' } = .next u → u.rsp = some y →
    y.st = .ok ∧ x.len.toNat = msg.dlc.val ∧
    ∀ (j : Nat) (h : j < 64) (sig : Signal), msg.sig[j]? = some sig →
      y.vals[j] = decodeValue rational sig (encodeClamped rational s.params sig r.vals[j] zeroPayload).1 ∧
      x.vfl[j] = (encodeClamped rational s.params sig r.vals[j] zeroPayload).2

/-- 40_signal_codec.md R110: every payload bit that no signal of the message owns is 0 in the result of
ENCALL, in particular every bit at position `dlc*8` and above. -/
def Obligations.UnownedPayloadBitsAreZero : Prop :=
  ∀ (s t : State) (r : Request) (rest : List Event) (pol : Policy) (m : BitVec 8) (msg : Message) (x : Response)
    (b k : Nat) (hb : b < 8), s.pending = .request r :: rest → Installed s m.toNat msg → k < 8 →
    exec (.encall pol m) s = .next t → t.rsp = some x →
    ((∀ sig ∈ msg.sig, (b, k) ∉ cells sig) → x.pay[b].getLsbD k = false) ∧
    (State.Inv s → msg.dlc.val ≤ b → x.pay[b].getLsbD k = false)

/-- 40_signal_codec.md R103, R101: DEC of a signal the frame contains answers OK with
`raw * scale + offset`, unclamped, and the flag `oor`. -/
def Obligations.DecAnswersThePhysicalValue : Prop :=
  ∀ (s : State) (r : Request) (rest : List Event) (m : BitVec 8) (k : BitVec 6) (sig : Signal) (v : NUM),
    s.pending = .request r :: rest → InstalledSignal s m.toNat k.toNat sig → r.len.toNat ≤ 8 →
    sigStart sig + sigLen sig ≤ 8 * r.len.toNat → v = (sraw sig r.pay : NUM) * sig.scale + sig.offset →
    exec (.dec m k) s = .next
      { s with
        pending := rest
        rsp := some { okResponse rational with
          v := v
          fl := { rovf := false, clamped := false, oor := decide (v < sig.minValue ∨ sig.maxValue < v) } } }

/-- 40_signal_codec.md R106, R104, R105: ENC answers OK with the field of the given buffer replaced by the
low bits of `round((clamp(v) - offset) / scale)`, and the flags `clamped` and `rovf`. -/
def Obligations.EncAnswersTheMergedBuffer : Prop :=
  ∀ (s : State) (r : Request) (rest : List Event) (pol : Policy) (m : BitVec 8) (k : BitVec 6) (sig : Signal)
    (raw : Int),
    s.pending = .request r :: rest → InstalledSignal s m.toNat k.toNat sig →
    (pol = .reject → sig.minValue ≤ r.v ∧ r.v ≤ sig.maxValue) →
    raw = roundNum s.params.roundTies
      (((if r.v < sig.minValue then sig.minValue else if sig.maxValue < r.v then sig.maxValue else r.v) -
        sig.offset) / sig.scale) →
    exec (.enc pol m k) s = .next
      { s with
        pending := rest
        rsp := some { okResponse rational with
          pay := insert sig (raw % 2 ^ sigLen sig).toNat r.pay
          fl := { rovf := !fitsRaw sig raw, clamped := decide (r.v < sig.minValue ∨ sig.maxValue < r.v)
                  oor := false } } }

/-- 40_signal_codec.md R108: DECALL of a frame that contains every signal answers OK with each value and
its flag `oor`, lane by lane. -/
def Obligations.DecallAnswersEveryValue : Prop :=
  ∀ (s : State) (r : Request) (rest : List Event) (m : BitVec 8) (msg : Message),
    s.pending = .request r :: rest → Installed s m.toNat msg → r.len.toNat ≤ 8 →
    (∀ sig ∈ msg.sig, sigStart sig + sigLen sig ≤ 8 * r.len.toNat) →
    ∃ vals vfl, exec (.decall m) s = .next
        { s with pending := rest, rsp := some { okResponse rational with vals := vals, vfl := vfl } } ∧
      ∀ (j : Nat) (h : j < 64) (sig : Signal), msg.sig[j]? = some sig →
        vals[j] = (sraw sig r.pay : NUM) * sig.scale + sig.offset ∧
        vfl[j] = { rovf := false, clamped := false
                   oor := decide (vals[j] < sig.minValue ∨ sig.maxValue < vals[j]) }

/-- 40_signal_codec.md R110: ENCALL, when no value is rejected, answers OK with the payload built from zeros
by encoding each value, the length `dlc`, and each value's flags. -/
def Obligations.EncallAnswersThePayload : Prop :=
  ∀ (s : State) (r : Request) (rest : List Event) (pol : Policy) (m : BitVec 8) (msg : Message),
    s.pending = .request r :: rest → Installed s m.toNat msg →
    (pol = .reject → ∀ (j : Nat) (sig : Signal) (v : NUM), msg.sig[j]? = some sig → r.vals[j]? = some v →
      sig.minValue ≤ v ∧ v ≤ sig.maxValue) →
    ∃ vfl, exec (.encall pol m) s = .next
        { s with
          pending := rest
          rsp := some { okResponse rational with
            pay := (assignments msg r.vals).foldl (fun pay sv => (encodeClamped rational s.params sv.1 sv.2 pay).1) zeroPayload
            len := BitVec.ofNat 4 msg.dlc.val
            vfl := vfl } } ∧
      ∀ (j : Nat) (h : j < 64) (sig : Signal), msg.sig[j]? = some sig →
        vfl[j] = { rovf := !fitsRaw sig (encodeRaw rational s.params sig r.vals[j])
                   clamped := decide (r.vals[j] < sig.minValue ∨ sig.maxValue < r.vals[j]), oor := false }

/-! ## The matcher and the frame data flows -/

/-- 42_matcher.md R151: FIND answers the least index whose masked ID equals the frame's, or NOT_FOUND. -/
def Obligations.FindAnswersTheFirstMatch : Prop :=
  ∀ (s : State) (r : Request) (rest : List Event), s.pending = .request r :: rest → s.tvalid = true →
    (∀ (k : Nat) (msg : Message), Installed s k msg → r.id &&& msg.idMask = msg.messageId &&& msg.idMask →
      (∀ j < k, ∀ msg', s.table[j]? = some msg' → r.id &&& msg'.idMask ≠ msg'.messageId &&& msg'.idMask) →
      exec .find s = .next { s with pending := rest, rsp := some { okResponse rational with m := BitVec.ofNat 8 k } }) ∧
    ((∀ (k : Nat) (msg : Message), Installed s k msg → r.id &&& msg.idMask ≠ msg.messageId &&& msg.idMask) →
      exec .find s = .next { s with pending := rest, rsp := some { okResponse rational with st := .notFound } })

/-- 42_matcher.md R154: the law of the matcher, for a valid table. -/
def Obligations.MatcherLaw : Prop :=
  ∀ (s : State) (r : Request) (rest : List Event), State.Inv s → s.tvalid = true →
    s.pending = .request r :: rest →
    (∀ (k : Nat) (msg : Message), s.table[k]? = some msg →
      (exec .find s = .next { s with pending := rest, rsp := some { okResponse rational with m := BitVec.ofNat 8 k } } ↔
        matchesId r.id msg = true ∧ ∀ j < k, ∀ msg', s.table[j]? = some msg' → matchesId r.id msg' = false)) ∧
    (exec .find s = .next { s with pending := rest, rsp := some { okResponse rational with st := .notFound } } ↔
      ∀ msg ∈ s.table, matchesId r.id msg = false) ∧
    (∀ (k : Nat) (msg : Message), s.table[k]? = some msg → r.id = msg.messageId →
      matchesId r.id msg = true ∧
      (∃ j ≤ k, exec .find s = .next { s with pending := rest, rsp := some { okResponse rational with m := BitVec.ofNat 8 j } }) ∧
      ((∀ j < k, ∀ msg', s.table[j]? = some msg' → matchesId r.id msg' = false) →
        exec .find s = .next { s with pending := rest, rsp := some { okResponse rational with m := BitVec.ofNat 8 k } }))

/-- 43_frame_dispatch.md R161: RXF of a frame that matches message `m` first and contains each of its signals
answers OK with `m`, each value and its flag `oor`; a frame that matches none answers NOT_FOUND. -/
def Obligations.RxfAnswersTheDecodedFrame : Prop :=
  ∀ (s : State) (r : Request) (rest : List Event), s.pending = .request r :: rest → s.tvalid = true →
    r.len.toNat ≤ 8 →
    (∀ (k : Nat) (msg : Message), Installed s k msg → r.id &&& msg.idMask = msg.messageId &&& msg.idMask →
      (∀ j < k, ∀ msg', s.table[j]? = some msg' → r.id &&& msg'.idMask ≠ msg'.messageId &&& msg'.idMask) →
      (∀ sig ∈ msg.sig, sigStart sig + sigLen sig ≤ 8 * r.len.toNat) →
      ∃ vals vfl, exec .rxf s = .next
          { s with pending := rest, rsp := some { okResponse rational with m := BitVec.ofNat 8 k, vals := vals, vfl := vfl } } ∧
        ∀ (j : Nat) (h : j < 64) (sig : Signal), msg.sig[j]? = some sig →
          vals[j] = (sraw sig r.pay : NUM) * sig.scale + sig.offset ∧
          vfl[j] = { rovf := false, clamped := false
                     oor := decide (vals[j] < sig.minValue ∨ sig.maxValue < vals[j]) }) ∧
    ((∀ (k : Nat) (msg : Message), Installed s k msg → r.id &&& msg.idMask ≠ msg.messageId &&& msg.idMask) →
      exec .rxf s = .next { s with pending := rest, rsp := some { okResponse rational with st := .notFound } })

/-- 43_frame_dispatch.md R162: RXF as a composition of FIND and DECALL. -/
def Obligations.RxfIsFindThenDecall : Prop :=
  ∀ (s : State) (r : Request) (rest : List Event) (f : Response), State.Inv s →
    s.pending = .request r :: rest →
    exec .find s = .next { s with pending := rest, rsp := some f } →
    (s.tvalid = true → 8 < r.len.toNat →
      exec .rxf s = .next { s with pending := rest, rsp := some { okResponse rational with st := .badLength } }) ∧
    (s.tvalid = false ∨ r.len.toNat ≤ 8 →
      (f.st ≠ .ok → exec .rxf s = .next { s with pending := rest, rsp := some f }) ∧
      (f.st = .ok → ∃ d, exec (.decall f.m) s = .next { s with pending := rest, rsp := some d } ∧
        exec .rxf s = .next { s with pending := rest, rsp := some { d with m := f.m } }))

/-- 43_frame_dispatch.md R165: TXF answers what ENCALL answers with the same POL, M and vals, and in an OK
response the ID of the definition, unmasked. -/
def Obligations.TxfIsEncallWithTheDefinitionsId : Prop :=
  ∀ (s : State) (r : Request) (rest : List Event) (pol : Policy) (m : BitVec 8),
    s.pending = .request r :: rest →
    ∃ e, exec (.encall pol m) s = .next { s with pending := rest, rsp := some e } ∧
      (e.st ≠ .ok → exec (.txf pol m) s = .next { s with pending := rest, rsp := some e }) ∧
      (e.st = .ok → ∃ msg, Installed s m.toNat msg ∧
        exec (.txf pol m) s = .next { s with pending := rest, rsp := some { e with id := msg.messageId } })

/-- 43_frame_dispatch.md R165, 40_signal_codec.md R110: TXF, when no value is rejected, answers OK with the
frame: the definition's ID, its `dlc` as length, and the encoded payload. -/
def Obligations.TxfAnswersTheFrame : Prop :=
  ∀ (s : State) (r : Request) (rest : List Event) (pol : Policy) (m : BitVec 8) (msg : Message),
    s.pending = .request r :: rest → Installed s m.toNat msg →
    (pol = .reject → ∀ (j : Nat) (sig : Signal) (v : NUM), msg.sig[j]? = some sig → r.vals[j]? = some v →
      sig.minValue ≤ v ∧ v ≤ sig.maxValue) →
    ∃ vfl, exec (.txf pol m) s = .next
        { s with
          pending := rest
          rsp := some { okResponse rational with
            id := msg.messageId
            pay := (assignments msg r.vals).foldl (fun pay sv => (encodeClamped rational s.params sv.1 sv.2 pay).1) zeroPayload
            len := BitVec.ofNat 4 msg.dlc.val
            vfl := vfl } } ∧
      ∀ (j : Nat) (h : j < 64) (sig : Signal), msg.sig[j]? = some sig →
        vfl[j] = { rovf := !fitsRaw sig (encodeRaw rational s.params sig r.vals[j])
                   clamped := decide (r.vals[j] < sig.minValue ∨ sig.maxValue < r.vals[j]), oor := false }

/-- 43_frame_dispatch.md R165, last corner case: RXF of the frame that TXF emitted returns the values
round-tripped, as 40_signal_codec.md R111 has them, under the message of TXF, unless an earlier message
shadows it. -/
def Obligations.TxfThenRxfRoundTrips : Prop :=
  ∀ (s : State) (pol : Policy) (m : BitVec 8) (msg : Message) (r q : Request) (rest rest' : List Event) (t u : State)
    (x y : Response), State.Inv s → Installed s m.toNat msg → s.pending = .request r :: rest →
    exec (.txf pol m) s = .next t → t.rsp = some x → x.st = .ok → q.id = x.id → q.len = x.len → q.pay = x.pay →
    (∀ j < m.toNat, ∀ msg', s.table[j]? = some msg' →
      msg.messageId &&& msg'.idMask ≠ msg'.messageId &&& msg'.idMask) →
    exec .rxf { s with pending := .request q :: rest' } = .next u → u.rsp = some y →
    y.st = .ok ∧ y.m = m ∧ x.id = msg.messageId ∧
    ∀ (j : Nat) (h : j < 64) (sig : Signal), msg.sig[j]? = some sig →
      y.vals[j] = decodeValue rational sig (encodeClamped rational s.params sig r.vals[j] zeroPayload).1

/-- The model's choice (log 4): the machine is the block at the default of the parameter `NUM`. 00_scope.md R10
gives the parameter and its default, and no rule says that `exec` and `step` stand at it. What `exec` and `step` do with a request is what the block, defined for every number type, does with it at `NUM = ℚ`. -/
def Obligations.MachineIsTheBlockAtTheDefaultNumberType : Prop :=
  ∀ (s : State) (r : Request) (rest : List Event), s.pending = .request r :: rest →
    (∀ i : Instr, exec i s = .next
      { s with
        toHeld := (operate rational s.params i s.toHeld r).1
        pending := rest
        rsp := some (operate rational s.params i s.toHeld r).2 }) ∧
    step s = .next
      { s with
        toHeld := (respond rational s.params s.toHeld r).1
        pending := rest
        rsp := some (respond rational s.params s.toHeld r).2 }
end

