-- ==== Sys2Proof/Laws/Num.lean ====
section
/-! SUPPORT. The number types (00_scope.md R16): what a total order gives, and the operations of the default, which are those of the rationals. -/

namespace Sys2Proof

/-- In a total order `x < y` fails exactly when `y ≤ x`. -/
theorem NumType.Ordered.lt_eq_false_iff {ν : Type} {N : NumType ν} (h : N.Ordered) {x y : ν} :
    N.lt x y = false ↔ N.le y x = true := by
  rw [← Bool.not_eq_true, h.lt_iff, Bool.not_eq_false]

end Sys2Proof

namespace Sys2Proof.Machine

open Sys2Proof

@[simp] theorem rational_ofInt (r : Int) : rational.ofInt r = (r : NUM) := rfl
@[simp] theorem rational_add (x y : NUM) : rational.add x y = x + y := rfl
@[simp] theorem rational_sub (x y : NUM) : rational.sub x y = x - y := rfl
@[simp] theorem rational_mul (x y : NUM) : rational.mul x y = x * y := rfl
@[simp] theorem rational_div (x y : NUM) : rational.div x y = x / y := rfl
@[simp] theorem rational_lt (x y : NUM) : rational.lt x y = decide (x < y) := rfl
@[simp] theorem rational_le (x y : NUM) : rational.le x y = decide (x ≤ y) := rfl
@[simp] theorem rational_round (ties : RoundTies) (q : NUM) : rational.round ties q = roundNum ties q := rfl
@[simp] theorem numZero_rational : numZero rational = 0 := rfl

@[simp] theorem isZero_rational (x : NUM) : isZero rational x = decide (x = 0) := by
  simp [isZero, le_antisymm_iff]

/-- The order of the rationals is total. -/
theorem rational_ordered : rational.Ordered where
  total x y := by simpa using le_total x y
  trans x y z := by simpa using fun h h' => le_trans h h'
  antisymm x y := by simpa using fun h h' => le_antisymm h h'
  lt_iff x y := by simp

end Sys2Proof.Machine
end

