-- ==== Sys2Proof/Laws/State.lean ====
section
/-! SUPPORT. One lemma per field per update of the state, true by rfl. -/

namespace Sys2Proof.Machine

open Sys2Proof

variable (s : State) (rest : List Event) (r : Request) (nbits w : Nat)

@[simp] theorem reset_toHeld : State.reset.toHeld = Held.reset := rfl
@[simp] theorem reset_params : State.reset.params = Params.default := rfl
@[simp] theorem reset_pending : State.reset.pending = [] := rfl
@[simp] theorem reset_rsp : State.reset.rsp = none := rfl

@[simp] theorem heldReset_tvalid {ν : Type} : (Held.reset : Held ν).tvalid = false := rfl
@[simp] theorem heldReset_nmsg {ν : Type} : (Held.reset : Held ν).nmsg = 0#9 := rfl
@[simp] theorem heldReset_table {ν : Type} : (Held.reset : Held ν).table = [] := rfl

@[simp] theorem resetEvent_toHeld : (resetEvent s rest).toHeld = Held.reset := rfl
@[simp] theorem resetEvent_params : (resetEvent s rest).params = s.params := rfl
@[simp] theorem resetEvent_tvalid : (resetEvent s rest).tvalid = false := rfl
@[simp] theorem resetEvent_nmsg : (resetEvent s rest).nmsg = 0#9 := rfl
@[simp] theorem resetEvent_table : (resetEvent s rest).table = [] := rfl
@[simp] theorem resetEvent_pending : (resetEvent s rest).pending = rest := rfl
@[simp] theorem resetEvent_rsp : (resetEvent s rest).rsp = none := rfl

@[simp] theorem issue_toHeld : (issue s r).toHeld = s.toHeld := rfl
@[simp] theorem issue_params : (issue s r).params = s.params := rfl
@[simp] theorem issue_tvalid : (issue s r).tvalid = s.tvalid := rfl
@[simp] theorem issue_nmsg : (issue s r).nmsg = s.nmsg := rfl
@[simp] theorem issue_table : (issue s r).table = s.table := rfl
@[simp] theorem issue_pending : (issue s r).pending = s.pending ++ [.request r] := rfl
@[simp] theorem issue_rsp : (issue s r).rsp = s.rsp := rfl

@[simp] theorem withFetchWord_toHeld : (s.withFetchWord nbits w).toHeld = s.toHeld := rfl
@[simp] theorem withFetchWord_params : (s.withFetchWord nbits w).params = s.params := rfl
@[simp] theorem withFetchWord_tvalid : (s.withFetchWord nbits w).tvalid = s.tvalid := rfl
@[simp] theorem withFetchWord_nmsg : (s.withFetchWord nbits w).nmsg = s.nmsg := rfl
@[simp] theorem withFetchWord_table : (s.withFetchWord nbits w).table = s.table := rfl
@[simp] theorem withFetchWord_pending :
    (s.withFetchWord nbits w).pending = withCommand s.pending (tableWord nbits w) := rfl
@[simp] theorem withFetchWord_rsp : (s.withFetchWord nbits w).rsp = s.rsp := rfl

end Sys2Proof.Machine
end

