-- ==== Sys2Proof/Laws/Ops.lean ====
section
/-! SUPPORT. What each shared operation over the state can do, said once: serving a request, reading the installed table, and a step. -/

namespace Sys2Proof.Machine

open Sys2Proof

/-- Serving a request: the operation's held state and response, the request consumed. -/
theorem serve_request {s : State} {r : Request} {rest : List Event} (h : s.pending = .request r :: rest)
    (op : Held → Request → Held × Response) :
    serve s op =
      .next { s with toHeld := (op s.toHeld r).1, pending := rest, rsp := some (op s.toHeld r).2 } := by
  simp [serve, h]

/-- Answering a request without writing held state. -/
theorem answer_request {s : State} {r : Request} {rest : List Event} (h : s.pending = .request r :: rest)
    (op : Held → Request → Response) :
    answer s op = .next { s with pending := rest, rsp := some (op s.toHeld r) } := by
  simp [answer, serve_request h]

/-- Everything that serving can do. -/
theorem serve_cases (s : State) (op : Held → Request → Held × Response) :
    (∃ r rest, s.pending = .request r :: rest ∧
      serve s op =
        .next { s with toHeld := (op s.toHeld r).1, pending := rest, rsp := some (op s.toHeld r).2 }) ∨
    ((∀ r rest, s.pending ≠ .request r :: rest) ∧ serve s op = .next s) := by
  rcases hp : s.pending with _ | ⟨_ | _, rest⟩
  · exact .inr ⟨by simp, by simp [serve, hp]⟩
  · exact .inl ⟨_, _, rfl, serve_request hp op⟩
  · exact .inr ⟨by simp, by simp [serve, hp]⟩

/-- `exec` serves the request at the head of the interface with the block's operation at `NUM = ℚ`. -/
theorem exec_eq_serve (i : Instr) (s : State) : exec i s = serve s (operate rational s.params i) := by
  cases i <;> rfl

/-- `exec` on a request, for every operation. -/
theorem exec_request {s : State} {r : Request} {rest : List Event} (h : s.pending = .request r :: rest)
    (i : Instr) :
    exec i s = .next
      { s with
        toHeld := (operate rational s.params i s.toHeld r).1
        pending := rest
        rsp := some (operate rational s.params i s.toHeld r).2 } := by
  rw [exec_eq_serve, serve_request h]

/-- An operation other than BUILD leaves the held state. -/
theorem operate_held {ν : Type} (N : NumType ν) (p : Params) {i : Instr} (hi : i ≠ .build) (h : Held ν)
    (r : Request ν) : (operate N p i h r).1 = h := by
  cases i <;> first | exact absurd rfl hi | rfl

/-- `exec` on a request, for an operation other than BUILD. -/
theorem exec_other {s : State} {r : Request} {rest : List Event} (h : s.pending = .request r :: rest) {i : Instr}
    (hi : i ≠ .build) :
    exec i s = .next { s with pending := rest, rsp := some (operate rational s.params i s.toHeld r).2 } := by
  rw [exec_request h, operate_held rational s.params hi]

/-- Everything that BUILD's operation can do: the held state stays, or a table is installed. -/
theorem buildTable_cases {ν : Type} (N : NumType ν) (p : Params) (h : Held ν) (r : Request ν) :
    (h.tvalid = true ∧ buildTable N p h r = (h, errorStatus N .locked)) ∨
    (∃ v, h.tvalid = false ∧ firstViolation N p r.img = some v ∧
      buildTable N p h r = (h, violationResult N v)) ∨
    (h.tvalid = false ∧ firstViolation N p r.img = none ∧
      buildTable N p h r =
        ({ table := installedRecords r.img, nmsg := BitVec.ofNat 9 r.img.msgs.length, tvalid := true },
          okResponse N)) := by
  cases ht : h.tvalid with
  | true => exact .inl ⟨rfl, by simp [buildTable, ht]⟩
  | false =>
    cases hv : firstViolation N p r.img with
    | none => exact .inr (.inr ⟨rfl, rfl, by simp [buildTable, ht, hv]⟩)
    | some v => exact .inr (.inl ⟨v, rfl, rfl, by simp [buildTable, ht, hv]⟩)

/-- Everything that the block can do with a request: the held state stays, or a BUILD installs a table. -/
theorem respond_held {ν : Type} (N : NumType ν) (p : Params) (h : Held ν) (r : Request ν) :
    (respond N p h r).1 = h ∨
    (decode r.cmd = .ok .build ∧ h.tvalid = false ∧ firstViolation N p r.img = none ∧
      respond N p h r =
        ({ table := installedRecords r.img, nmsg := BitVec.ofNat 9 r.img.msgs.length, tvalid := true },
          okResponse N)) := by
  cases hd : decode r.cmd with
  | error e => exact .inl (by simp [respond, hd])
  | ok i =>
    by_cases hi : i = .build
    · subst hi
      rcases buildTable_cases N p h r with ⟨-, he⟩ | ⟨v, -, -, he⟩ | ⟨ht, hv, he⟩
      · exact .inl (by simp [respond, hd, operate, he])
      · exact .inl (by simp [respond, hd, operate, he])
      · exact .inr ⟨rfl, ht, hv, by simp [respond, hd, operate, he]⟩
    · exact .inl (by simp [respond, hd, operate_held N p hi])

/-- A step at a request. -/
theorem step_request {s : State} {r : Request} {rest : List Event} (h : s.pending = .request r :: rest) :
    step s = .next
      { s with
        toHeld := (respond rational s.params s.toHeld r).1
        pending := rest
        rsp := some (respond rational s.params s.toHeld r).2 } := by
  cases hd : decode r.cmd with
  | error e => simp [step, h, hd, respond, illegalCommand, answer_request h]
  | ok i => simp [step, h, hd, respond, exec_request h]

/-- Everything that a step can do. -/
theorem step_cases (s : State) :
    (s.pending = [] ∧ step s = .next s) ∨
    (∃ rest, s.pending = .reset :: rest ∧ step s = .next (resetEvent s rest)) ∨
    (∃ r rest, s.pending = .request r :: rest ∧
      step s = .next
        { s with
          toHeld := (respond rational s.params s.toHeld r).1
          pending := rest
          rsp := some (respond rational s.params s.toHeld r).2 }) := by
  rcases hp : s.pending with _ | ⟨r | _, rest⟩
  · exact .inl ⟨rfl, by simp [step, hp]⟩
  · exact .inr (.inr ⟨r, rest, rfl, step_request hp⟩)
  · exact .inr (.inl ⟨rest, rfl, by simp [step, hp]⟩)

/-- Reading the installed table in phase UNBUILT. -/
theorem installedTable_unbuilt {ν : Type} {s : Held ν} (h : s.tvalid = false) : installedTable s = .error .noTable := by
  simp [installedTable, h]

/-- Reading the installed table in phase OPERATIONAL. -/
theorem installedTable_operational {ν : Type} {s : Held ν} (h : s.tvalid = true) :
    installedTable s = .ok (s.table.take s.nmsg.toNat) := by
  simp [installedTable, h]

/-- Everything that reading a message record can answer. -/
theorem messageAt_ok_iff {ν : Type} {s : Held ν} {m : BitVec 8} {msg : Message ν} :
    messageAt s m = .ok msg ↔ s.tvalid = true ∧ m.toNat < s.nmsg.toNat ∧ s.table[m.toNat]? = some msg := by
  cases ht : s.tvalid
  · simp [messageAt, installedTable, ht]
  · by_cases hm : m.toNat < s.nmsg.toNat
    · cases hr : s.table[m.toNat]? <;> simp [messageAt, installedTable, ht, hm, hr]
    · simp [messageAt, installedTable, ht, hm]

/-- Reading a message record in phase UNBUILT. -/
theorem messageAt_unbuilt {ν : Type} {s : Held ν} (h : s.tvalid = false) (m : BitVec 8) :
    messageAt s m = .error .noTable := by
  simp [messageAt, installedTable_unbuilt h]

/-- Reading a message record whose index is not below NMSG. -/
theorem messageAt_badIndex {ν : Type} {s : Held ν} {m : BitVec 8} (h : s.tvalid = true) (hm : s.nmsg.toNat ≤ m.toNat) :
    messageAt s m = .error .badIndex := by
  simp [messageAt, installedTable_operational h, Nat.not_lt.mpr hm]

/-- Everything that reading a signal record can answer. -/
theorem signalAt_ok_iff {ν : Type} {s : Held ν} {m : BitVec 8} {k : BitVec 6} {sig : Signal ν} :
    signalAt s m k = .ok sig ↔ ∃ msg, messageAt s m = .ok msg ∧ msg.sig[k.toNat]? = some sig := by
  cases hm : messageAt s m with
  | error e => simp [signalAt, hm]
  | ok msg => cases hs : msg.sig[k.toNat]? <;> simp [signalAt, hm, hs]

/-- A lane of a value array. -/
@[simp] theorem lanes_getElem {α : Type} (zero : α) (xs : List α) (j : Nat) (h : j < 64) :
    (lanes zero xs)[j] = xs.getD j zero := by
  simp [lanes]

end Sys2Proof.Machine
end

