-- ==== Sys2Proof/Laws/Codec.lean ====
section
/-! SUPPORT. What the functions of the codec, the matcher and the interface answer, said once for installed records. -/

namespace Sys2Proof.Machine

open Sys2Proof

/-- A frame is too short for a signal exactly when the signal's last position lies beyond its bytes. -/
theorem tooShort_iff {ν : Type} {len : BitVec 4} {sig : Signal ν} :
    tooShort len sig = true ↔ 8 * len.toNat < sigStart sig + sigLen sig := by
  rw [tooShort, decide_eq_true_iff, need]
  omega

theorem tooShort_eq_false_iff {ν : Type} {len : BitVec 4} {sig : Signal ν} :
    tooShort len sig = false ↔ sigStart sig + sigLen sig ≤ 8 * len.toNat := by
  rw [← Bool.not_eq_true, tooShort_iff, Nat.not_lt]

theorem badLength_eq_false {len : BitVec 4} (h : len.toNat ≤ 8) : badLength len = false := by
  simpa [badLength] using h

/-- Out of range, at the default number type. -/
theorem outOfRange_iff {sig : Signal} {v : NUM} :
    outOfRange rational sig v = true ↔ v < sig.minValue ∨ sig.maxValue < v := by
  simp [outOfRange]

theorem outOfRange_eq_false_iff {sig : Signal} {v : NUM} :
    outOfRange rational sig v = false ↔ sig.minValue ≤ v ∧ v ≤ sig.maxValue := by
  simp [outOfRange]

/-- In range, in any total order: below neither bound (00_scope.md R16). -/
theorem outOfRange_of_mem {ν : Type} {N : NumType ν} (hN : N.Ordered) {sig : Signal ν} {v : ν}
    (h : N.le sig.minValue v = true) (h' : N.le v sig.maxValue = true) : outOfRange N sig v = false := by
  rw [outOfRange, hN.lt_eq_false_iff.2 h, hN.lt_eq_false_iff.2 h']
  rfl

/-- Clamping a value that is in range changes nothing (00_scope.md R18). -/
theorem clampNum_of_mem {ν : Type} {N : NumType ν} (hN : N.Ordered) {v lo hi : ν} (h : N.le lo v = true)
    (h' : N.le v hi = true) : clampNum N v lo hi = v := by
  simp [clampNum, hN.lt_eq_false_iff.2 h, hN.lt_eq_false_iff.2 h']

/-- Rounding an integer gives it back, whatever the tie rule (00_scope.md R17). -/
theorem roundNum_intCast (ties : RoundTies) (n : Int) : roundNum ties (n : NUM) = n := by
  have h : (n : ℚ).floor = n := Rat.floor_intCast n
  simp [roundNum, h]

/-- An installed message record is the one that `messageAt` reads. -/
theorem messageAt_installed {s : State} {m : BitVec 8} {msg : Message} (h : Installed s m.toNat msg) :
    messageAt s.toHeld m = .ok msg := messageAt_ok_iff.2 h

/-- An installed signal record is the one that `signalAt` reads. -/
theorem signalAt_installed {s : State} {m : BitVec 8} {k : BitVec 6} {sig : Signal}
    (h : InstalledSignal s m.toNat k.toNat sig) : signalAt s.toHeld m k = .ok sig := by
  obtain ⟨ht, hm, hs⟩ := h
  obtain ⟨msg, hmsg, hsig⟩ := Option.bind_eq_some_iff.1 hs
  exact signalAt_ok_iff.2 ⟨msg, messageAt_installed ⟨ht, hm, hmsg⟩, hsig⟩

/-- Under the invariant the installed messages are the whole table. -/
theorem installedTable_of_inv {ν : Type} {N : NumType ν} {p : Params} {h : Held ν} (hi : Held.Inv N p h)
    (ht : h.tvalid = true) : installedTable h = .ok h.table := by
  rw [installedTable_operational ht, (hi.1 ht).1, List.take_length]

/-- Under the invariant an installed record is valid, and its index fits the field `M`. -/
theorem installed_of_inv {s : State} {m : Nat} {msg : Message} (h : State.Inv s) (hi : Installed s m msg) :
    messageValid rational msg ∧ m < 256 := by
  obtain ⟨hn, hlen, hv, -⟩ := h.1 hi.1
  have hmax := s.params.nMsgMax.isLt
  have hm := hi.2.1
  exact ⟨hv msg (List.mem_of_getElem? hi.2.2), by omega⟩

/-- A signal of a valid message lies inside the payload and inside the message's own bytes. -/
theorem messageValid.inside {ν : Type} {N : NumType ν} {msg : Message ν} (h : messageValid N msg) {sig : Signal ν}
    (hs : sig ∈ msg.sig) :
    1 ≤ sigLen sig ∧ fieldInside sig ∧ sigStart sig + sigLen sig ≤ 8 * msg.dlc.val ∧
      isZero N sig.scale = false := by
  obtain ⟨hlen, -, hplace, hscale, -⟩ := h.2.2.1 sig hs
  have hdlc := h.1
  exact ⟨hlen, show _ ≤ _ by omega, by omega, hscale⟩

/-- Two different signals of a valid message share no cell. -/
theorem messageValid.disjoint {ν : Type} {N : NumType ν} {msg : Message ν} (h : messageValid N msg) {j k : Nat}
    {a b : Signal ν} (hjk : j ≠ k) (ha : msg.sig[j]? = some a) (hb : msg.sig[k]? = some b) : cellsDisjoint a b := by
  have hp := List.pairwise_iff_getElem.1 h.2.2.2
  obtain ⟨hj, rfl⟩ := List.getElem?_eq_some_iff.1 ha
  obtain ⟨hk, rfl⟩ := List.getElem?_eq_some_iff.1 hb
  rcases lt_or_gt_of_ne hjk with hlt | hlt
  · exact (hp j k hj hk hlt).2
  · exact fun c hc hc' => (hp k j hk hj hlt).2 c hc' hc

/-- The scan of the installed messages finds the first that matches. -/
theorem findMatch_take_some {ν : Type} {table : List (Message ν)} {id : Word} {k n : Nat} {msg : Message ν} (hn : k < n)
    (h : table[k]? = some msg) (hm : id &&& msg.idMask = msg.messageId &&& msg.idMask)
    (hl : ∀ j < k, ∀ msg', table[j]? = some msg' → id &&& msg'.idMask ≠ msg'.messageId &&& msg'.idMask) :
    findMatch (table.take n) id = some k := by
  obtain ⟨hk, rfl⟩ := List.getElem?_eq_some_iff.1 h
  rw [findMatch, List.findIdx?_eq_some_iff_getElem]
  refine ⟨by simp; omega, by simpa [matchesId] using hm, fun j hj => ?_⟩
  have := hl j hj table[j] (by simp)
  simpa [matchesId] using this

/-- The scan finds nothing when no installed message matches. -/
theorem findMatch_take_none {s : State} {id : Word} (ht : s.tvalid = true)
    (h : ∀ (k : Nat) (msg : Message), Installed s k msg → id &&& msg.idMask ≠ msg.messageId &&& msg.idMask) :
    findMatch (s.table.take s.nmsg.toNat) id = none := by
  rw [findMatch, List.findIdx?_eq_none_iff]
  intro msg hm
  obtain ⟨k, hk⟩ := List.mem_iff_getElem?.1 hm
  rw [List.getElem?_take] at hk
  split at hk
  · simpa [matchesId] using h k msg ⟨ht, ‹_›, hk⟩
  · cases hk

/-- Decoding a message whose every signal the frame contains. -/
theorem decodeMessage_of_long {ν : Type} (N : NumType ν) {m : BitVec 8} {msg : Message ν} {len : BitVec 4}
    {pay : Payload} (h : ∀ sig ∈ msg.sig, sigStart sig + sigLen sig ≤ 8 * len.toNat) :
    decodeMessage N m msg len pay =
      { okResponse N with
        vals := lanes (numZero N) (msg.sig.map fun sig => decodeValue N sig pay)
        vfl := lanes noFlags (msg.sig.map fun sig => decodeFlags N sig (decodeValue N sig pay)) } := by
  have hn : msg.sig.findIdx? (tooShort len) = none :=
    List.findIdx?_eq_none_iff.2 fun sig hs => tooShort_eq_false_iff.2 (h sig hs)
  simp [decodeMessage, hn]

/-- The flags of the loop of ENCALL: each signal's own, whatever the buffer. -/
theorem encodeLoop_flags {ν : Type} (N : NumType ν) (p : Params) (xs : List (Signal ν × ν)) (pay : Payload) :
    (encodeLoop N p xs pay).2 = xs.map fun sv => encodeFlags N sv.1 sv.2 (encodeRaw N p sv.1 sv.2) := by
  induction xs generalizing pay with
  | nil => rfl
  | cons x xs ih => simp only [encodeLoop, List.map_cons, ih, encodeClamped]

/-- The buffer of the loop of ENCALL: a fold of `encode`. -/
theorem encodeLoop_pay {ν : Type} (N : NumType ν) (p : Params) (xs : List (Signal ν × ν)) (pay : Payload) :
    (encodeLoop N p xs pay).1 = xs.foldl (fun pay sv => (encodeClamped N p sv.1 sv.2 pay).1) pay := by
  induction xs generalizing pay with
  | nil => rfl
  | cons x xs ih => simp only [encodeLoop, List.foldl_cons, ih]

/-- The value that belongs to a signal index. -/
theorem assignments_getElem? {ν : Type} {msg : Message ν} {j : Nat} {sig : Signal ν} (vals : Vector ν 64) (h : j < 64)
    (hs : msg.sig[j]? = some sig) : (assignments msg vals)[j]? = some (sig, vals[j]) := by
  simp [assignments, List.getElem?_zip_eq_some, hs, h]

/-- Nothing is rejected when every value is in range, or under the clamp policy. -/
theorem firstRejected_eq_none {pol : Policy} {msg : Message} {vals : Vector NUM 64}
    (h : pol = .reject → ∀ (j : Nat) (sig : Signal) (v : NUM), msg.sig[j]? = some sig → vals[j]? = some v →
      sig.minValue ≤ v ∧ v ≤ sig.maxValue) : firstRejected rational pol msg vals = none := by
  cases pol with
  | clamp => rfl
  | reject =>
    refine List.findIdx?_eq_none_iff.2 fun x hx => ?_
    obtain ⟨j, hj⟩ := List.mem_iff_getElem?.1 hx
    rw [assignments, List.getElem?_zip_eq_some] at hj
    exact outOfRange_eq_false_iff.2 (h rfl j x.1 x.2 hj.1 (by simpa using hj.2))

/-- A run of one more step. -/
theorem run_succ {k : Nat} {s t : State} (h : step s = .next t) :
    Host.Core.run Sys2Proof.core (k + 1) s = Host.Core.run Sys2Proof.core k t := by
  have h' : Sys2Proof.core.step s = .next t := h
  simp only [Host.Core.run]
  rw [h']

end Sys2Proof.Machine
end

