-- ==== Sys2Proof/Laws/Payload.lean ====
section
/-! SUPPORT. The payload bit space: what `cell`, `extract` and `insert` do, said once. -/

namespace Sys2Proof.Machine

open Sys2Proof

@[simp] theorem cell_fst (order : ByteOrder) (p : Nat) : (cell order p).1 = p / 8 := by
  cases order <;> rfl

theorem cell_snd_lt (order : ByteOrder) (p : Nat) : (cell order p).2 < 8 := by
  cases order <;> simp only [cell] <;> omega

/-- `cell(order, .)` is one-to-one (20_memory.md R46). -/
theorem cell_injective {order : ByteOrder} {p q : Nat} (h : cell order p = cell order q) : p = q := by
  cases order <;> simp only [cell, Prod.mk.injEq] at h <;> omega

theorem weight_lt {order : ByteOrder} {n i : Nat} (h : i < n) : weight order n i < n := by
  cases order <;> simp only [weight] <;> omega

theorem weight_injective {order : ByteOrder} {n i j : Nat} (hi : i < n) (hj : j < n)
    (h : weight order n i = weight order n j) : i = j := by
  cases order <;> simp only [weight] at h <;> omega

/-- Every bit of a field is carried by one of its positions. -/
theorem weight_surjective (order : ByteOrder) {n j : Nat} (h : j < n) : ∃ i < n, weight order n i = j := by
  cases order
  · exact ⟨j, h, rfl⟩
  · exact ⟨n - 1 - j, by omega, by simp only [weight]; omega⟩

/-- Reading a cell of an existing byte. -/
theorem cellBit_of_lt (pay : Payload) (b k : Nat) (h : b < 8) : cellBit pay (b, k) = pay[b].getLsbD k := by
  simp [cellBit, h]

/-- Two payloads are equal when all their 64 cells are. -/
theorem payload_ext {p q : Payload} (h : ∀ b < 8, ∀ k < 8, cellBit p (b, k) = cellBit q (b, k)) : p = q := by
  apply Vector.ext
  intro b hb
  apply BitVec.eq_of_getLsbD_eq
  intro k hk
  simpa [cellBit_of_lt, hb] using h b hb k hk

/-- What a cell of the result of `insert` holds. -/
theorem cellBit_insert {ν : Type} (sig : Signal ν) (w : Nat) (pay : Payload) (b k : Nat) (hb : b < 8) (hk : k < 8) :
    cellBit (insert sig w pay) (b, k) = insertedBit sig w pay (b, k) := by
  rw [cellBit_of_lt _ _ _ hb]
  simp [insert, hk]

/-- In a cell of the field, `insert` leaves the field's bit of `w`. -/
theorem insertedBit_inside {ν : Type} {sig : Signal ν} {i : Nat} (h : i < sigLen sig) (w : Nat) (pay : Payload) :
    insertedBit sig w pay (sigCell sig i) = w.testBit (weight sig.byteOrder (sigLen sig) i) := by
  have hf : (List.range (sigLen sig)).find? (fun j => sigCell sig j == sigCell sig i) = some i := by
    rw [List.find?_range_eq_some]
    refine ⟨by simp, by simpa using h, fun j hj => ?_⟩
    have : sigCell sig j ≠ sigCell sig i := fun e => by
      have := cell_injective e
      omega
    simp [this]
  simp [insertedBit, hf]

/-- In a cell that is not the field's, `insert` leaves the buffer's own bit. -/
theorem insertedBit_outside {ν : Type} {sig : Signal ν} {c : Nat × Nat} (h : c ∉ cells sig) (w : Nat) (pay : Payload) :
    insertedBit sig w pay c = cellBit pay c := by
  have hf : (List.range (sigLen sig)).find? (fun j => sigCell sig j == c) = none := by
    simp only [List.find?_range_eq_none]
    intro i hi
    have : sigCell sig i ≠ c := fun e => h (e ▸ List.mem_map_of_mem (by simpa using hi))
    simpa using this
  simp [insertedBit, hf]

theorem mem_cells {ν : Type} {sig : Signal ν} {c : Nat × Nat} :
    c ∈ cells sig ↔ ∃ i < sigLen sig, sigCell sig i = c := by
  simp [cells]

/-- A sum of distinct powers of two, bit by bit. -/
theorem sum_range_two_pow (f : Nat → Bool) (n : Nat) :
    (∑ i ∈ Finset.range n, (f i).toNat * 2 ^ i) < 2 ^ n ∧
    ∀ j < n, (∑ i ∈ Finset.range n, (f i).toNat * 2 ^ i).testBit j = f j := by
  induction n with
  | zero => simp
  | succ n ih =>
    obtain ⟨hlt, hbit⟩ := ih
    rw [Finset.sum_range_succ]
    refine ⟨by cases f n <;> simp [Nat.pow_succ] <;> omega, fun j hj => ?_⟩
    rw [Nat.add_comm, Nat.mul_comm, Nat.testBit_two_pow_mul_add _ hlt]
    split
    · exact hbit j ‹_›
    · obtain rfl : j = n := by omega
      cases f j <;> simp

/-- A list's sum over a range is the sum over the range. -/
theorem sum_map_range (f : Nat → Nat) (n : Nat) : ((List.range n).map f).sum = ∑ i ∈ Finset.range n, f i := by
  induction n with
  | zero => rfl
  | succ n ih => simp [List.range_succ, Finset.sum_range_succ, ih]

/-- `extract` is below `2^n` (20_memory.md R45), and its bit at each position's weight is the payload bit there. -/
theorem extract_spec {ν : Type} (sig : Signal ν) (pay : Payload) :
    extract sig pay < 2 ^ sigLen sig ∧
    ∀ i < sigLen sig, (extract sig pay).testBit (weight sig.byteOrder (sigLen sig) i) =
      payBit pay sig.byteOrder (sigStart sig + i) := by
  have hsum : extract sig pay = ∑ i ∈ Finset.range (sigLen sig),
      (payBit pay sig.byteOrder (sigStart sig + weight sig.byteOrder (sigLen sig) i)).toNat * 2 ^ i := by
    rw [extract, sum_map_range]
    cases sig.byteOrder
    · rfl
    · rw [← Finset.sum_range_reflect]
      refine Finset.sum_congr rfl fun i hi => ?_
      have hi := Finset.mem_range.mp hi
      have : sigLen sig - 1 - (sigLen sig - 1 - i) = i := by omega
      simp only [weight, this]
  obtain ⟨hlt, hbit⟩ := sum_range_two_pow
    (fun i => payBit pay sig.byteOrder (sigStart sig + weight sig.byteOrder (sigLen sig) i)) (sigLen sig)
  refine ⟨hsum ▸ hlt, fun i hi => ?_⟩
  rw [hsum, hbit _ (weight_lt hi)]
  congr 2
  cases sig.byteOrder
  · rfl
  · simp only [weight]; omega

/-- A number below `2^n` is determined by its bits at the weights of the field's positions. -/
theorem eq_of_testBit_weight {order : ByteOrder} {n u v : Nat} (hu : u < 2 ^ n) (hv : v < 2 ^ n)
    (h : ∀ i < n, u.testBit (weight order n i) = v.testBit (weight order n i)) : u = v := by
  apply Nat.eq_of_testBit_eq
  intro j
  by_cases hj : j < n
  · obtain ⟨i, hi, rfl⟩ := weight_surjective order hj
    exact h i hi
  · have hp : 2 ^ n ≤ 2 ^ j := Nat.pow_le_pow_right (by decide) (by omega)
    rw [Nat.testBit_lt_two_pow (by omega), Nat.testBit_lt_two_pow (by omega)]

end Sys2Proof.Machine
end

