-- ==== Sys2Proof/Laws/PerInstr.lean ====
section
/-! SUPPORT. The statements made of every operation, one lemma per constructor: the word of an operation selects the operation's own row of the map of 30_encoding.md R72. -/

namespace Sys2Proof.Laws.EncodingSelectsItsRow

open Sys2Proof

/-- The command word of an operation selects the row of its mnemonic. -/
def Statement (i : Instr) : Prop :=
  ∃ row ∈ operationMap, row.mnemonic = i.mnemonic ∧ row.selects (encode i) = true

/-- Masking a command word of the one format (30_encoding.md R70) field by field. -/
theorem commandWord_masked (op o : BitVec 4) (pol p : BitVec 1) (m mm : BitVec 8) (s ss : BitVec 6) (a : BitVec 11)
    (b : BitVec 2) :
    commandWord op pol m s &&& (o ++ p ++ a ++ mm ++ b ++ ss) =
      (op &&& o) ++ (pol &&& p) ++ 0#11 ++ (m &&& mm) ++ 0#2 ++ (s &&& ss) := by
  have h1 : (0#11 : BitVec 11) = 0#11 &&& a := by simp
  have h2 : (0#2 : BitVec 2) = 0#2 &&& b := by simp
  show @HAnd.hAnd (BitVec (4 + 1 + 11 + 8 + 2 + 6)) (BitVec (4 + 1 + 11 + 8 + 2 + 6))
    (BitVec (4 + 1 + 11 + 8 + 2 + 6)) _ (op ++ pol ++ 0#11 ++ m ++ 0#2 ++ s) (o ++ p ++ a ++ mm ++ b ++ ss) = _
  rw [BitVec.and_append, BitVec.and_append, BitVec.and_append, BitVec.and_append, BitVec.and_append, ← h1, ← h2]

theorem build : Statement .build := ⟨⟨.BUILD, 0x10000000#32, 0xFFFFFFFF#32⟩, by simp [operationMap], rfl, by decide⟩
theorem find : Statement .find := ⟨⟨.FIND, 0x20000000#32, 0xFFFFFFFF#32⟩, by simp [operationMap], rfl, by decide⟩
theorem rxf : Statement .rxf := ⟨⟨.RXF, 0x70000000#32, 0xFFFFFFFF#32⟩, by simp [operationMap], rfl, by decide⟩
theorem stat : Statement .stat := ⟨⟨.STAT, 0x90000000#32, 0xFFFFFFFF#32⟩, by simp [operationMap], rfl, by decide⟩

theorem dec (m : BitVec 8) (s : BitVec 6) : Statement (.dec m s) := by
  refine ⟨⟨.DEC, 0x30000000#32, 0xFFFF00C0#32⟩, by simp [operationMap], rfl, ?_⟩
  have h := commandWord_masked 0x3#4 0xF#4 0#1 1#1 m 0#8 s 0#6 0x7FF#11 3#2
  simpa [MapRow.selects, encode] using h

theorem enc (pol : Policy) (m : BitVec 8) (s : BitVec 6) : Statement (.enc pol m s) := by
  refine ⟨⟨.ENC, 0x40000000#32, 0xF7FF00C0#32⟩, by simp [operationMap], rfl, ?_⟩
  have h := commandWord_masked 0x4#4 0xF#4 (polBit pol) 0#1 m 0#8 s 0#6 0x7FF#11 3#2
  simpa [MapRow.selects, encode] using h

theorem decall (m : BitVec 8) : Statement (.decall m) := by
  refine ⟨⟨.DECALL, 0x50000000#32, 0xFFFF00FF#32⟩, by simp [operationMap], rfl, ?_⟩
  have h := commandWord_masked 0x5#4 0xF#4 0#1 1#1 m 0#8 0#6 0x3F#6 0x7FF#11 3#2
  simpa [MapRow.selects, encode] using h

theorem encall (pol : Policy) (m : BitVec 8) : Statement (.encall pol m) := by
  refine ⟨⟨.ENCALL, 0x60000000#32, 0xF7FF00FF#32⟩, by simp [operationMap], rfl, ?_⟩
  have h := commandWord_masked 0x6#4 0xF#4 (polBit pol) 0#1 m 0#8 0#6 0x3F#6 0x7FF#11 3#2
  simpa [MapRow.selects, encode] using h

theorem txf (pol : Policy) (m : BitVec 8) : Statement (.txf pol m) := by
  refine ⟨⟨.TXF, 0x80000000#32, 0xF7FF00FF#32⟩, by simp [operationMap], rfl, ?_⟩
  have h := commandWord_masked 0x8#4 0xF#4 (polBit pol) 0#1 m 0#8 0#6 0x3F#6 0x7FF#11 3#2
  simpa [MapRow.selects, encode] using h

theorem getm (m : BitVec 8) : Statement (.getm m) := by
  refine ⟨⟨.GETM, 0xA0000000#32, 0xFFFF00FF#32⟩, by simp [operationMap], rfl, ?_⟩
  have h := commandWord_masked 0xA#4 0xF#4 0#1 1#1 m 0#8 0#6 0x3F#6 0x7FF#11 3#2
  simpa [MapRow.selects, encode] using h

theorem gets (m : BitVec 8) (s : BitVec 6) : Statement (.gets m s) := by
  refine ⟨⟨.GETS, 0xB0000000#32, 0xFFFF00C0#32⟩, by simp [operationMap], rfl, ?_⟩
  have h := commandWord_masked 0xB#4 0xF#4 0#1 1#1 m 0#8 s 0#6 0x7FF#11 3#2
  simpa [MapRow.selects, encode] using h

end Sys2Proof.Laws.EncodingSelectsItsRow
end

