-- ==== Sys2Proof/Laws/Table.lean ====
section
/-! SUPPORT. The loops of `first_violation` (41_table_build.md R136), said once. -/

namespace Sys2Proof.Machine

open Sys2Proof

/-- A single loop finds nothing exactly when the check fires nowhere. -/
theorem firstFault_eq_none {α β : Type} {check : Nat → α → Option β} {base : Nat} {xs : List α} :
    firstFault check base xs = none ↔ ∀ (j : Nat) (x : α), xs[j]? = some x → check (base + j) x = none := by
  induction xs generalizing base with
  | nil => simp [firstFault]
  | cons x xs ih =>
    cases hc : check base x with
    | some v =>
      simp only [firstFault, hc, reduceCtorEq, false_iff, not_forall]
      exact ⟨0, x, rfl, by simp [hc]⟩
    | none =>
      simp only [firstFault, hc, ih]
      constructor
      · rintro h (_ | j) y hy
        · obtain rfl : x = y := by simpa using hy
          exact hc
        · have := h j y (by simpa using hy)
          rwa [show base + (j + 1) = base + 1 + j by omega]
      · intro h j y hy
        have := h (j + 1) y (by simpa using hy)
        rwa [show base + 1 + j = base + (j + 1) by omega]

/-- What a single loop reports is what the check reports at some element. -/
theorem firstFault_eq_some {α β : Type} {check : Nat → α → Option β} {base : Nat} {xs : List α} {v : β}
    (h : firstFault check base xs = some v) :
    ∃ (j : Nat) (x : α), xs[j]? = some x ∧ check (base + j) x = some v := by
  induction xs generalizing base with
  | nil => simp [firstFault] at h
  | cons x xs ih =>
    cases hc : check base x with
    | some u =>
      simp only [firstFault, hc] at h
      exact ⟨0, x, rfl, by simpa [hc] using h⟩
    | none =>
      simp only [firstFault, hc] at h
      obtain ⟨j, y, hj, hv⟩ := ih h
      exact ⟨j + 1, y, by simpa using hj, by rwa [show base + (j + 1) = base + 1 + j by omega]⟩

/-- A double loop finds nothing exactly when no pair is bad. -/
theorem firstPair_eq_none {α : Type} {bad : α → α → Bool} {base : Nat} {xs : List α} :
    firstPair bad base xs = none ↔ xs.Pairwise fun a b => bad a b = false := by
  induction xs generalizing base with
  | nil => simp [firstPair]
  | cons x xs ih =>
    cases hf : xs.findIdx? (bad x) with
    | some k =>
      simp only [firstPair, hf, reduceCtorEq, List.pairwise_cons, false_iff, not_and]
      intro h
      obtain ⟨hk, hb, -⟩ := List.findIdx?_eq_some_iff_getElem.mp hf
      have := h _ (List.getElem_mem hk)
      simp [this] at hb
    | none =>
      rw [List.findIdx?_eq_none_iff] at hf
      simp only [firstPair, List.findIdx?_eq_none_iff.mpr hf, ih, List.pairwise_cons]
      exact ⟨fun h => ⟨hf, h⟩, fun h => h.2⟩

/-- The pair that a double loop reports is a pair of the list, in order, and bad. -/
theorem firstPair_eq_some {α : Type} {bad : α → α → Bool} {base : Nat} {xs : List α} {i j : Nat}
    (h : firstPair bad base xs = some (i, j)) :
    base ≤ i ∧ i < j ∧ ∃ a b, xs[i - base]? = some a ∧ xs[j - base]? = some b ∧ bad a b = true := by
  induction xs generalizing base with
  | nil => simp [firstPair] at h
  | cons x xs ih =>
    cases hf : xs.findIdx? (bad x) with
    | some k =>
      obtain ⟨hk, hb, -⟩ := List.findIdx?_eq_some_iff_getElem.mp hf
      simp only [firstPair, hf, Option.some.injEq, Prod.mk.injEq] at h
      obtain ⟨rfl, rfl⟩ := h
      refine ⟨Nat.le_refl _, by omega, x, xs[k], by simp, ?_, hb⟩
      rw [show base + 1 + k - base = k + 1 by omega]
      simp [hk]
    | none =>
      simp only [firstPair, hf] at h
      obtain ⟨hi, hij, a, b, ha, hb, hbad⟩ := ih h
      refine ⟨by omega, hij, a, b, ?_, ?_, hbad⟩
      · rw [show i - base = i - (base + 1) + 1 by omega]; simpa using ha
      · rw [show j - base = j - (base + 1) + 1 by omega]; simpa using hb

end Sys2Proof.Machine
end

