-- ==== Sys2Proof/Tests/Slice0.lean ====
section
/-! SUPPORT. Tests: the well-formedness checks, the command words, vectors of 95_test_vectors.md, and for each statement with hypotheses a witness that meets them. Every expected value is the specification's own or worked out by hand from its rules. -/

namespace Sys2Proof.Tests

open Sys2Proof Sys2Proof.Machine

/-! ## The fixture table T1 (95_test_vectors.md, section 0) -/

/-- A signal of a table image. -/
def raw (order : ByteOrder) (start : Fin 64) (len : Fin 128) (signed : Bool) (scale offset lo hi : NUM) : RawSignal :=
  ⟨⟨start, len, order, signed, scale, offset, lo, hi⟩, false⟩

/-- An unsigned signal of scale 1 and offset 0 over its whole raw range. -/
def field (order : ByteOrder) (start : Fin 64) (len : Fin 128) : RawSignal :=
  raw order start len false 1 0 0 (2 ^ len.val - 1)

def stateMessage : RawMessage := ⟨0x101#32, 0xFFFFFFFF#32, 1, [field .le 0 8], false⟩

def servoMessage : RawMessage :=
  ⟨0x201#32, 0x7FF#32, 8, [field .le 0 16, field .le 16 16, field .le 32 16, field .le 48 16], false⟩

def hbridgeMessage : RawMessage :=
  ⟨0x301#32, 0x7FF#32, 3, [field .le 0 16, field .le 16 1, field .le 17 1], false⟩

def be12s : RawSignal := raw .be 4 12 true 1 0 (-2048) 2047
def half : RawSignal := raw .le 16 8 false (1 / 2) (-40) (-40) (175 / 2)
def wide : RawSignal := raw .le 24 8 true 1 0 (-200) 200

def fixtureMessage : RawMessage := ⟨0x400#32, 0x7F0#32, 4, [be12s, half, wide], false⟩

def tableT1 : Image := ⟨[stateMessage, servoMessage, hbridgeMessage, fixtureMessage], false⟩

/-- One message of `dlc` 2 with the given signals (95_test_vectors.md, section 5). -/
def oneMessage (sigs : List RawSignal) : Image := ⟨[⟨0x010#32, 0x7FF#32, 2, sigs, false⟩], false⟩

def overlapping : Image := oneMessage [field .le 0 8, field .le 4 8]

def corrected : Image := oneMessage [field .le 0 8, field .le 8 8]

/-- The request of one line of assembly, at the default number type. -/
def line (a : Asm) : Request := asmRequest rational a

/-- An UNBUILT block with one request at its interface. -/
def unbuilt (r : Request) : State := { State.reset with pending := [.request r] }

/-- An OPERATIONAL block with T1 installed and the given events at its interface. -/
def operational (events : List Event) : State :=
  { State.reset with tvalid := true, nmsg := 4#9, table := installedRecords tableT1, pending := events }

/-- T1 installed and the request of one line of assembly. -/
def withLine (a : Asm) : State := operational [.request (line a)]

/-- The response after a step. -/
def response (o : Result) : Response :=
  match o with
  | .next t => t.rsp.getD (okResponse rational)
  | .fault f => nomatch f
  | .refused _ => okResponse rational

/-! ## WellFormed: ill-formed terms are refused -/

theorem test_wellformed_accepts : tableT1.wellFormed = true := by decide

/-- 512 messages: one more than the raw domain of `nmsg` (30_encoding.md R80). -/
theorem test_wellformed_refuses_512_messages :
    Image.nmsgInDomain (ν := NUM) ⟨List.replicate 512 ⟨0#32, 0#32, 0, [], false⟩, false⟩ = false := by
  rw [Image.nmsgInDomain, List.length_replicate]
  decide

/-- 128 signals: one more than the raw domain of `nsig` (30_encoding.md R80). -/
theorem test_wellformed_refuses_128_signals :
    RawMessage.nsigInDomain ⟨0#32, 0#32, 8, List.replicate 128 (field .le 0 1), false⟩ = false := by
  rw [RawMessage.nsigInDomain, List.length_replicate]
  decide

theorem test_wellformed_image_refuses_128_signals :
    Image.wellFormed ⟨[⟨0#32, 0#32, 8, List.replicate 128 (field .le 0 1), false⟩], false⟩ = false := by
  rw [Image.wellFormed]
  simp only [List.all_cons, RawMessage.nsigInDomain, List.length_replicate]
  decide

/-! ## Command words, written out from 30_encoding.md R70 and R72 -/

theorem test_decode_build : decode 0b00010000000000000000000000000000#32 = .ok .build := by decide
theorem test_decode_find : decode 0b00100000000000000000000000000000#32 = .ok .find := by decide
theorem test_decode_dec : decode 0b00110000000000000000000100000011#32 = .ok (.dec 1#8 3#6) := by decide
theorem test_decode_enc : decode 0b01001000000000000000001000000001#32 = .ok (.enc .reject 2#8 1#6) := by decide
theorem test_decode_decall : decode 0b01010000000000000000001100000000#32 = .ok (.decall 3#8) := by decide
theorem test_decode_encall : decode 0b01100000000000001111111100000000#32 = .ok (.encall .clamp 255#8) := by decide
theorem test_decode_rxf : decode 0b01110000000000000000000000000000#32 = .ok .rxf := by decide
theorem test_decode_txf : decode 0b10001000000000000000001100000000#32 = .ok (.txf .reject 3#8) := by decide
theorem test_decode_stat : decode 0b10010000000000000000000000000000#32 = .ok .stat := by decide
theorem test_decode_getm : decode 0b10100000000000000000000100000000#32 = .ok (.getm 1#8) := by decide
theorem test_decode_gets : decode 0b10110000000000000000001000111111#32 = .ok (.gets 2#8 63#6) := by decide

/-- 30_encoding.md R73, each reason once. -/
theorem test_decode_refuses :
    decode 0x00000000#32 = .error .opcode ∧ decode 0xF0000000#32 = .error .opcode ∧
    decode 0x30010000#32 = .error .reservedBits ∧ decode 0x30000040#32 = .error .reservedBits ∧
    decode 0x38000000#32 = .error .policyBit ∧ decode 0x90000100#32 = .error .messageIndex ∧
    decode 0x50000001#32 = .error .signalIndex := by decide

theorem test_encode_words :
    encode (.enc .reject 2#8 1#6) = 0x48000201#32 ∧ encode (.txf .clamp 3#8) = 0x80000300#32 ∧
    encode (.gets 0#8 1#6) = 0xB0000001#32 := by decide

theorem test_decodeTableWord : decodeTableWord 32 0x30000103 = some (.dec 1#8 3#6) := by decide

theorem test_withFetchWord :
    (step (State.reset.withFetchWord 32 0x90000000)) =
      exec .stat (State.reset.withFetchWord 32 0x90000000) := by rfl

/-! ## The payload bit space (95_test_vectors.md, section 2: X3, X4, X8, I2, I5, I7) -/

theorem test_extract :
    extract (field .le 4 12).record (payloadOf [0xAB#8, 0xCD#8]) = 3290 ∧
    extract (field .be 4 12).record (payloadOf [0xAB#8, 0xCD#8]) = 3021 ∧
    extract (field .be 6 5).record (payloadOf [0x03#8, 0xE0#8]) = 31 := by decide +kernel

theorem test_insert :
    insert (field .be 4 4).record 5 (payloadOf (List.replicate 8 0xFF#8)) =
      payloadOf (0xF5#8 :: List.replicate 7 0xFF#8) ∧
    insert (field .le 6 5).record 31 zeroPayload = payloadOf [0xC0#8, 0x07#8] ∧
    insert (field .be 4 12).record 0xBCD (payloadOf [0xA0#8]) = payloadOf [0xAB#8, 0xCD#8] := by decide +kernel

/-- 00_scope.md R17, with the even results of 95_test_vectors.md section 3. -/
theorem test_round :
    roundNum .away (5 / 2) = 3 ∧ roundNum .away (-5 / 2) = -3 ∧ roundNum .away (123 / 10) = 12 ∧
    roundNum .away (-2 / 5) = 0 ∧ roundNum .even (5 / 2) = 2 ∧ roundNum .even (-5 / 2) = -2 := by decide +kernel

/-! ## The operations, vectors of 95_test_vectors.md -/

/-- B1: the two signals overlap, and nothing is installed. -/
theorem test_build_overlap :
    response (exec .build (unbuilt (line (.build overlapping)))) =
      { okResponse rational with st := .tableInvalid, sub := some .overlap, aux := 1#8 } := by decide +kernel

/-- P1: BUILD T1, then LOCKED. -/
theorem test_build_t1 :
    response (exec .build (unbuilt (line (.build tableT1)))) = okResponse rational ∧
    (response (exec .build (withLine (.build tableT1)))).st = .locked := by decide +kernel

/-- F3, F9. -/
theorem test_find :
    response (exec .find (withLine (.find 0x80000201#32))) = { okResponse rational with m := 1#8 } ∧
    (response (exec .find (withLine (.find 0x500#32)))).st = .notFound := by decide +kernel

/-- P1 line 13: a signal that a short frame contains. -/
theorem test_dec :
    response (exec (.dec 1#8 2#6) (withLine (.dec 1#8 2#6 6#4 [1#8, 0#8, 2#8, 0#8, 3#8, 0#8]))) =
      { okResponse rational with v := 3 } := by decide +kernel

/-- P1 line 12: PAYLOAD_TOO_SHORT. -/
theorem test_dec_short :
    response (exec (.dec 1#8 3#6) (withLine (.dec 1#8 3#6 6#4 [1#8, 0#8, 2#8, 0#8, 3#8, 0#8]))) =
      { okResponse rational with st := .payloadTooShort, m := 1#8, s := 3#6 } := by decide +kernel

/-- P3 lines 9 and 7: a big-endian field into ones, and the clamp. -/
theorem test_enc :
    (response (exec (.enc .clamp 3#8 0#6)
      (withLine (.enc none 3#8 0#6 0 (List.replicate 8 0xFF#8))))).pay =
        payloadOf (0xF0#8 :: 0x00#8 :: List.replicate 6 0xFF#8) ∧
    response (exec (.enc .clamp 2#8 1#6) (withLine (.enc none 2#8 1#6 2 [0xE8#8, 3#8, 2#8]))) =
      { okResponse rational with
        pay := payloadOf [0xE8#8, 3#8, 3#8], fl := { rovf := false, clamped := true, oor := false } } := by
  decide +kernel

/-- P3 line 6: the reject policy. -/
theorem test_enc_reject :
    response (exec (.enc .reject 2#8 1#6) (withLine (.enc (some .reject) 2#8 1#6 2 [0xE8#8, 3#8, 2#8]))) =
      { okResponse rational with st := .valueOutOfRange, m := 2#8, s := 1#6 } := by decide +kernel

/-- S2, and P2's last line. -/
theorem test_decall :
    (response (exec (.decall 1#8)
      (withLine (.decall 1#8 8#4 [1#8, 0#8, 2#8, 0#8, 3#8, 0#8, 4#8, 0#8])))).vals = lanes 0 [1, 2, 3, 4] ∧
    response (exec (.decall 3#8) (withLine (.decall 3#8 2#4 [0xAB#8, 0xCD#8]))) =
      { okResponse rational with st := .payloadTooShort, m := 3#8, s := 1#6 } := by decide +kernel

/-- P3 line 8. -/
theorem test_encall :
    response (exec (.encall .clamp 2#8) (withLine (.encall none 2#8 [1000, 1, 1]))) =
      { okResponse rational with pay := payloadOf [0xE8#8, 3#8, 3#8], len := 3#4 } := by decide +kernel

/-- P2 line 11. -/
theorem test_rxf :
    response (exec .rxf (withLine (.rxf 0x40F#32 4#4 [0xAB#8, 0xCD#8, 0x64#8, 0x9C#8]))) =
      { okResponse rational with m := 3#8, vals := lanes 0 [-1075, 10, -100] } := by decide +kernel

/-- P1 lines 8 and 11: a short frame, and `len` 9 refused before the match. -/
theorem test_rxf_refuses :
    response (exec .rxf (withLine (.rxf 0x201#32 7#4 [1#8, 0#8, 2#8, 0#8, 3#8, 0#8, 4#8]))) =
      { okResponse rational with st := .payloadTooShort, m := 1#8, s := 3#6 } ∧
    (response (exec .rxf (withLine (.rxf 0x500#32 9#4 [])))).st = .badLength := by decide +kernel

/-- P2 line 6: two clamps and a raw overflow. -/
theorem test_txf :
    response (exec (.txf .clamp 3#8) (withLine (.txf none 3#8 [5000, -1001 / 10, 200]))) =
      { okResponse rational with
        id := 0x400#32, len := 4#4, pay := payloadOf [0x07#8, 0xFF#8, 0x00#8, 0xC8#8]
        vfl := lanes noFlags
          [⟨false, true, false⟩, ⟨false, true, false⟩, ⟨true, false, false⟩] } := by decide +kernel

/-- P2 line 8: the least failing index. -/
theorem test_txf_reject :
    response (exec (.txf .reject 3#8) (withLine (.txf (some .reject) 3#8 [0, -1001 / 10, 300]))) =
      { okResponse rational with st := .valueOutOfRange, m := 3#8, s := 1#6 } := by decide +kernel

/-- P1 lines 1 and 4. -/
theorem test_stat :
    response (exec .stat (unbuilt (line .stat))) = okResponse rational ∧
    response (exec .stat (withLine .stat)) = { okResponse rational with tvalid := true, nmsg := 4#9 } := by decide +kernel

/-- 41_table_build.md R139's example. -/
theorem test_getm :
    response (exec (.getm 1#8) (withLine (.getm 1#8))) =
      { okResponse rational with msg := ⟨0x201#32, 0x7FF#32, 8, 4⟩ } := by decide +kernel

/-- 41_table_build.md R140's example, and an index that names no signal. -/
theorem test_gets :
    response (exec (.gets 2#8 1#6) (withLine (.gets 2#8 1#6))) =
      { okResponse rational with sig := ⟨16, 1, .le, false, 1, 0, 0, 1⟩ } ∧
    (response (exec (.gets 2#8 3#6) (withLine (.gets 2#8 3#6)))).st = .badIndex := by decide +kernel

/-! ## Witnesses: the hypotheses of each statement are met together -/

/-- What makes a message record valid, in a form that can be decided. -/
def checkedMessage (msg : Message) : Bool :=
  decide (msg.dlc.val ≤ 8) && decide (msg.sig.length ≤ 64) &&
    msg.sig.all (fun sig => decide (1 ≤ sigLen sig) && decide (sigLen sig ≤ 64) &&
      decide (sigStart sig + sigLen sig ≤ msg.dlc.val * 8) && !isZero rational sig.scale &&
      rational.le sig.minValue sig.maxValue) &&
    decide (msg.sig.Pairwise fun a b => sigStart a + sigLen a ≤ sigStart b ∧ ∀ c ∈ cells a, c ∉ cells b)

theorem messageValid_of_checked {msg : Message} (h : checkedMessage msg = true) : messageValid rational msg := by
  simp only [checkedMessage, Bool.and_eq_true, Bool.not_eq_true', decide_eq_true_eq, List.all_eq_true] at h
  obtain ⟨⟨⟨hd, hl⟩, hs⟩, hp⟩ := h
  refine ⟨hd, hl, fun sig hsig => ?_, hp.imp fun hab => ⟨fun p => by omega, hab.2⟩⟩
  obtain ⟨⟨⟨⟨h1, h2⟩, h3⟩, h4⟩, h5⟩ := hs sig hsig
  exact ⟨h1, h2, h3, h4, h5⟩

theorem t1_messages_checked : (installedRecords tableT1).all checkedMessage = true := by decide +kernel

theorem t1_valid : tableValid rational Params.default (installedRecords tableT1) :=
  ⟨by decide, fun msg hm => messageValid_of_checked (List.all_eq_true.1 t1_messages_checked msg hm), by decide⟩

theorem operational_inv (events : List Event) : State.Inv (operational events) :=
  ⟨fun _ => ⟨rfl, t1_valid⟩, fun h => by cases h⟩

theorem t1_installed (events : List Event) :
    Installed (operational events) 1 (installedMessage servoMessage) ∧
    Installed (operational events) 2 (installedMessage hbridgeMessage) ∧
    Installed (operational events) 3 (installedMessage fixtureMessage) := by
  refine ⟨⟨rfl, (by decide : 1 < 4), rfl⟩, ⟨rfl, (by decide : 2 < 4), rfl⟩, ⟨rfl, (by decide : 3 < 4), rfl⟩⟩

/-- A request with the given identifier, length and payload. -/
def frame (id : Word) (len : BitVec 4) (pay : List Byte) : Request := line (.rxf id len pay)

theorem witness_DecoderAccepts : ∃ i, decode 0xB000FF3F#32 = .ok i := ⟨.gets 255#8 63#6, by decide⟩

/-- Each condition of 30_encoding.md R73, at a boundary: the lowest or the highest bit of its field. -/
theorem witness_IllegalCommandWords :
    (unbuilt (bareRequest rational 0xC0000000#32)).pending = .request (bareRequest rational 0xC0000000#32) :: [] ∧
    (0xC0000000#32 : Word) >>> 28 = 0xC#32 ∧ (0x0FFFFFFF#32 : Word) >>> 28 = 0x0#32 ∧
    (0x30000040#32 : Word) &&& 0x07FF00C0#32 ≠ 0#32 ∧ (0x34000000#32 : Word) &&& 0x07FF00C0#32 ≠ 0#32 ∧
    ((0x38000000#32 : Word) &&& 0x08000000#32 ≠ 0#32 ∧ (0x38000000#32 : Word) >>> 28 ≠ 0x4#32 ∧
      (0x38000000#32 : Word) >>> 28 ≠ 0x6#32 ∧ (0x38000000#32 : Word) >>> 28 ≠ 0x8#32) ∧
    ((0x10000100#32 : Word) &&& 0x0000FF00#32 ≠ 0#32 ∧ (0x10000100#32 : Word) >>> 28 = 0x1#32) ∧
    ((0x50000020#32 : Word) &&& 0x0000003F#32 ≠ 0#32 ∧ (0x50000020#32 : Word) >>> 28 ≠ 0x3#32 ∧
      (0x50000020#32 : Word) >>> 28 ≠ 0x4#32 ∧ (0x50000020#32 : Word) >>> 28 ≠ 0xB#32) := by
  refine ⟨rfl, ?_⟩
  decide

/-- A format that holds the integers of `w` bits. -/
def integerFormat (w : Nat) : NumFormat NUM :=
  { width := w, toBits := fun q => BitVec.ofInt w q.num, ofBits := fun b => (b.toInt : NUM) }

/-- 30_encoding.md R81: least significant word first, with a number that ends inside its last word. -/
theorem test_packNumber :
    packNumber (integerFormat 40) 0x0102030405 = [0x02030405#32, 0x01#32] ∧
    packNumber (integerFormat 64) (-2) = [0xFFFFFFFE#32, 0xFFFFFFFF#32] ∧
    unpackNumber (integerFormat 40) [0x02030405#32, 0x01#32] = 0x0102030405 := by decide +kernel

/-- 30_encoding.md R81: a little-endian unsigned field of one bit at 17, and a signed big-endian field of 12 bits at 4. -/
theorem test_packSG0 :
    packSG0 (field .le 17 1).record = 0x00000111#32 ∧ packSG0 be12s.record = 0x00030C04#32 ∧
    packMH2 8 4 = 0x00000048#32 := by decide +kernel

theorem witness_PackedImageReadsBack :
    corrected.wellFormed = true ∧ noReservedBit corrected ∧ imageHeldExactly (integerFormat 40) corrected := by
  refine ⟨by decide, ⟨rfl, by decide⟩, ?_⟩
  unfold imageHeldExactly holdsExactly integerFormat
  decide +kernel

/-- A check that holds at every element of a list with its index. -/
theorem forall_of_zipIdx {α : Type} {P : Nat → α → Bool} {xs : List α} (h : (xs.zipIdx.all fun x => P x.2 x.1) = true)
    (j : Nat) (x : α) (hx : xs[j]? = some x) : P j x = true :=
  List.all_eq_true.1 h (x, j) (List.mk_mem_zipIdx_iff_getElem?.2 hx)

/-- A packed image of one message with two signals, the second with the given word SG0. -/
def packedWords (sg0 : Word) : List Word :=
  [0x10#32, 0x7FF#32, 0x22#32, 0x800#32, 1#32, 0#32, 0#32, 255#32, sg0, 1#32, 0#32, 0#32, 255#32]

/-- The words after IH of a packed image of two messages, the second with the given word MH2. -/
def packedMessages (mh2 : Word) : List Word := [0x10#32, 0x7FF#32, 0x8#32, 0x11#32, 0x7FF#32, mh2]

/-- The lowest and the highest zero bit of IH; of MH2, in the last message of a table that fills N_MSG_MAX; of SG0, in
the last signal of a message, with the zero bits between. -/
theorem witness_PackedReservedBits :
    ((∃ img, unpackImage (integerFormat 32) [0x200#32] = some img) ∧ (0x200#32 : Word) >>> 9 ≠ 0#32 ∧
      (0x80000000#32 : Word) >>> 9 ≠ 0#32) ∧
    ((∃ img, unpackImage (integerFormat 32) (2#32 :: packedMessages 0x800#32) = some img) ∧
      (2#32 : Word) >>> 9 = 0#32 ∧ ((2#32 : Word) &&& 0x1FF#32).toNat ≤ (Params.mk .away 2).nMsgMax.val ∧
      1 < ((2#32 : Word) &&& 0x1FF#32).toNat ∧
      (∃ msgs, unpackMessages (integerFormat 32) 1 (packedMessages 0x800#32) =
          some (msgs, 0x11#32 :: 0x7FF#32 :: 0x800#32 :: []) ∧
        ∀ (j : Nat) (msg : RawMessage), msgs[j]? = some msg → decide (messageLines rational j msg = []) = true) ∧
      (0x800#32 : Word) >>> 11 ≠ 0#32 ∧ (0x80000000#32 : Word) >>> 11 ≠ 0#32) ∧
    ((∃ img, unpackImage (integerFormat 32) (1#32 :: packedWords 0x848#32) = some img) ∧
      (∃ post, unpackMessages (integerFormat 32) 0 (packedWords 0x848#32) =
          some ([], 0x10#32 :: 0x7FF#32 :: 0x22#32 :: post) ∧
        ∃ sigs post', unpackSignals (integerFormat 32) 1 post = some (sigs, 0x848#32 :: post') ∧
          ∀ (j : Nat) (sig : RawSignal), sigs[j]? = some sig →
            decide (signalLines rational 0 j ((0x22#32 : Word) &&& 0xF#32).toNat sig = []) = true) ∧
      (0x22#32 : Word) >>> 11 = 0#32 ∧ ((0x22#32 : Word) &&& 0xF#32).toNat ≤ 8 ∧
      (((0x22#32 : Word) >>> 4) &&& 0x7F#32).toNat ≤ 64 ∧ 1 < (((0x22#32 : Word) >>> 4) &&& 0x7F#32).toNat ∧
      (0x848#32 : Word) &&& 0xFFFC80C0#32 ≠ 0#32 ∧ (0x888#32 : Word) &&& 0xFFFC80C0#32 ≠ 0#32 ∧
      (0x8808#32 : Word) &&& 0xFFFC80C0#32 ≠ 0#32 ∧ (0x40808#32 : Word) &&& 0xFFFC80C0#32 ≠ 0#32 ∧
      (0x80000808#32 : Word) &&& 0xFFFC80C0#32 ≠ 0#32) := by
  refine ⟨⟨⟨_, rfl⟩, by decide, by decide⟩,
    ⟨⟨_, rfl⟩, by decide, by decide, by decide, ⟨_, rfl, forall_of_zipIdx (by decide +kernel)⟩,
      by decide, by decide⟩,
    ⟨_, rfl⟩, ⟨_, rfl, _, _, rfl, forall_of_zipIdx (by decide +kernel)⟩, ?_⟩
  decide

theorem witness_StepRuns :
    (withLine (.getm 1#8)).pending = .request (line (.getm 1#8)) :: [] ∧
    decode (line (.getm 1#8)).cmd = .ok (.getm 1#8) := ⟨rfl, by decide⟩

theorem witness_ResetEvent :
    (operational [.reset]).pending = .reset :: [] ∧ (operational [.reset]).tvalid = true ∧
    ∃ t, step (operational [.reset]) = .next t ∧ t.tvalid = false := ⟨rfl, rfl, _, rfl, rfl⟩

theorem witness_OnlyASuccessfulBuild :
    (∃ t, step (unbuilt (line (.build ⟨[], false⟩))) = .next t ∧ t.tvalid = true) ∧
    (∃ t, step (withLine (.build tableT1)) = .next t ∧ t.tvalid = true) := by
  refine ⟨⟨_, rfl, by decide⟩, _, rfl, by decide⟩

/-- The total order of the default stands for the premise on the number type here and in the statements below. -/
theorem witness_EveryStepKeeps :
    State.Inv (withLine .stat) ∧ (∃ t, step (withLine .stat) = .next t) ∧ rational.Ordered ∧
    Held.Inv rational Params.default (operational []).toHeld :=
  ⟨operational_inv _, ⟨_, rfl⟩, rational_ordered, operational_inv []⟩

theorem witness_EveryIssuedOperationIsAnswered :
    (operational [.reset, .request (line .stat), .request (line .count)]).pending =
      [.reset] ++ .request (line .stat) :: [.request (line .count)] := rfl

theorem witness_IdleStep : State.reset.pending = [] := rfl

theorem witness_OtherThanBuild :
    Instr.stat ≠ .build ∧ (withLine .stat).pending = .request (line .stat) :: [] := ⟨by decide, rfl⟩

theorem witness_ServiceOrder :
    (operational [.request (line .count), .request (line .stat)]).tvalid = true ∧
    noReset [.request (line .count)] ∧
    (∃ t, Host.Core.run Sys2Proof.core 2
      (operational [.request (line .count), .request (line .stat)]) = .next t) ∧
    (∃ u, step { operational [.request (line .count), .request (line .stat)] with
      pending := [.request (line .stat)] } = .next u) := by
  refine ⟨rfl, ?_, ⟨_, rfl⟩, _, rfl⟩
  simp [noReset]

/-- Each clause at its boundary: NMSG = 4 and M = 4; nsig = 3 and S = 3; len = 9. -/
theorem witness_InterfaceConditions :
    (withLine (.dec 2#8 2#6 9#4 [])).pending = .request (line (.dec 2#8 2#6 9#4 [])) :: [] ∧
    ((unbuilt (frame 0#32 0#4 [])).tvalid = false ∧ Instr.find ≠ .build ∧ Instr.find ≠ .stat) ∧
    (withLine (.build tableT1)).tvalid = true ∧
    (usesM (.decall 4#8) = some 4#8 ∧ (withLine (.decall 4#8 8#4 [])).nmsg.toNat ≤ (4#8).toNat) ∧
    (usesM (.gets 2#8 3#6) = some 2#8 ∧ usesS (.gets 2#8 3#6) = some 3#6 ∧
      Installed (withLine (.gets 2#8 3#6)) (2#8).toNat (installedMessage hbridgeMessage) ∧
      (installedMessage hbridgeMessage).sig.length ≤ (3#6).toNat) ∧
    (readsLen (.dec 2#8 2#6) = true ∧ indicesGood (.dec 2#8 2#6) (withLine (.dec 2#8 2#6 9#4 [])) ∧
      8 < (line (.dec 2#8 2#6 9#4 [])).len.toNat) := by
  refine ⟨rfl, by decide, rfl, by decide, ⟨rfl, rfl, (t1_installed _).2.1, by decide⟩, rfl, ?_, by decide⟩
  rintro m hm
  cases hm
  exact ⟨_, (t1_installed _).2.1, fun k hk => by cases hk; decide⟩

/-- A frame one byte short of message 1's last signal. -/
theorem witness_TruncatedFrames :
    (withLine (.rxf 0x201#32 7#4 [])).pending = .request (frame 0x201#32 7#4 []) :: [] ∧
    (frame 0x201#32 7#4 []).len.toNat ≤ 8 ∧
    InstalledSignal (withLine (.rxf 0x201#32 7#4 [])) (1#8).toNat (3#6).toNat (field .le 48 16).record ∧
    Installed (withLine (.rxf 0x201#32 7#4 [])) (1#8).toNat (installedMessage servoMessage) ∧
    (installedMessage servoMessage).sig[(3#6).toNat]? = some (field .le 48 16).record ∧
    8 * (7#4).toNat < sigStart (field .le 48 16).record + sigLen (field .le 48 16).record ∧
    (∀ j < (3#6).toNat, ∀ sig', (installedMessage servoMessage).sig[j]? = some sig' →
      sigStart sig' + sigLen sig' ≤ 8 * (7#4).toNat) ∧
    (0x201#32 : Word) &&& (installedMessage servoMessage).idMask =
      (installedMessage servoMessage).messageId &&& (installedMessage servoMessage).idMask ∧
    (∀ j < (1#8).toNat, ∀ msg', (withLine (.rxf 0x201#32 7#4 [])).table[j]? = some msg' →
      (0x201#32 : Word) &&& msg'.idMask ≠ msg'.messageId &&& msg'.idMask) := by
  refine ⟨rfl, by decide, ⟨rfl, by decide, rfl⟩, (t1_installed _).1, rfl, by decide, ?_, by decide, ?_⟩
  · intro j hj sig' h
    have hj : j < 3 := hj
    interval_cases j <;> cases h <;> decide
  · intro j hj msg' h
    have hj : j < 1 := hj
    interval_cases j
    cases h
    decide

/-- Values just outside `wide`'s bounds -200 and 200, the signals before it at their bounds. -/
theorem witness_RejectedValues :
    (withLine (.txf (some .reject) 3#8 [2047, 175 / 2, 201])).pending =
      .request (line (.txf (some .reject) 3#8 [2047, 175 / 2, 201])) :: [] ∧
    InstalledSignal (withLine (.txf (some .reject) 3#8 [2047, 175 / 2, 201])) (3#8).toNat (2#6).toNat wide.record ∧
    (wide.record.maxValue < 201 ∧ (-201 : NUM) < wide.record.minValue) ∧
    (line (.txf (some .reject) 3#8 [2047, 175 / 2, 201])).vals[(2#6).toNat]? = some 201 ∧
    (∀ j < (2#6).toNat, ∀ sig' v',
      InstalledSignal (withLine (.txf (some .reject) 3#8 [2047, 175 / 2, 201])) (3#8).toNat j sig' →
      (line (.txf (some .reject) 3#8 [2047, 175 / 2, 201])).vals[j]? = some v' →
      sig'.minValue ≤ v' ∧ v' ≤ sig'.maxValue) := by
  refine ⟨rfl, ⟨rfl, by decide, rfl⟩, by decide +kernel, by decide +kernel, ?_⟩
  intro j hj sig' v' hs hv
  have hj : j < 2 := hj
  interval_cases j
  · obtain rfl : be12s.record = sig' := Option.some.inj hs.2.2
    obtain rfl : (2047 : NUM) = v' := Option.some.inj hv
    decide +kernel
  · obtain rfl : half.record = sig' := Option.some.inj hs.2.2
    obtain rfl : (175 / 2 : NUM) = v' := Option.some.inj hv
    decide +kernel

/-- A response that is not OK, of each kind. -/
theorem witness_ErrorResults :
    (unbuilt (frame 0#32 0#4 [])).pending = .request (frame 0#32 0#4 []) :: [] ∧
    (unbuilt (line (.build overlapping))).pending = .request (line (.build overlapping)) :: [] ∧
    (∃ t x, exec .find (unbuilt (frame 0#32 0#4 [])) = .next t ∧ t.rsp = some x ∧ x.st = .noTable) ∧
    (∃ t x, exec .build (unbuilt (line (.build overlapping))) = .next t ∧ t.rsp = some x ∧
      x.st = .tableInvalid) ∧
    (∃ t x, exec .rxf (withLine (.rxf 0x201#32 7#4 [])) = .next t ∧ t.rsp = some x ∧ x.st = .payloadTooShort) := by
  refine ⟨rfl, rfl, ⟨_, _, rfl, rfl, rfl⟩, ⟨_, _, rfl, rfl, ?_⟩, ⟨_, _, rfl, rfl, ?_⟩⟩ <;> decide +kernel

/-- An OK response (also for the statement on who raises which status). -/
theorem witness_OkResponses :
    (withLine (.find 0x201#32)).pending = .request (line (.find 0x201#32)) :: [] ∧
    ∃ t x, exec .find (withLine (.find 0x201#32)) = .next t ∧ t.rsp = some x ∧ x.st = .ok := by
  refine ⟨rfl, _, _, rfl, rfl, ?_⟩
  decide

/-- The first inactive lane of message 1, lane 4, and the last, lane 63. -/
theorem witness_InactiveLanes :
    (withLine (.rxf 0x201#32 8#4 [])).pending = .request (line (.rxf 0x201#32 8#4 [])) :: [] ∧
    Installed (withLine (.rxf 0x201#32 8#4 [])) (1#8).toNat (installedMessage servoMessage) ∧
    (installedMessage servoMessage).sig.length ≤ 4 ∧ (installedMessage servoMessage).sig.length ≤ 63 ∧
    (∃ t x, exec (.decall 1#8) (withLine (.rxf 0x201#32 8#4 [])) = .next t ∧ t.rsp = some x) ∧
    (∃ t x, exec (.encall .clamp 1#8) (withLine (.rxf 0x201#32 8#4 [])) = .next t ∧ t.rsp = some x) ∧
    (∃ t x, exec (.txf .clamp 1#8) (withLine (.rxf 0x201#32 8#4 [])) = .next t ∧ t.rsp = some x) ∧
    (State.Inv (withLine (.rxf 0x201#32 8#4 [])) ∧
      ∃ t y, exec .rxf (withLine (.rxf 0x201#32 8#4 [])) = .next t ∧ t.rsp = some y ∧ y.st = .ok ∧ y.m = 1#8) := by
  refine ⟨rfl, (t1_installed _).1, by decide, by decide, ⟨_, _, rfl, rfl⟩, ⟨_, _, rfl, rfl⟩, ⟨_, _, rfl, rfl⟩,
    operational_inv _, _, _, rfl, rfl, ?_, ?_⟩ <;> decide +kernel

/-- Two frames of 6 bytes that differ in byte 6, the first that is not read. -/
theorem witness_UnreadRequestFields :
    sameRead (.decall 1#8) (operational []) (frame 1#32 6#4 [1#8]) (frame 2#32 6#4 [1#8, 0#8, 0#8, 0#8, 0#8, 0#8, 9#8]) ∧
    frame 1#32 6#4 [1#8] ≠ frame 2#32 6#4 [1#8, 0#8, 0#8, 0#8, 0#8, 0#8, 9#8] := by
  refine ⟨⟨rfl, fun b hb => ?_⟩, by decide⟩
  have hb : b < 6 := hb
  interval_cases b <;> decide

theorem corrected_valid : imageValid rational Params.default corrected :=
  ⟨⟨rfl, by decide⟩, by decide,
    fun msg hm => messageValid_of_checked
      (List.all_eq_true.1 (by decide +kernel : (installedRecords corrected).all checkedMessage = true) msg hm),
    by decide⟩

theorem overlapping_invalid : ¬ imageValid rational Params.default overlapping := by
  rintro ⟨-, -, hm, -⟩
  have h := List.pairwise_cons.1 (hm _ (List.mem_singleton.2 rfl)).2.2.2
  exact (h.1 _ (List.mem_singleton.2 rfl)).1 4 (by decide)

/-- The corrected and the overlapping image of 95_test_vectors.md (P4, B1). -/
theorem witness_Build :
    (unbuilt (line (.build corrected))).pending = .request (line (.build corrected)) :: [] ∧
    (unbuilt (line (.build overlapping))).pending = .request (line (.build overlapping)) :: [] ∧
    (unbuilt (line (.build corrected))).tvalid = false ∧
    imageValid rational (unbuilt (line (.build corrected))).params (line (.build corrected)).img ∧
    (unbuilt (line (.build overlapping))).tvalid = false ∧
    ¬ imageValid rational (unbuilt (line (.build overlapping))).params (line (.build overlapping)).img :=
  ⟨rfl, rfl, rfl, corrected_valid, rfl, overlapping_invalid⟩

/-- A violation at message index N_MSG_MAX - 1. -/
theorem witness_ViolationIndices :
    firstViolation rational ⟨.away, 1⟩ overlapping = some ⟨.overlap, 0, 0, 1⟩ ∧ overlapping.reserved = false ∧
    SubCause.overlap ≠ .capacity := by
  refine ⟨by decide +kernel, rfl, by decide⟩

/-- Two signals that touch: the last positions of one and the first of the other. -/
theorem witness_DisjointSignals :
    (∀ sig ∈ [(field .le 0 1).record, (field .be 1 63).record], 1 ≤ sigLen sig ∧ fieldInside sig) ∧
    [(field .le 0 1).record, (field .be 1 63).record].Pairwise intervalsDisjoint := by
  refine ⟨by decide, List.pairwise_pair.2 fun p => ?_⟩
  show ¬ (0 ≤ p ∧ p < 0 + 1 ∧ 1 ≤ p ∧ p < 1 + 63)
  omega

theorem witness_InstalledRecords :
    State.Inv (operational []) ∧ Installed (operational []) 3 (installedMessage fixtureMessage) :=
  ⟨operational_inv _, (t1_installed _).2.2⟩

/-- GETM and GETS at the last message and its last signal. -/
theorem witness_Access :
    (withLine (.gets 3#8 2#6)).pending = .request (line (.gets 3#8 2#6)) :: [] ∧
    Installed (withLine (.gets 3#8 2#6)) (3#8).toNat (installedMessage fixtureMessage) ∧
    InstalledSignal (withLine (.gets 3#8 2#6)) (3#8).toNat (2#6).toNat wide.record :=
  ⟨rfl, (t1_installed _).2.2, rfl, by decide, rfl⟩

/-- A cell of the field, and the next cell, which is not. -/
theorem witness_InsertWrites :
    cell .be (sigStart be12s.record + 0) = (0, 3) ∧ 0 < sigLen be12s.record ∧
    (∀ i < sigLen be12s.record, cell .be (sigStart be12s.record + i) ≠ (0, 4)) := by decide

/-- A field that ends at position 63, its greatest raw value, a disjoint field, and a byte below and above a field. -/
theorem witness_ExtractAndInsert :
    fieldInside (field .be 52 12).record ∧ 2 ^ 12 - 1 < 2 ^ sigLen (field .be 52 12).record ∧
    cellsDisjoint (field .be 52 12).record be12s.record ∧
    5 < sigStart (field .be 52 12).record / 8 ∧ need be12s.record ≤ 2 := by
  unfold cellsDisjoint
  decide

/-- Whole-word forms: a 64-bit field and a field of one bit at position 63, in either order. -/
theorem witness_WholeWordForms :
    fieldInside (field .le 0 64).record ∧ fieldInside (field .be 63 1).record ∧
    2 ^ 64 - 1 < 2 ^ sigLen (field .le 0 64).record ∧ (field .le 0 64).record.byteOrder = .le ∧
    1 < 2 ^ sigLen (field .be 63 1).record ∧ (field .be 63 1).record.byteOrder = .be := by decide

theorem witness_IntervalsAndCells :
    (field .be 4 4).record.byteOrder = .be ∧ sigStart (field .be 4 4).record = 4 ∧
    sigLen (field .be 4 4).record = 4 ∧ sigStart (field .be 0 4).record = 0 ∧
    (field .le 0 4).record.byteOrder = .le ∧ (field .le 0 4).record.byteOrder = (field .le 4 4).record.byteOrder := by
  decide

/-- Zero, a negative value, and an exact tie. -/
theorem witness_Round : (0 : NUM) ≤ 0 ∧ (-1 / 2 : NUM) < 0 ∧ (5 / 2 : NUM) = ((2 : Int) : NUM) + 1 / 2 := by
  norm_num

/-- A signed field of one bit, and an unsigned one of 64. -/
theorem witness_RawInteger :
    1 ≤ sigLen (raw .le 3 1 true 1 0 (-1) 0).record ∧ fieldInside (raw .le 3 1 true 1 0 (-1) 0).record ∧
    (raw .le 3 1 true 1 0 (-1) 0).record.isSigned = true ∧ fieldInside (field .be 0 64).record ∧
    (field .be 0 64).record.isSigned = false := by decide

/-- The least and the greatest integer of a signed 12-bit field and of an unsigned 8-bit one, and the next that do
not fit. -/
theorem witness_FittingRawInteger :
    1 ≤ sigLen be12s.record ∧ fieldInside be12s.record ∧ be12s.record.isSigned = true ∧
    fitsRaw be12s.record (-2048) = true ∧ fitsRaw be12s.record 2047 = true ∧
    fitsRaw be12s.record (-2049) = false ∧ fitsRaw be12s.record 2048 = false ∧
    1 ≤ sigLen half.record ∧ fieldInside half.record ∧ half.record.isSigned = false ∧
    fitsRaw half.record 0 = true ∧ fitsRaw half.record 255 = true ∧
    fitsRaw half.record (-1) = false ∧ fitsRaw half.record 256 = false := by decide

/-- A value at a bound, whose quotient is an integer that fits. -/
theorem witness_RoundTrip :
    1 ≤ sigLen half.record ∧ fieldInside half.record ∧ half.record.scale ≠ 0 ∧ half.record.minValue ≤ 175 / 2 ∧
    (175 / 2 : NUM) ≤ half.record.maxValue ∧ rational.le half.record.minValue (175 / 2) = true ∧
    rational.le (175 / 2) half.record.maxValue = true ∧
    (175 / 2 - half.record.offset) / half.record.scale = ((255 : Int) : NUM) ∧
    (∃ pay' fl, encodeSignal rational Params.default .reject half.record (175 / 2) zeroPayload = some (pay', fl) ∧
      fl.rovf = false) := by
  refine ⟨by decide, by decide, by decide +kernel, by decide +kernel, by decide +kernel, by decide +kernel,
    by decide +kernel, by decide +kernel, ?_⟩
  refine ⟨insert half.record 255 zeroPayload, ⟨false, false, false⟩, by decide +kernel, rfl⟩

theorem witness_EncodingOneSignal :
    tableValid rational Params.default (installedRecords tableT1) ∧ installedMessage hbridgeMessage ∈ installedRecords tableT1 ∧
    (1 : Nat) ≠ 2 ∧ (installedMessage hbridgeMessage).sig[1]? = some (field .le 16 1).record ∧
    (installedMessage hbridgeMessage).sig[2]? = some (field .le 17 1).record ∧
    (field .le 16 1).record.minValue ≤ 1 ∧ 1 ≤ (field .le 16 1).record.maxValue ∧
    rational.le (field .le 16 1).record.minValue 1 = true ∧ rational.le 1 (field .le 16 1).record.maxValue = true ∧
    fitsRaw (field .le 16 1).record (encodeRaw rational Params.default (field .le 16 1).record 1) = true ∧
    (1 - (field .le 16 1).record.offset) / (field .le 16 1).record.scale = ((1 : Int) : NUM) := by
  refine ⟨t1_valid, by simp [installedRecords, tableT1], by decide, rfl, rfl, ?_, ?_, ?_, ?_, ?_, ?_⟩ <;> decide +kernel

/-- The order of service reversed. -/
theorem witness_EncodeOrder :
    tableValid rational Params.default (installedRecords tableT1) ∧
    installedMessage servoMessage ∈ installedRecords tableT1 ∧
    (assignments (installedMessage servoMessage) (lanes 0 [1, 2, 3, 4])).reverse.Perm
      (assignments (installedMessage servoMessage) (lanes 0 [1, 2, 3, 4])) :=
  ⟨t1_valid, by simp [installedRecords, tableT1], List.reverse_perm _⟩

/-- A request that carries the frame of a response. -/
def frameOf (x : Response) : Request :=
  { bareRequest rational 0#32 with id := x.id, len := x.len, pay := x.pay }

/-- Under either policy, the values in range. -/
theorem witness_EncallThenDecall :
    (withLine (.encall none 1#8 [1, 2, 3, 4])).pending = .request (line (.encall none 1#8 [1, 2, 3, 4])) :: [] ∧
    State.Inv (withLine (.encall none 1#8 [1, 2, 3, 4])) ∧
    Installed (withLine (.encall none 1#8 [1, 2, 3, 4])) (1#8).toNat (installedMessage servoMessage) ∧
    ∀ pol : Policy, ∃ (t u : State) (x y : Response) (q : Request),
      exec (.encall pol 1#8) (withLine (.encall none 1#8 [1, 2, 3, 4])) = .next t ∧ t.rsp = some x ∧
      x.st = .ok ∧ q.len = x.len ∧ q.pay = x.pay ∧
      exec (.decall 1#8) { withLine (.encall none 1#8 [1, 2, 3, 4]) with pending := .request q :: [] } = .next u ∧
      u.rsp = some y :=
  ⟨rfl, operational_inv _, (t1_installed _).1, fun pol => ⟨_, _, _, _,
    frameOf (response (exec (.encall pol 1#8) (withLine (.encall none 1#8 [1, 2, 3, 4])))),
    rfl, rfl, by cases pol <;> decide +kernel, rfl, rfl, rfl, rfl⟩⟩

/-- Under either policy, the values in range, and no earlier message that matches 0x201. -/
theorem witness_TxfThenRxf :
    (withLine (.txf none 1#8 [1, 2, 3, 4])).pending = .request (line (.txf none 1#8 [1, 2, 3, 4])) :: [] ∧
    State.Inv (withLine (.txf none 1#8 [1, 2, 3, 4])) ∧
    Installed (withLine (.txf none 1#8 [1, 2, 3, 4])) (1#8).toNat (installedMessage servoMessage) ∧
    (∀ j < (1#8).toNat, ∀ msg', (withLine (.txf none 1#8 [1, 2, 3, 4])).table[j]? = some msg' →
      (installedMessage servoMessage).messageId &&& msg'.idMask ≠ msg'.messageId &&& msg'.idMask) ∧
    ∀ pol : Policy, ∃ (t u : State) (x y : Response) (q : Request),
      exec (.txf pol 1#8) (withLine (.txf none 1#8 [1, 2, 3, 4])) = .next t ∧ t.rsp = some x ∧
      x.st = .ok ∧ q.id = x.id ∧ q.len = x.len ∧ q.pay = x.pay ∧
      exec .rxf { withLine (.txf none 1#8 [1, 2, 3, 4]) with pending := .request q :: [] } = .next u ∧
      u.rsp = some y := by
  refine ⟨rfl, operational_inv _, (t1_installed _).1, fun j hj msg' h => ?_, fun pol => ⟨_, _, _, _,
    frameOf (response (exec (.txf pol 1#8) (withLine (.txf none 1#8 [1, 2, 3, 4])))),
    rfl, rfl, by cases pol <;> decide +kernel, rfl, rfl, rfl, rfl, rfl⟩⟩
  have hj : j < 1 := hj
  interval_cases j
  cases h
  decide

theorem witness_MachineIsTheBlock :
    (withLine (.find 0x201#32)).pending = .request (line (.find 0x201#32)) :: [] := rfl

/-- Byte 2 bit 2 of message 2, the first bit no signal owns, and byte 3 = `dlc`. -/
theorem witness_UnownedBits :
    (withLine (.encall none 2#8 [1])).pending = .request (line (.encall none 2#8 [1])) :: [] ∧
    Installed (withLine (.encall none 2#8 [1])) (2#8).toNat (installedMessage hbridgeMessage) ∧
    (∃ t x, exec (.encall .clamp 2#8) (withLine (.encall none 2#8 [1])) = .next t ∧ t.rsp = some x) ∧
    (∀ sig ∈ (installedMessage hbridgeMessage).sig, (2, 2) ∉ cells sig) ∧
    (installedMessage hbridgeMessage).dlc.val ≤ 3 ∧ State.Inv (withLine (.encall none 2#8 [1])) :=
  ⟨rfl, (t1_installed _).2.1, ⟨_, _, rfl, rfl⟩, by decide, by decide, operational_inv _⟩

/-- DEC, DECALL and RXF of a frame that ends with the last byte of the last signal. -/
theorem witness_Decode :
    (withLine (.rxf 0x400#32 4#4 [])).pending = .request (line (.rxf 0x400#32 4#4 [])) :: [] ∧
    (frame 0x400#32 4#4 []).len.toNat ≤ 8 ∧
    InstalledSignal (withLine (.rxf 0x400#32 4#4 [])) (3#8).toNat (2#6).toNat wide.record ∧
    sigStart wide.record + sigLen wide.record ≤ 8 * (frame 0x400#32 4#4 []).len.toNat ∧
    Installed (withLine (.rxf 0x400#32 4#4 [])) (3#8).toNat (installedMessage fixtureMessage) ∧
    (∀ sig ∈ (installedMessage fixtureMessage).sig,
      sigStart sig + sigLen sig ≤ 8 * (frame 0x400#32 4#4 []).len.toNat) :=
  ⟨rfl, by decide, ⟨rfl, by decide, rfl⟩, by decide, (t1_installed _).2.2, by decide⟩

/-- ENC at the bound, under the reject policy. -/
theorem witness_Enc :
    (withLine (.enc (some .reject) 3#8 2#6 200 [])).pending =
      .request (line (.enc (some .reject) 3#8 2#6 200 [])) :: [] ∧
    InstalledSignal (withLine (.enc (some .reject) 3#8 2#6 200 [])) (3#8).toNat (2#6).toNat wide.record ∧
    wide.record.minValue ≤ 200 ∧ (200 : NUM) ≤ wide.record.maxValue ∧
    (line (.enc (some .reject) 3#8 2#6 200 [])).v = 200 :=
  ⟨rfl, ⟨rfl, by decide, rfl⟩, by decide +kernel, by decide +kernel, rfl⟩

/-- ENCALL and TXF with every value at its upper bound, under the reject policy. -/
theorem witness_Encall :
    (withLine (.txf (some .reject) 3#8 [2047, 175 / 2, 200])).pending =
      .request (line (.txf (some .reject) 3#8 [2047, 175 / 2, 200])) :: [] ∧
    Installed (withLine (.txf (some .reject) 3#8 [2047, 175 / 2, 200])) (3#8).toNat (installedMessage fixtureMessage) ∧
    (∀ (j : Nat) (sig : Signal) (v : NUM), (installedMessage fixtureMessage).sig[j]? = some sig →
      (line (.txf (some .reject) 3#8 [2047, 175 / 2, 200])).vals[j]? = some v →
      sig.minValue ≤ v ∧ v ≤ sig.maxValue) := by
  refine ⟨rfl, (t1_installed _).2.2, fun j sig v hs hv => ?_⟩
  have hj : j < 3 := (List.getElem?_eq_some_iff.1 hs).1
  interval_cases j
  · obtain rfl : be12s.record = sig := Option.some.inj hs
    obtain rfl : (2047 : NUM) = v := Option.some.inj hv
    decide +kernel
  · obtain rfl : half.record = sig := Option.some.inj hs
    obtain rfl : (175 / 2 : NUM) = v := Option.some.inj hv
    decide +kernel
  · obtain rfl : wide.record = sig := Option.some.inj hs
    obtain rfl : (200 : NUM) = v := Option.some.inj hv
    decide +kernel

/-- FIND and RXF: the last ID of message 3's range matches it first; the ID after matches no message. -/
theorem witness_Match :
    (withLine (.find 0x40F#32)).pending = .request (line (.find 0x40F#32)) :: [] ∧
    (withLine (.find 0x40F#32)).tvalid = true ∧ State.Inv (withLine (.find 0x40F#32)) ∧
    Installed (withLine (.find 0x40F#32)) 3 (installedMessage fixtureMessage) ∧
    (0x40F#32 : Word) &&& (installedMessage fixtureMessage).idMask =
      (installedMessage fixtureMessage).messageId &&& (installedMessage fixtureMessage).idMask ∧
    (∀ j < 3, ∀ msg', (withLine (.find 0x40F#32)).table[j]? = some msg' →
      (0x40F#32 : Word) &&& msg'.idMask ≠ msg'.messageId &&& msg'.idMask) ∧
    (∀ (k : Nat) (msg : Message), Installed (withLine (.find 0x410#32)) k msg →
      (0x410#32 : Word) &&& msg.idMask ≠ msg.messageId &&& msg.idMask) := by
  refine ⟨rfl, rfl, operational_inv _, (t1_installed _).2.2, by decide, ?_, ?_⟩
  · intro j hj msg' h
    interval_cases j <;> cases h <;> decide
  · rintro k msg ⟨-, hk, h⟩
    have hk : k < 4 := hk
    interval_cases k <;> cases h <;> decide

/-- The matcher's law and RXF's composition: a message's own ID, a bad length, a good length, no table. -/
theorem witness_Composition :
    (withLine (.rxf 0x301#32 3#4 [])).pending = .request (line (.rxf 0x301#32 3#4 [])) :: [] ∧
    (withLine (.rxf 0x301#32 3#4 [])).table[2]? = some (installedMessage hbridgeMessage) ∧
    (frame 0x301#32 3#4 []).id = (installedMessage hbridgeMessage).messageId ∧
    (∃ f, exec .find (withLine (.rxf 0x301#32 3#4 [])) =
      .next { withLine (.rxf 0x301#32 3#4 []) with pending := [], rsp := some f }) ∧
    8 < (frame 0x301#32 9#4 []).len.toNat ∧ (frame 0x301#32 8#4 []).len.toNat ≤ 8 ∧
    State.Inv (withLine (.rxf 0x301#32 9#4 [])) := by
  refine ⟨rfl, rfl, rfl, ⟨_, rfl⟩, by decide, by decide, operational_inv _⟩

end Sys2Proof.Tests
end

section
/-! PROOFS. Rounding at `NUM = ℚ` (00_scope.md R17): what `roundNum` answers on each side of a tie, and O41. -/

namespace Sys2Proof.Machine

open Sys2Proof

/-- The floor that `roundNum` starts from, by the interval it names. -/
theorem ratFloor_eq_iff {q : NUM} {f : Int} : q.floor = f ↔ (f : NUM) ≤ q ∧ q < f + 1 := by
  have hlo : f ≤ q.floor ↔ (f : NUM) ≤ q := Rat.le_floor_iff
  have hhi : q.floor < f + 1 ↔ q < f + 1 := by exact_mod_cast Rat.floor_lt_iff (a := q) (x := f + 1)
  rw [← hlo, ← hhi]
  omega

/-- Below the halfway point a number rounds down, whatever the tie rule. -/
theorem roundNum_of_lt_half (ties : RoundTies) {q : NUM} {f : Int} (hf : (f : NUM) ≤ q) (hq : q < f + 1 / 2) :
    roundNum ties q = f := by
  have hfloor : q.floor = f := ratFloor_eq_iff.2 ⟨hf, by linarith⟩
  have hd : q - f < 1 / 2 := by linarith
  simp only [roundNum, hfloor, if_pos hd]

/-- Above the halfway point a number rounds up, whatever the tie rule. -/
theorem roundNum_of_half_lt (ties : RoundTies) {q : NUM} {f : Int} (hf : (f : NUM) + 1 / 2 < q) (hq : q < f + 1) :
    roundNum ties q = f + 1 := by
  have hfloor : q.floor = f := ratFloor_eq_iff.2 ⟨by linarith, hq⟩
  have hd : 1 / 2 < q - f := by linarith
  simp only [roundNum, hfloor, if_neg hd.not_gt, if_pos hd]

/-- Only a number exactly halfway between two integers asks the tie rule. -/
theorem roundNum_tie (ties : RoundTies) (f : Int) : roundNum ties ((f : NUM) + 1 / 2) = breakTie ties f := by
  have hfloor : ((f : NUM) + 1 / 2).floor = f := ratFloor_eq_iff.2 ⟨by linarith, by linarith⟩
  simp only [roundNum, hfloor, add_sub_cancel_left, lt_irrefl, if_false]

/-- Every number lies below, at or above the halfway point between its floor and the next integer. -/
theorem half_cases (q : NUM) : ∃ f : Int,
    ((f : NUM) ≤ q ∧ q < f + 1 / 2) ∨ q = (f : NUM) + 1 / 2 ∨ ((f : NUM) + 1 / 2 < q ∧ q < f + 1) := by
  obtain ⟨hf, hq⟩ := ratFloor_eq_iff.1 (rfl : q.floor = q.floor)
  refine ⟨q.floor, ?_⟩
  rcases lt_trichotomy q (q.floor + 1 / 2) with hlt | heq | hgt
  · exact .inl ⟨hf, hlt⟩
  · exact .inr (.inl heq)
  · exact .inr (.inr ⟨hgt, hq⟩)

/-- A tie between `f` and `f + 1` is broken to one of the two. -/
theorem breakTie_eq_or (ties : RoundTies) (f : Int) : breakTie ties f = f ∨ breakTie ties f = f + 1 := by
  cases ties with
  | away | even => exact ite_eq_or_eq ..
  | up => exact .inr rfl
  | down => exact .inl rfl

theorem breakTie_even_emod_two (f : Int) : breakTie .even f % 2 = 0 := by
  simp only [breakTie]
  split <;> omega

/-- Whatever the tie rule, the rounded integer is at most one half away. -/
theorem abs_roundNum_sub_le (ties : RoundTies) (q : NUM) : |(roundNum ties q : NUM) - q| ≤ 1 / 2 := by
  obtain ⟨f, ⟨hf, hq⟩ | rfl | ⟨hf, hq⟩⟩ := half_cases q
  · rw [roundNum_of_lt_half ties hf hq, abs_le]
    constructor <;> linarith
  · rw [roundNum_tie, abs_le]
    obtain h | h := breakTie_eq_or ties f
    · rw [h]
      constructor <;> linarith
    · rw [h]
      push_cast
      constructor <;> linarith
  · rw [roundNum_of_half_lt ties hf hq, abs_le]
    push_cast
    constructor <;> linarith

/-- A halfway point is negative exactly when the integer below it is. -/
theorem add_half_neg_iff (f : Int) : (f : NUM) + 1 / 2 < 0 ↔ f < 0 := by
  constructor
  · intro h
    have hlt : (f : NUM) < 0 := by linarith
    exact_mod_cast hlt
  · intro h
    have hle : (f : NUM) + 1 ≤ 0 := by exact_mod_cast h
    linarith

/-- `away` takes a halfway point farther from zero: down exactly when it is negative. -/
theorem roundNum_away_tie (f : Int) :
    roundNum .away ((f : NUM) + 1 / 2) = if (f : NUM) + 1 / 2 < 0 then f else f + 1 := by
  simp only [roundNum_tie, breakTie, add_half_neg_iff]

/-- `away` on the non-negative numbers: no number lies one half above its rounded integer, so adding one half
and taking the floor finds that integer. -/
theorem roundNum_away_of_nonneg {q : NUM} (h : 0 ≤ q) : roundNum .away q = (q + 1 / 2).floor := by
  obtain ⟨hlo, hhi⟩ := abs_le.1 (abs_roundNum_sub_le .away q)
  have hne : q ≠ (roundNum .away q : NUM) + 1 / 2 := by
    intro heq
    have htie := roundNum_away_tie (roundNum .away q)
    rw [← heq, if_neg h.not_gt] at htie
    omega
  have hlt : q < (roundNum .away q : NUM) + 1 / 2 := lt_of_le_of_ne (by linarith) hne
  exact (ratFloor_eq_iff.2 ⟨by linarith, by linarith⟩).symm

/-- `away` on the negative numbers: the mirror image, no number lies one half below its rounded integer. -/
theorem roundNum_away_of_neg {q : NUM} (h : q < 0) : roundNum .away q = -(-q + 1 / 2).floor := by
  obtain ⟨hlo, hhi⟩ := abs_le.1 (abs_roundNum_sub_le .away q)
  have hne : q ≠ ((roundNum .away q - 1 : Int) : NUM) + 1 / 2 := by
    intro heq
    have htie := roundNum_away_tie (roundNum .away q - 1)
    rw [← heq, if_pos h] at htie
    omega
  have hlt : ((roundNum .away q - 1 : Int) : NUM) + 1 / 2 < q :=
    lt_of_le_of_ne (by push_cast; linarith) hne.symm
  push_cast at hlt
  have hfloor : (-q + 1 / 2).floor = -roundNum .away q :=
    ratFloor_eq_iff.2 ⟨by push_cast; linarith, by push_cast; linarith⟩
  rw [hfloor, neg_neg]

/-- Settles O41: the tie rules are read off `roundNum_tie`, the rest off the three places a number can lie. -/
theorem roundIsToNearest : Obligations.RoundIsToNearest := by
  unfold Obligations.RoundIsToNearest
  refine fun ties q => ⟨abs_roundNum_sub_le ties q, roundNum_away_of_nonneg, roundNum_away_of_neg, ?_⟩
  rintro f rfl
  simp only [roundNum_tie]
  exact ⟨rfl, rfl, breakTie_eq_or .even f, breakTie_even_emod_two f⟩

end Sys2Proof.Machine
end

section
/-! PROOFS. The state invariant (10_state.md R35): an image in which `first_violation` finds nothing is valid (41_table_build.md R132), so that BUILD installs a valid table; O12 and O13. -/

namespace Sys2Proof.Machine

open Sys2Proof

/-- One line of `first_violation`: nothing is reported exactly when its condition fails and no later line reports. -/
theorem ite_some_eq_none_iff {α : Type} {c : Prop} [Decidable c] {v : α} {o : Option α} :
    (if c then some v else o) = none ↔ ¬ c ∧ o = none := by
  split <;> simp [*]

/-- In a total order the per-signal checks fire nowhere exactly on a valid record with no reserved bit set. -/
theorem signalFault_eq_none_iff {ν : Type} {N : NumType ν} (hN : N.Ordered) {dlc : Nat} {sig : RawSignal ν} :
    signalFault N dlc sig = none ↔ signalValid N dlc sig.record ∧ sig.reserved = false := by
  have hlen : 1 ≤ sigLen sig.record ↔ sigLen sig.record ≠ 0 := Nat.one_le_iff_ne_zero
  simp only [signalFault, signalValid, ite_some_eq_none_iff, ← hN.lt_eq_false_iff, hlen, not_or, Nat.not_lt,
    Bool.not_eq_true]
  tauto

/-- Two position intervals, neither empty, share no position exactly when one ends before the other starts. -/
theorem intervalsMeet_eq_false_iff {ν : Type} {a b : Signal ν} (ha : 1 ≤ sigLen a) (hb : 1 ≤ sigLen b) :
    intervalsMeet a b = false ↔ intervalsDisjoint a b := by
  simp only [intervalsMeet, intervalsDisjoint, Bool.and_eq_false_iff, decide_eq_false_iff_not]
  constructor
  · intro h p
    omega
  · intro h
    have hstart := h (max (sigStart a) (sigStart b))
    omega

theorem cellsMeet_eq_false_iff {ν : Type} {a b : Signal ν} : cellsMeet a b = false ↔ cellsDisjoint a b := by
  simp [cellsMeet, cellsDisjoint]

theorem overlap_eq_false_iff {ν : Type} {a b : RawSignal ν} (ha : 1 ≤ sigLen a.record) (hb : 1 ≤ sigLen b.record) :
    overlap a b = false ↔ intervalsDisjoint a.record b.record ∧ cellsDisjoint a.record b.record := by
  rw [overlap, Bool.or_eq_false_iff, intervalsMeet_eq_false_iff ha hb, cellsMeet_eq_false_iff]

theorem idsCollide_eq_false_iff {ν : Type} {a b : RawMessage ν} :
    idsCollide a b = false ↔ a.messageId &&& a.idMask ≠ b.messageId &&& b.idMask := by
  simp [idsCollide, maskedId]

/-- A loop whose check fires or not whatever the index finds nothing exactly when it fires at no element. -/
theorem firstFault_eq_none_iff_forall {α β : Type} {check : Nat → α → Option β} {q : α → Prop} {base : Nat}
    {xs : List α} (hq : ∀ i x, check i x = none ↔ q x) : firstFault check base xs = none ↔ ∀ x ∈ xs, q x := by
  simp only [firstFault_eq_none, hq, List.mem_iff_getElem?]
  exact ⟨fun h x ⟨j, hj⟩ => h j x hj, fun h j x hj => h x ⟨j, hj⟩⟩

/-- The signal loop of a message finds nothing exactly on valid records with no reserved bit set. -/
theorem signalLoop_eq_none_iff {ν : Type} {N : NumType ν} (hN : N.Ordered) {m dlc : Nat} {sigs : List (RawSignal ν)} :
    firstFault (fun s sig => (signalFault N dlc sig).map fun sub => Violation.mk sub m s 0) 0 sigs = none ↔
      ∀ sig ∈ sigs, signalValid N dlc sig.record ∧ sig.reserved = false :=
  firstFault_eq_none_iff_forall fun _ _ => by rw [Option.map_eq_none_iff, signalFault_eq_none_iff hN]

/-- The overlap loop finds nothing exactly where the signals, none of them empty, are pairwise disjoint. -/
theorem firstPair_overlap_eq_none_iff {ν : Type} {base : Nat} {sigs : List (RawSignal ν)}
    (hlen : ∀ sig ∈ sigs, 1 ≤ sigLen sig.record) :
    firstPair overlap base sigs = none ↔
      (sigs.map RawSignal.record).Pairwise fun a b => intervalsDisjoint a b ∧ cellsDisjoint a b := by
  rw [firstPair_eq_none, List.pairwise_map]
  exact List.Pairwise.iff_of_mem fun {a b} ha hb => overlap_eq_false_iff (hlen a ha) (hlen b hb)

/-- The checks of a message fire nowhere exactly on a valid definition with no reserved bit set. -/
theorem messageFault_eq_none_iff {ν : Type} {N : NumType ν} (hN : N.Ordered) {m : Nat} {msg : RawMessage ν} :
    messageFault N m msg = none ↔
      messageValid N (installedMessage msg) ∧ msg.reserved = false ∧ ∀ sig ∈ msg.sig, sig.reserved = false := by
  have hloop := signalLoop_eq_none_iff hN (m := m) (dlc := msg.dlc.val) (sigs := msg.sig)
  simp only [messageFault, ite_some_eq_none_iff, messageValid, installedMessage, List.length_map, List.forall_mem_map,
    not_or, Nat.not_lt, Bool.not_eq_true]
  split
  next v hv =>
    simp only [reduceCtorEq, and_false, false_iff]
    rintro ⟨⟨-, -, hsig, -⟩, -, hres⟩
    cases hv.symm.trans (hloop.2 fun sig hs => ⟨hsig sig hs, hres sig hs⟩)
  next hv =>
    have hsigs := hloop.1 hv
    rw [Option.map_eq_none_iff, firstPair_overlap_eq_none_iff fun sig hs => (hsigs sig hs).1.1]
    constructor
    · rintro ⟨⟨hdlc, hnsig, hres⟩, hpair⟩
      exact ⟨⟨hdlc, hnsig, fun sig hs => (hsigs sig hs).1, hpair⟩, hres, fun sig hs => (hsigs sig hs).2⟩
    · rintro ⟨⟨hdlc, hnsig, -, hpair⟩, hres, -⟩
      exact ⟨⟨hdlc, hnsig, hres⟩, hpair⟩

/-- Where `first_violation` finds nothing, the records of the image are a valid table (41_table_build.md R132). -/
theorem tableValid_of_firstViolation_eq_none {ν : Type} {N : NumType ν} (hN : N.Ordered) {p : Params} {img : Image ν}
    (h : firstViolation N p img = none) : tableValid N p (installedRecords img) := by
  simp only [firstViolation, ite_some_eq_none_iff, Nat.not_lt] at h
  obtain ⟨-, hcount, h⟩ := h
  split at h
  next => cases h
  next hmsgs =>
    rw [Option.map_eq_none_iff, firstPair_eq_none] at h
    have hmsg :=
      (firstFault_eq_none_iff_forall (check := messageFault N) fun _ _ => messageFault_eq_none_iff hN).1 hmsgs
    refine ⟨by simpa [installedRecords] using hcount, ?_, ?_⟩
    · rw [installedRecords, List.forall_mem_map]
      exact fun msg hm => (hmsg msg hm).1
    · rw [installedRecords, List.pairwise_map]
      exact h.imp idsCollide_eq_false_iff.1

/-- The held state that reset leaves meets the invariant. -/
theorem heldReset_inv {ν : Type} (N : NumType ν) (p : Params) : Held.Inv N p (Held.reset : Held ν) := by
  constructor <;> simp

/-- A table that BUILD installs meets the invariant; its message count fits NMSG's nine bits. -/
theorem heldInv_install {ν : Type} {N : NumType ν} (hN : N.Ordered) {p : Params} {img : Image ν}
    (h : firstViolation N p img = none) :
    Held.Inv N p { table := installedRecords img, nmsg := BitVec.ofNat 9 img.msgs.length, tvalid := true } := by
  have hvalid := tableValid_of_firstViolation_eq_none hN h
  have hlen : (installedRecords img).length = img.msgs.length := by simp [installedRecords]
  have hcount : img.msgs.length < 2 ^ 9 := by
    have := hvalid.1
    have := p.nMsgMax.isLt
    omega
  exact ⟨fun _ => ⟨by rw [hlen, BitVec.toNat_ofNat, Nat.mod_eq_of_lt hcount], hvalid⟩, nofun⟩

/-- Every request keeps the invariant: it leaves the held state, or is a BUILD that installs a valid table. -/
theorem respond_keeps_inv {ν : Type} {N : NumType ν} (hN : N.Ordered) {p : Params} {h : Held ν} (hi : Held.Inv N p h)
    (r : Request ν) : Held.Inv N p (respond N p h r).1 := by
  obtain he | ⟨-, -, hv, he⟩ := respond_held N p h r
  · rwa [he]
  · rw [he]
    exact heldInv_install hN hv

/-- Every step keeps the invariant. -/
theorem step_keeps_inv {s t : State} (hi : State.Inv s) (h : step s = .next t) : State.Inv t := by
  obtain ⟨-, hs⟩ | ⟨rest, -, hs⟩ | ⟨r, rest, -, hs⟩ := step_cases s <;> rw [hs] at h <;> cases h
  · exact hi
  · exact heldReset_inv rational s.params
  · exact respond_keeps_inv rational_ordered hi r

/-- Settles O13: a request by `respond_keeps_inv`, a step by `step_keeps_inv`. -/
theorem everyStepKeepsTheStateInvariant : Obligations.EveryStepKeepsTheStateInvariant :=
  ⟨fun _ _ => step_keeps_inv, fun _ _ _ _ r hN hi => respond_keeps_inv hN hi r⟩

/-- Settles O12: the reset state's held state is `Held.reset`. -/
theorem resetMeetsTheStateInvariant : Obligations.ResetMeetsTheStateInvariant :=
  ⟨heldReset_inv rational Params.default, fun _ => heldReset_inv⟩

end Sys2Proof.Machine
end

section
/-! PROOFS. The responses (10_state.md R28, R29): what each operation answers, an error result or its OK response; O8, O9, O17, O24 and O25. -/

namespace Sys2Proof.Machine

open Sys2Proof

/-! ## Error results -/

/-- An error result (60_exceptions.md R171): a status that is not OK, with what it records and nothing delivered. -/
def Response.IsError {ν : Type} (N : NumType ν) (x : Response ν) : Prop :=
  ∃ st sub m s aux, st ≠ .ok ∧ x = errorResult N st sub m s aux

theorem Response.IsError.st_ne_ok {ν : Type} {N : NumType ν} {x : Response ν} (h : x.IsError N) : x.st ≠ .ok := by
  obtain ⟨st, sub, m, s, aux, hst, rfl⟩ := h
  exact hst

theorem errorStatus_isError {ν : Type} (N : NumType ν) {st : Status} (h : st ≠ .ok) : (errorStatus N st).IsError N :=
  ⟨st, none, _, _, _, h, rfl⟩

theorem errorAtSignal_isError {ν : Type} (N : NumType ν) {st : Status} (h : st ≠ .ok) (m : BitVec 8) (s : BitVec 6) :
    (errorAtSignal N st m s).IsError N :=
  ⟨st, none, m, s, _, h, rfl⟩

theorem violationResult_isError {ν : Type} (N : NumType ν) (v : Violation) : (violationResult N v).IsError N :=
  ⟨.tableInvalid, some v.sub, _, _, _, nofun, rfl⟩

theorem installedTable_error_ne_ok {ν : Type} {h : Held ν} {e : Status} (he : installedTable h = .error e) :
    e ≠ .ok := by
  unfold installedTable at he
  split at he <;> cases he
  nofun

/-- A record of the table that is read is one below NMSG. -/
theorem installedTable_getElem? {ν : Type} {h : Held ν} {table : List (Message ν)} {j : Nat} {msg : Message ν}
    (ht : installedTable h = .ok table) (hj : table[j]? = some msg) : j < h.nmsg.toNat ∧ h.table[j]? = some msg := by
  unfold installedTable at ht
  split at ht <;> cases ht
  rw [List.getElem?_take] at hj
  split at hj
  next hlt => exact ⟨hlt, hj⟩
  next => cases hj

theorem messageAt_error_ne_ok {ν : Type} {h : Held ν} {m : BitVec 8} {e : Status} (he : messageAt h m = .error e) :
    e ≠ .ok := by
  unfold messageAt at he
  split at he
  next ht =>
    cases he
    exact installedTable_error_ne_ok ht
  next => split at he <;> cases he; nofun

theorem signalAt_error_ne_ok {ν : Type} {h : Held ν} {m : BitVec 8} {k : BitVec 6} {e : Status}
    (he : signalAt h m k = .error e) : e ≠ .ok := by
  unfold signalAt at he
  split at he
  next hm =>
    cases he
    exact messageAt_error_ne_ok hm
  next => split at he <;> cases he; nofun

/-! ## What each operation answers -/

section
variable {ν : Type} (N : NumType ν) (p : Params) (h : Held ν) (pol : Policy) (m : BitVec 8) (k : BitVec 6)
  (r : Request ν)

theorem findResponse_cases :
    (findResponse N h r).IsError N ∨ ∃ j, findResponse N h r = { okResponse N with m := BitVec.ofNat 8 j } := by
  unfold findResponse
  split
  next ht => exact .inl (errorStatus_isError N (installedTable_error_ne_ok ht))
  next =>
    split
    next => exact .inl (errorStatus_isError N (by decide))
    next j _ => exact .inr ⟨j, rfl⟩

theorem decResponse_cases :
    (decResponse N h m k r).IsError N ∨ ∃ sig, signalAt h m k = .ok sig ∧
      decResponse N h m k r =
        { okResponse N with v := decodeValue N sig r.pay, fl := decodeFlags N sig (decodeValue N sig r.pay) } := by
  unfold decResponse
  split
  next hs => exact .inl (errorStatus_isError N (signalAt_error_ne_ok hs))
  next sig hs =>
    split_ifs
    · exact .inl (errorStatus_isError N (by decide))
    · exact .inl (errorAtSignal_isError N (by decide) m k)
    · exact .inr ⟨sig, hs, rfl⟩

/-- An `encode` that does not reject answers what it answers under the clamp policy. -/
theorem encodeSignal_eq_some {sig : Signal ν} {v : ν} {pay : Payload} {y : Payload × Flags}
    (he : encodeSignal N p pol sig v pay = some y) : y = encodeClamped N p sig v pay := by
  unfold encodeSignal at he
  split at he
  next => exact (Option.some.inj he).symm
  next =>
    split at he
    next => cases he
    next => exact (Option.some.inj he).symm

theorem encResponse_cases :
    (encResponse N p h pol m k r).IsError N ∨ ∃ sig, signalAt h m k = .ok sig ∧
      encResponse N p h pol m k r =
        { okResponse N with
          pay := (encodeClamped N p sig r.v r.pay).1, fl := (encodeClamped N p sig r.v r.pay).2 } := by
  unfold encResponse
  split
  next hs => exact .inl (errorStatus_isError N (signalAt_error_ne_ok hs))
  next sig hs =>
    split
    next => exact .inl (errorAtSignal_isError N (by decide) m k)
    next pay fl he =>
      exact .inr ⟨sig, hs, by rw [← encodeSignal_eq_some N p pol he]⟩

theorem decodeMessage_cases (msg : Message ν) (len : BitVec 4) (pay : Payload) :
    (∃ j, decodeMessage N m msg len pay = errorAtSignal N .payloadTooShort m j) ∨
    decodeMessage N m msg len pay =
      { okResponse N with
        vals := lanes (numZero N) (msg.sig.map fun sig => decodeValue N sig pay)
        vfl := lanes noFlags (msg.sig.map fun sig => decodeFlags N sig (decodeValue N sig pay)) } := by
  unfold decodeMessage
  split
  next j _ => exact .inl ⟨_, rfl⟩
  next => exact .inr rfl

theorem decallResponse_cases :
    (decallResponse N h m r).IsError N ∨ ∃ msg, messageAt h m = .ok msg ∧
      decallResponse N h m r =
        { okResponse N with
          vals := lanes (numZero N) (msg.sig.map fun sig => decodeValue N sig r.pay)
          vfl := lanes noFlags (msg.sig.map fun sig => decodeFlags N sig (decodeValue N sig r.pay)) } := by
  unfold decallResponse
  split
  next hm => exact .inl (errorStatus_isError N (messageAt_error_ne_ok hm))
  next msg hm =>
    split_ifs
    · exact .inl (errorStatus_isError N (by decide))
    · obtain ⟨j, he⟩ | he := decodeMessage_cases N m msg r.len r.pay
      · exact .inl (he ▸ errorAtSignal_isError N (by decide) m j)
      · exact .inr ⟨msg, hm, he⟩

theorem encallResponse_cases :
    (encallResponse N p h pol m r).IsError N ∨ ∃ msg, messageAt h m = .ok msg ∧
      encallResponse N p h pol m r =
        { okResponse N with
          pay := (encodeLoop N p (assignments msg r.vals) zeroPayload).1
          len := BitVec.ofNat 4 msg.dlc.val
          vfl := lanes noFlags (encodeLoop N p (assignments msg r.vals) zeroPayload).2 } := by
  unfold encallResponse
  split
  next hm => exact .inl (errorStatus_isError N (messageAt_error_ne_ok hm))
  next msg hm =>
    split
    next j _ => exact .inl (errorAtSignal_isError N (by decide) m _)
    next => exact .inr ⟨msg, hm, rfl⟩

theorem txfResponse_cases :
    (txfResponse N p h pol m r).IsError N ∨ ∃ msg, messageAt h m = .ok msg ∧
      txfResponse N p h pol m r =
        { okResponse N with
          id := msg.messageId
          pay := (encodeLoop N p (assignments msg r.vals) zeroPayload).1
          len := BitVec.ofNat 4 msg.dlc.val
          vfl := lanes noFlags (encodeLoop N p (assignments msg r.vals) zeroPayload).2 } := by
  obtain he | ⟨msg, hm, he⟩ := encallResponse_cases N p h pol m r
  · refine .inl ?_
    unfold txfResponse
    split
    next hst _ => exact absurd hst he.st_ne_ok
    next => exact he
  · exact .inr ⟨msg, hm, by simp [txfResponse, he, hm, okResponse]⟩

theorem rxfResponse_cases :
    (rxfResponse N h r).IsError N ∨ ∃ j msg, j < h.nmsg.toNat ∧ h.table[j]? = some msg ∧
      rxfResponse N h r =
        { okResponse N with
          m := BitVec.ofNat 8 j
          vals := lanes (numZero N) (msg.sig.map fun sig => decodeValue N sig r.pay)
          vfl := lanes noFlags (msg.sig.map fun sig => decodeFlags N sig (decodeValue N sig r.pay)) } := by
  unfold rxfResponse
  split
  next ht => exact .inl (errorStatus_isError N (installedTable_error_ne_ok ht))
  next table ht =>
    split_ifs
    · exact .inl (errorStatus_isError N (by decide))
    · split
      next => exact .inl (errorStatus_isError N (by decide))
      next j _ =>
        split
        next => exact .inl (errorStatus_isError N (by decide))
        next msg hmsg =>
          obtain ⟨i, he⟩ | he := decodeMessage_cases N (BitVec.ofNat 8 j) msg r.len r.pay <;> rw [he]
          · exact .inl (errorAtSignal_isError N (st := .payloadTooShort) (by decide) _ i)
          · obtain ⟨hj, hrec⟩ := installedTable_getElem? ht hmsg
            exact .inr ⟨j, msg, hj, hrec, rfl⟩

theorem getmResponse_cases :
    (getmResponse N h m).IsError N ∨ ∃ info, getmResponse N h m = { okResponse N with msg := info } := by
  unfold getmResponse
  split
  next hm => exact .inl (errorStatus_isError N (messageAt_error_ne_ok hm))
  next => exact .inr ⟨_, rfl⟩

theorem getsResponse_cases :
    (getsResponse N h m k).IsError N ∨ ∃ sig, getsResponse N h m k = { okResponse N with sig := sig } := by
  unfold getsResponse
  split
  next hs => exact .inl (errorStatus_isError N (signalAt_error_ne_ok hs))
  next sig _ => exact .inr ⟨sig, rfl⟩

end

/-! ## OK responses set only their fields -/

/-- A lane-wise map that keeps the zero and every listed element keeps the array. -/
theorem map_lanes_eq_self {α : Type} {f : α → α} {zero : α} {xs : List α} (hz : f zero = zero)
    (hx : ∀ x ∈ xs, f x = x) : (lanes zero xs).map f = lanes zero xs := by
  ext j hj
  rw [Vector.getElem_map, lanes_getElem, List.getD_eq_getElem?_getD]
  cases hj' : xs[j]? with
  | none => exact hz
  | some x => exact hx x (List.mem_of_getElem? hj')

/-- A decoded message sets no flag but `oor` (10_state.md R30). -/
theorem map_decodeFlags_lanes {ν : Type} (N : NumType ν) (sigs : List (Signal ν)) (pay : Payload) :
    (lanes noFlags (sigs.map fun sig => decodeFlags N sig (decodeValue N sig pay))).map
        (fun fl => { noFlags with oor := fl.oor }) =
      lanes noFlags (sigs.map fun sig => decodeFlags N sig (decodeValue N sig pay)) :=
  map_lanes_eq_self rfl (List.forall_mem_map.2 fun _ _ => rfl)

/-- An encoded message sets no flag but `clamped` and `rovf` (10_state.md R30). -/
theorem map_encodeFlags_lanes {ν : Type} (N : NumType ν) (p : Params) (xs : List (Signal ν × ν)) (pay : Payload) :
    (lanes noFlags (encodeLoop N p xs pay).2).map
        (fun fl => { noFlags with clamped := fl.clamped, rovf := fl.rovf }) =
      lanes noFlags (encodeLoop N p xs pay).2 := by
  rw [encodeLoop_flags]
  exact map_lanes_eq_self rfl (List.forall_mem_map.2 fun _ _ => rfl)

/-- Every operation answers an error result, or a response that sets only the fields it lists (30_encoding.md R75). -/
theorem operate_isError_or_settable {ν : Type} (N : NumType ν) (p : Params) (i : Instr) (h : Held ν) (r : Request ν) :
    (operate N p i h r).2.IsError N ∨ settable N i (operate N p i h r).2 = (operate N p i h r).2 := by
  cases i with
  | build =>
    obtain ⟨-, he⟩ | ⟨v, -, -, he⟩ | ⟨-, -, he⟩ := buildTable_cases N p h r <;> simp only [operate, he]
    · exact .inl (errorStatus_isError N (by decide))
    · exact .inl (violationResult_isError N v)
    · exact .inr rfl
  | find =>
    refine (findResponse_cases N h r).imp_right ?_
    rintro ⟨j, he⟩
    simp only [operate, settable, he]
  | dec m k =>
    refine (decResponse_cases N h m k r).imp_right ?_
    rintro ⟨sig, -, he⟩
    simp only [operate, settable, he]
    rfl
  | enc pol m k =>
    refine (encResponse_cases N p h pol m k r).imp_right ?_
    rintro ⟨sig, -, he⟩
    simp only [operate, settable, he]
    rfl
  | decall m =>
    refine (decallResponse_cases N h m r).imp_right ?_
    rintro ⟨msg, -, he⟩
    simp only [operate, settable, he, map_decodeFlags_lanes]
  | encall pol m =>
    refine (encallResponse_cases N p h pol m r).imp_right ?_
    rintro ⟨msg, -, he⟩
    simp only [operate, settable, he, map_encodeFlags_lanes]
  | rxf =>
    refine (rxfResponse_cases N h r).imp_right ?_
    rintro ⟨j, msg, -, -, he⟩
    simp only [operate, settable, he, map_decodeFlags_lanes]
  | txf pol m =>
    refine (txfResponse_cases N p h pol m r).imp_right ?_
    rintro ⟨msg, -, he⟩
    simp only [operate, settable, he, map_encodeFlags_lanes]
  | stat => exact .inr rfl
  | getm m =>
    refine (getmResponse_cases N h m).imp_right ?_
    rintro ⟨info, he⟩
    simp only [operate, settable, he]
  | gets m k =>
    refine (getsResponse_cases N h m k).imp_right ?_
    rintro ⟨sig, he⟩
    simp only [operate, settable, he]

/-- The response that stands after `exec` is the block's. -/
theorem exec_rsp {s t : State} {r : Request} {rest : List Event} {i : Instr} {x : Response}
    (hp : s.pending = .request r :: rest) (h : exec i s = .next t) (hx : t.rsp = some x) :
    x = (operate rational s.params i s.toHeld r).2 := by
  rw [exec_request hp] at h
  cases h
  exact (Option.some.inj hx).symm

/-- Settles O24: a response that is OK is no error result. -/
theorem okResponsesSetOnlyTheirFields : Obligations.OkResponsesSetOnlyTheirFields := by
  unfold Obligations.OkResponsesSetOnlyTheirFields
  intro i s t r rest x hp h hx hok
  obtain rfl := exec_rsp hp h hx
  obtain he | he := operate_isError_or_settable rational s.params i s.toHeld r
  · exact absurd hok he.st_ne_ok
  · exact he

/-! ## Inactive lanes -/

/-- Every lane from `n` on is zero (10_state.md R29). -/
def Response.ZeroFrom {ν : Type} (N : NumType ν) (n : Nat) (x : Response ν) : Prop :=
  ∀ (j : Nat) (h : j < 64), n ≤ j → x.vals[j] = numZero N ∧ x.vfl[j] = noFlags

theorem lanes_nil {α : Type} (zero : α) : lanes zero [] = Vector.replicate 64 zero := by
  ext j hj
  simp

theorem lanes_getElem_of_length_le {α : Type} {zero : α} {xs : List α} {j : Nat} (h : j < 64) (hl : xs.length ≤ j) :
    (lanes zero xs)[j] = zero := by
  rw [lanes_getElem, List.getD_eq_default _ _ hl]

/-- Arrays that list at most `n` elements are zero from lane `n` on. -/
theorem zeroFrom_of_lanes {ν : Type} {N : NumType ν} {x : Response ν} {xs : List ν} {fls : List Flags} {n : Nat}
    (hv : x.vals = lanes (numZero N) xs) (hf : x.vfl = lanes noFlags fls) (hxs : xs.length ≤ n)
    (hfls : fls.length ≤ n) : x.ZeroFrom N n := by
  intro j hj hn
  rw [hv, hf]
  exact ⟨lanes_getElem_of_length_le hj (hxs.trans hn), lanes_getElem_of_length_le hj (hfls.trans hn)⟩

/-- An error result delivers no value in any lane. -/
theorem Response.IsError.zeroFrom {ν : Type} {N : NumType ν} {x : Response ν} (h : x.IsError N) (n : Nat) :
    x.ZeroFrom N n := by
  obtain ⟨st, sub, m, s, aux, -, rfl⟩ := h
  exact zeroFrom_of_lanes (lanes_nil _).symm (lanes_nil _).symm (Nat.zero_le n) (Nat.zero_le n)

/-- The loop of ENCALL gives no more flags than the message has signals. -/
theorem encodeLoop_flags_length_le {ν : Type} (N : NumType ν) (p : Params) (msg : Message ν) (vals : Vector ν 64)
    (pay : Payload) : (encodeLoop N p (assignments msg vals) pay).2.length ≤ msg.sig.length := by
  rw [encodeLoop_flags, List.length_map, assignments, List.length_zip]
  exact Nat.min_le_left ..

section
variable {ν : Type} (N : NumType ν) (p : Params) {h : Held ν} (pol : Policy) {m : BitVec 8} {msg : Message ν}
  (r : Request ν)

theorem decallResponse_zeroFrom (hm : messageAt h m = .ok msg) :
    (decallResponse N h m r).ZeroFrom N msg.sig.length := by
  obtain he | ⟨msg', hm', he⟩ := decallResponse_cases N h m r
  · exact he.zeroFrom _
  · cases hm.symm.trans hm'
    rw [he]
    exact zeroFrom_of_lanes rfl rfl (List.length_map _).le (List.length_map _).le

theorem encallResponse_zeroFrom (hm : messageAt h m = .ok msg) :
    (encallResponse N p h pol m r).ZeroFrom N msg.sig.length := by
  obtain he | ⟨msg', hm', he⟩ := encallResponse_cases N p h pol m r
  · exact he.zeroFrom _
  · cases hm.symm.trans hm'
    rw [he]
    exact zeroFrom_of_lanes (lanes_nil _).symm rfl (Nat.zero_le _) (encodeLoop_flags_length_le ..)

theorem txfResponse_zeroFrom (hm : messageAt h m = .ok msg) :
    (txfResponse N p h pol m r).ZeroFrom N msg.sig.length := by
  obtain he | ⟨msg', hm', he⟩ := txfResponse_cases N p h pol m r
  · exact he.zeroFrom _
  · cases hm.symm.trans hm'
    rw [he]
    exact zeroFrom_of_lanes (lanes_nil _).symm rfl (Nat.zero_le _) (encodeLoop_flags_length_le ..)

/-- Under the invariant RXF's 8-bit index names the message it decoded: a table has at most 256 records. -/
theorem rxfResponse_zeroFrom {N : NumType ν} {p : Params} (hi : Held.Inv N p h) (hm : messageAt h m = .ok msg)
    (hr : (rxfResponse N h r).m = m) : (rxfResponse N h r).ZeroFrom N msg.sig.length := by
  obtain he | ⟨k, msg', hk, hmsg', he⟩ := rxfResponse_cases N h r
  · exact he.zeroFrom _
  · obtain ⟨ht, -, hmsg⟩ := messageAt_ok_iff.1 hm
    obtain ⟨hn, hcount, -⟩ := hi.1 ht
    have hkm : k = m.toNat := by
      have hmax := p.nMsgMax.isLt
      rw [← hr, he, BitVec.toNat_ofNat, Nat.mod_eq_of_lt (by omega)]
    subst hkm
    cases hmsg.symm.trans hmsg'
    rw [he]
    exact zeroFrom_of_lanes rfl rfl (List.length_map _).le (List.length_map _).le

end

/-- Settles O25: each operation's inactive lanes, for the message that `Installed` names. -/
theorem inactiveLanesAreZero : Obligations.InactiveLanesAreZero := by
  unfold Obligations.InactiveLanesAreZero
  intro s t r rest x m msg pol hp hinst hexec hx
  have hm := messageAt_installed hinst
  suffices hzero : x.ZeroFrom rational msg.sig.length from hzero
  obtain h | h | h | ⟨hi, h, y, hy, -, hym⟩ := hexec <;> obtain rfl := exec_rsp hp h hx
  · exact decallResponse_zeroFrom rational r hm
  · exact encallResponse_zeroFrom rational s.params pol r hm
  · exact txfResponse_zeroFrom rational s.params pol r hm
  · cases hx.symm.trans hy
    exact rxfResponse_zeroFrom r hi hm hym

/-! ## The step, reset and the frame of the operations -/

/-- Settles O17: the frame is that of `exec_other`. -/
theorem operationsOtherThanBuildWriteNoHeldState : Obligations.OperationsOtherThanBuildWriteNoHeldState :=
  fun _ _ _ _ hi hp => ⟨_, exec_other hp hi⟩

/-- Settles O8: the two branches of `step` that lead to `exec`. -/
theorem stepRunsTheDecodedOperation : Obligations.StepRunsTheDecodedOperation := by
  unfold Obligations.StepRunsTheDecodedOperation
  intro s r rest i hp hd
  simp only [step, hp, hd]

/-- Settles O9: the held state at reset is `Held.reset`. -/
theorem resetLeavesNoTable : Obligations.ResetLeavesNoTable :=
  ⟨heldReset_tvalid, heldReset_nmsg, heldReset_table⟩

end Sys2Proof.Machine
end

section
/-! PROOFS. The payload bit space (20_memory.md R42 to R49, R60): fields as sets of cells and of positions, the laws of `extract` and `insert` and their whole-word forms; O37, O38, O39 and O40. -/

namespace Sys2Proof.Machine

open Sys2Proof

/-! ## The cells of a field -/

/-- The cells of a signal are those of the positions in its interval, in order. -/
theorem cells_eq_map_range' {ν : Type} (sig : Signal ν) :
    cells sig = (List.range' (sigStart sig) (sigLen sig)).map (cell sig.byteOrder) := by
  simp [cells, sigCell, List.range'_eq_map_range, Function.comp_def]

theorem mem_cells_iff_position {ν : Type} {sig : Signal ν} {c : Nat × Nat} :
    c ∈ cells sig ↔ ∃ p, (sigStart sig ≤ p ∧ p < sigStart sig + sigLen sig) ∧ cell sig.byteOrder p = c := by
  simp [cells_eq_map_range', List.mem_range'_1]

/-- As `cell` is one-to-one, a position's cell is the field's exactly when the position is. -/
theorem cell_mem_cells_iff {ν : Type} {sig : Signal ν} {p : Nat} :
    cell sig.byteOrder p ∈ cells sig ↔ sigStart sig ≤ p ∧ p < sigStart sig + sigLen sig := by
  rw [mem_cells_iff_position]
  constructor
  · rintro ⟨q, hq, hcell⟩
    rwa [← cell_injective hcell]
  · exact fun hp => ⟨p, hp, rfl⟩

theorem sigCell_mem_cells {ν : Type} {sig : Signal ν} {i : Nat} (hi : i < sigLen sig) : sigCell sig i ∈ cells sig :=
  mem_cells.2 ⟨i, hi, rfl⟩

/-- The field's cells lie in the bytes from `start_bit div 8` up to, but not including, `need`. -/
theorem cells_byte_bounds {ν : Type} {sig : Signal ν} {c : Nat × Nat} (h : c ∈ cells sig) :
    sigStart sig / 8 ≤ c.1 ∧ c.1 < need sig := by
  obtain ⟨p, hp, rfl⟩ := mem_cells_iff_position.1 h
  rw [cell_fst, need]
  omega

theorem need_le_eight {ν : Type} {sig : Signal ν} (h : fieldInside sig) : need sig ≤ 8 := by
  rw [need]
  omega

/-- Of two signals of one byte order, the cells are disjoint exactly when the intervals are (20_memory.md R49). -/
theorem intervalsDisjoint_iff_cellsDisjoint {ν : Type} {a b : Signal ν} (ho : a.byteOrder = b.byteOrder) :
    intervalsDisjoint a b ↔ cellsDisjoint a b := by
  have hcell (p : Nat) : cell a.byteOrder p ∈ cells b ↔ sigStart b ≤ p ∧ p < sigStart b + sigLen b := by
    rw [ho, cell_mem_cells_iff]
  constructor
  · intro h c hca hcb
    obtain ⟨p, hpa, rfl⟩ := mem_cells_iff_position.1 hca
    exact h p ⟨hpa.1, hpa.2, (hcell p).1 hcb⟩
  · rintro h p ⟨hlo, hhi, hpb⟩
    exact h _ (cell_mem_cells_iff.2 ⟨hlo, hhi⟩) ((hcell p).2 hpb)

theorem cells_nodup {ν : Type} (sig : Signal ν) : (cells sig).Nodup := by
  rw [cells_eq_map_range']
  exact (List.nodup_range' ..).map fun _ _ => cell_injective

/-- Settles O40: the two pairs of signals of the rule by their lists of cells. -/
theorem intervalsAndCellsAgreeWithinOneByteOrder : Obligations.IntervalsAndCellsAgreeWithinOneByteOrder := by
  refine ⟨fun _ sig => ⟨cells_nodup sig, by simp [cells]⟩, fun _ a b => intervalsDisjoint_iff_cellsDisjoint, ?_, ?_⟩
  · intro ν a b hoa hsa hla hob hsb hlb
    have hcells : (cells a).Perm (cells b) := by
      rw [cells_eq_map_range', cells_eq_map_range', hoa, hsa, hla, hob, hsb, hlb]
      decide
    refine ⟨?_, fun c => hcells.mem_iff⟩
    intro p
    omega
  · intro ν a b hoa hsa hla hob hsb hlb
    refine ⟨fun h => h 0 (by omega), ?_⟩
    rw [cellsDisjoint, cells_eq_map_range', cells_eq_map_range', hoa, hsa, hla, hob, hsb, hlb]
    decide

/-! ## Reading and writing a field -/

/-- What a cell inside the buffer holds after `insert`. -/
theorem cellBit_insert_of_lt {ν : Type} {c : Nat × Nat} (hb : c.1 < 8) (hk : c.2 < 8) (sig : Signal ν) (w : Nat)
    (pay : Payload) : cellBit (insert sig w pay) c = insertedBit sig w pay c :=
  cellBit_insert sig w pay c.1 c.2 hb hk

theorem sigCell_bounds {ν : Type} {sig : Signal ν} {i : Nat} (h : fieldInside sig) (hi : i < sigLen sig) :
    (sigCell sig i).1 < 8 ∧ (sigCell sig i).2 < 8 :=
  ⟨(cells_byte_bounds (sigCell_mem_cells hi)).2.trans_le (need_le_eight h), cell_snd_lt _ _⟩

/-- `insert` leaves a byte in which the field has no cell. -/
theorem insert_getElem_of_no_cell {ν : Type} {sig : Signal ν} {b : Nat} (hb : b < 8)
    (h : ∀ c ∈ cells sig, c.1 ≠ b) (w : Nat) (pay : Payload) : (insert sig w pay)[b] = pay[b] := by
  apply BitVec.eq_of_getLsbD_eq
  intro k hk
  rw [← cellBit_of_lt _ _ _ hb, ← cellBit_of_lt _ _ _ hb, cellBit_insert _ _ _ _ _ hb hk,
    insertedBit_outside fun hc => h _ hc rfl]

/-- Settles O37: what a cell of the result holds, inside the field and outside. -/
theorem insertWritesExactlyTheFieldsCells : Obligations.InsertWritesExactlyTheFieldsCells := by
  refine ⟨fun ν sig w pay b k hb hk => ?_, fun _ _ _ => cell_injective⟩
  rw [← cellBit_of_lt _ _ _ hb, ← cellBit_of_lt _ _ _ hb, cellBit_insert _ _ _ _ _ hb hk]
  constructor
  · intro i hi hcell
    rw [← hcell]
    exact insertedBit_inside hi w pay
  · intro hne
    refine insertedBit_outside (fun hc => ?_) w pay
    obtain ⟨i, hi, hcell⟩ := mem_cells.1 hc
    exact hne i hi hcell

/-- First law of 20_memory.md R60: the bit read at each position's weight is the bit of `w` written there. -/
theorem extract_insert {ν : Type} {sig : Signal ν} {w : Nat} (h : fieldInside sig) (hw : w < 2 ^ sigLen sig)
    (pay : Payload) : extract sig (insert sig w pay) = w := by
  obtain ⟨hlt, hbit⟩ := extract_spec sig (insert sig w pay)
  refine eq_of_testBit_weight (order := sig.byteOrder) hlt hw fun i hi => ?_
  obtain ⟨hb, hk⟩ := sigCell_bounds h hi
  calc
    _ = cellBit (insert sig w pay) (sigCell sig i) := hbit i hi
    _ = insertedBit sig w pay (sigCell sig i) := cellBit_insert_of_lt hb hk sig w pay
    _ = w.testBit (weight sig.byteOrder (sigLen sig) i) := insertedBit_inside hi w pay

/-- Second law of 20_memory.md R60: in each of the field's cells the bit written is the bit read there. -/
theorem insert_extract {ν : Type} (sig : Signal ν) (pay : Payload) : insert sig (extract sig pay) pay = pay := by
  refine payload_ext fun b hb k hk => ?_
  rw [cellBit_insert _ _ _ _ _ hb hk]
  by_cases hc : (b, k) ∈ cells sig
  · obtain ⟨i, hi, hcell⟩ := mem_cells.1 hc
    rw [← hcell, insertedBit_inside hi]
    exact (extract_spec sig pay).2 i hi
  · exact insertedBit_outside hc _ _

/-- Two buffers that agree on a field's cells hold the same field. -/
theorem extract_congr {ν : Type} {sig : Signal ν} {p q : Payload}
    (h : ∀ i < sigLen sig, cellBit p (sigCell sig i) = cellBit q (sigCell sig i)) : extract sig p = extract sig q := by
  obtain ⟨hp, hpbit⟩ := extract_spec sig p
  obtain ⟨hq, hqbit⟩ := extract_spec sig q
  exact eq_of_testBit_weight hp hq fun i hi => (hpbit i hi).trans ((h i hi).trans (hqbit i hi).symm)

/-- Third law of 20_memory.md R60: the field of a signal is not changed by an insert into other cells. -/
theorem extract_insert_of_cellsDisjoint {ν : Type} {a b : Signal ν} (ha : fieldInside a) (hab : cellsDisjoint a b)
    (w : Nat) (pay : Payload) : extract a (insert b w pay) = extract a pay := by
  refine extract_congr fun i hi => ?_
  obtain ⟨hb, hk⟩ := sigCell_bounds ha hi
  rw [cellBit_insert_of_lt hb hk, insertedBit_outside (hab _ (sigCell_mem_cells hi))]

/-- `insert` takes from the buffer no bit but that of the cell itself. -/
theorem insertedBit_congr {ν : Type} {sig : Signal ν} {c : Nat × Nat} {p q : Payload} (h : cellBit p c = cellBit q c)
    (w : Nat) : insertedBit sig w p c = insertedBit sig w q c := by
  by_cases hc : c ∈ cells sig
  · obtain ⟨i, hi, rfl⟩ := mem_cells.1 hc
    rw [insertedBit_inside hi, insertedBit_inside hi]
  · rw [insertedBit_outside hc, insertedBit_outside hc, h]

/-- Third law of 20_memory.md R60: a cell is not both of `a` and of `b`, so that in each cell one of the two inserts
leaves the bit as it is. -/
theorem insert_comm_of_cellsDisjoint {ν : Type} {a b : Signal ν} (hab : cellsDisjoint a b) (x w : Nat)
    (pay : Payload) : insert a x (insert b w pay) = insert b w (insert a x pay) := by
  refine payload_ext fun j hj k hk => ?_
  rw [cellBit_insert _ _ _ _ _ hj hk, cellBit_insert _ _ _ _ _ hj hk]
  by_cases hb : (j, k) ∈ cells b
  · have ha : (j, k) ∉ cells a := fun ha => hab _ ha hb
    rw [insertedBit_outside ha, cellBit_insert _ _ _ _ _ hj hk]
    exact insertedBit_congr (by rw [cellBit_insert _ _ _ _ _ hj hk, insertedBit_outside ha]) w
  · rw [insertedBit_outside hb, cellBit_insert _ _ _ _ _ hj hk]
    exact insertedBit_congr (by rw [cellBit_insert _ _ _ _ _ hj hk, insertedBit_outside hb]) x

/-- Settles O38: one lemma for each law. -/
theorem extractAndInsertObeyTheirLaws : Obligations.ExtractAndInsertObeyTheirLaws := by
  refine ⟨fun _ _ _ pay h hw => extract_insert h hw pay, fun _ sig pay _ => insert_extract sig pay,
    fun _ _ _ x w pay ha _ hab =>
      ⟨extract_insert_of_cellsDisjoint ha hab w pay, insert_comm_of_cellsDisjoint hab x w pay⟩, ?_⟩
  intro ν sig w pay b hb _ hout
  refine insert_getElem_of_no_cell hb (fun c hc => ?_) w pay
  have := cells_byte_bounds hc
  omega

/-! ## The whole-word forms -/

/-- The buffer as the 64-bit number of 20_memory.md R47 for a byte order. -/
def payloadWord : ByteOrder → Payload → BitVec 64
  | .le => leWord
  | .be => beWord

/-- The bit of the whole word that holds a position's bit. -/
def wordIndex : ByteOrder → Nat → Nat
  | .le, p => p
  | .be, p => 63 - p

/-- How far from bit 0 a field lies in the whole word (20_memory.md R47). -/
def wordShift {ν : Type} (sig : Signal ν) : Nat :=
  match sig.byteOrder with
  | .le => sigStart sig
  | .be => 64 - sigStart sig - sigLen sig

theorem wordIndex_lt {p : Nat} (order : ByteOrder) (h : p < 64) : wordIndex order p < 64 := by
  cases order <;> simp only [wordIndex] <;> omega

theorem wordIndex_wordIndex {p : Nat} (order : ByteOrder) (h : p < 64) : wordIndex order (wordIndex order p) = p := by
  cases order <;> simp only [wordIndex]
  omega

theorem wordShift_add_sigLen_le {ν : Type} {sig : Signal ν} (h : fieldInside sig) :
    wordShift sig + sigLen sig ≤ 64 := by
  cases ho : sig.byteOrder <;> simp only [wordShift, ho] <;> omega

/-- In the whole word a field's bits stand side by side, each at its weight. -/
theorem wordIndex_sigStart_add {ν : Type} {sig : Signal ν} {i : Nat} (h : fieldInside sig) (hi : i < sigLen sig) :
    wordIndex sig.byteOrder (sigStart sig + i) = wordShift sig + weight sig.byteOrder (sigLen sig) i := by
  cases ho : sig.byteOrder <;> simp only [wordShift, wordIndex, weight, ho]
  omega

/-- Outside the field's positions are the bits below and above it in the whole word. -/
theorem wordIndex_outside {ν : Type} {sig : Signal ν} {p : Nat} (h : fieldInside sig) (hp : p < 64)
    (hout : ¬ (sigStart sig ≤ p ∧ p < sigStart sig + sigLen sig)) :
    wordIndex sig.byteOrder p < wordShift sig ∨ wordShift sig + sigLen sig ≤ wordIndex sig.byteOrder p := by
  cases ho : sig.byteOrder <;> simp only [wordShift, wordIndex, ho] <;> omega

/-- A byte of the whole little-endian word. -/
theorem leWord_getLsbD {b k : Nat} (pay : Payload) (hb : b < 8) (hk : k < 8) :
    (leWord pay).getLsbD (8 * b + k) = pay[b].getLsbD k := by
  unfold leWord
  -- Byte `b` stands behind the `b` bytes appended below it.
  interval_cases b
  all_goals
    simp (disch := omega) only [BitVec.getLsbD_append, if_pos, if_neg]
    exact congrArg _ (by omega)

/-- The big-endian word is the little-endian word of the reversed buffer. -/
theorem beWord_eq_leWord_reverse (pay : Payload) : beWord pay = leWord pay.reverse := by
  simp [beWord, leWord]

theorem beWord_getLsbD {b k : Nat} (pay : Payload) (hb : b < 8) (hk : k < 8) :
    (beWord pay).getLsbD (8 * (7 - b) + k) = pay[b].getLsbD k := by
  have hrev : 8 - 1 - (7 - b) = b := by omega
  rw [beWord_eq_leWord_reverse, leWord_getLsbD _ (by omega) hk]
  simp only [Vector.getElem_reverse, hrev]

/-- The whole word of a byte order holds the bit of every position of that order. -/
theorem payloadWord_getLsbD {order : ByteOrder} {p : Nat} (hp : p < 64) (pay : Payload) :
    (payloadWord order pay).getLsbD (wordIndex order p) = payBit pay order p := by
  have hb : p / 8 < 8 := by omega
  cases order with
  | le =>
    have hp8 : p = 8 * (p / 8) + p % 8 := by omega
    calc
      _ = (leWord pay).getLsbD (8 * (p / 8) + p % 8) := congrArg _ hp8
      _ = _ := leWord_getLsbD pay hb (by omega)
      _ = payBit pay .le p := (cellBit_of_lt pay _ _ hb).symm
  | be =>
    have hp8 : 63 - p = 8 * (7 - p / 8) + (7 - p % 8) := by omega
    calc
      _ = (beWord pay).getLsbD (8 * (7 - p / 8) + (7 - p % 8)) := congrArg _ hp8
      _ = _ := beWord_getLsbD pay hb (by omega)
      _ = payBit pay .be p := (cellBit_of_lt pay _ _ hb).symm

/-- `W'` of 20_memory.md R47: `n` bits of a word, from bit `sh` up, replaced by those of `w`. -/
def mergeField (x : BitVec 64) (sh n w : Nat) : BitVec 64 :=
  (x &&& ~~~(BitVec.ofNat 64 (2 ^ n - 1) <<< sh)) ||| (BitVec.ofNat 64 w <<< sh)

theorem mergeField_getLsbD_inside {sh n k : Nat} (h : sh + n ≤ 64) (hk : k < n) (x : BitVec 64) (w : Nat) :
    (mergeField x sh n w).getLsbD (sh + k) = w.testBit k := by
  have hj : sh + k < 64 := by omega
  have hk64 : k < 64 := by omega
  simp [mergeField, -BitVec.getLsbD_eq_getElem, BitVec.getLsbD_ofNat, hj, hk, hk64]

theorem mergeField_getLsbD_outside {sh n w j : Nat} (hw : w < 2 ^ n) (hj : j < 64) (hout : j < sh ∨ sh + n ≤ j)
    (x : BitVec 64) : (mergeField x sh n w).getLsbD j = x.getLsbD j := by
  rcases hout with hlo | hhi
  · simp [mergeField, hj, hlo]
  · have hn : ¬ j - sh < n := by omega
    have hwj : w.testBit (j - sh) = false :=
      Nat.testBit_lt_two_pow (hw.trans_le (Nat.pow_le_pow_right (by decide) (by omega)))
    simp [mergeField, -BitVec.getLsbD_eq_getElem, BitVec.getLsbD_ofNat, hj, hn, hwj]

/-- The whole-word form of `extract` (20_memory.md R47). -/
theorem extract_eq_payloadWord {ν : Type} {sig : Signal ν} (h : fieldInside sig) (pay : Payload) :
    extract sig pay = ((payloadWord sig.byteOrder pay).toNat >>> wordShift sig) % 2 ^ sigLen sig := by
  obtain ⟨hlt, hbit⟩ := extract_spec sig pay
  refine eq_of_testBit_weight (order := sig.byteOrder) hlt (Nat.mod_lt _ (by positivity)) fun i hi => ?_
  rw [hbit i hi, ← payloadWord_getLsbD (by omega), wordIndex_sigStart_add h hi]
  simp [Nat.testBit_mod_two_pow, weight_lt hi, Nat.testBit_shiftRight, BitVec.getLsbD]

/-- The whole-word form of `insert` (20_memory.md R47). -/
theorem payloadWord_insert {ν : Type} {sig : Signal ν} {w : Nat} (h : fieldInside sig) (hw : w < 2 ^ sigLen sig)
    (pay : Payload) :
    payloadWord sig.byteOrder (insert sig w pay) =
      mergeField (payloadWord sig.byteOrder pay) (wordShift sig) (sigLen sig) w := by
  have hword := wordShift_add_sigLen_le h
  -- The bits of a word are the positions of the payload, one each.
  suffices hpos : ∀ p < 64, payBit (insert sig w pay) sig.byteOrder p =
      (mergeField (payloadWord sig.byteOrder pay) (wordShift sig) (sigLen sig) w).getLsbD
        (wordIndex sig.byteOrder p) by
    refine BitVec.eq_of_getLsbD_eq fun j hj => ?_
    have hp := wordIndex_lt sig.byteOrder hj
    rw [← wordIndex_wordIndex sig.byteOrder hj, payloadWord_getLsbD hp, hpos _ hp]
  intro p hp
  have hb : (cell sig.byteOrder p).1 < 8 := by
    rw [cell_fst]
    omega
  rw [payBit, cellBit_insert_of_lt hb (cell_snd_lt _ _)]
  by_cases hc : cell sig.byteOrder p ∈ cells sig
  · obtain ⟨i, rfl⟩ := Nat.exists_eq_add_of_le (cell_mem_cells_iff.1 hc).1
    have hi : i < sigLen sig := Nat.add_lt_add_iff_left.1 (cell_mem_cells_iff.1 hc).2
    rw [wordIndex_sigStart_add h hi, mergeField_getLsbD_inside hword (weight_lt hi)]
    exact insertedBit_inside hi w pay
  · have hout := wordIndex_outside h hp fun hin => hc (cell_mem_cells_iff.2 hin)
    rw [insertedBit_outside hc, mergeField_getLsbD_outside hw (wordIndex_lt _ hp) hout, payloadWord_getLsbD hp, payBit]

/-- Settles O39: the two forms, at each byte order. -/
theorem wholeWordFormsAgree : Obligations.WholeWordFormsAgree := by
  unfold Obligations.WholeWordFormsAgree
  intro ν sig w pay h hw
  have hextract := extract_eq_payloadWord h pay
  have hinsert := payloadWord_insert h hw pay
  constructor
  all_goals
    intro ho
    simp only [wordShift, ho] at hextract hinsert
    exact ⟨hextract, hinsert⟩

end Sys2Proof.Machine
end

section
/-! PROOFS. The order of service (20_memory.md R54): while the block is OPERATIONAL every request leaves the held state, so that its response does not depend on the requests served before it; O18. -/

namespace Sys2Proof.Machine

open Sys2Proof

/-- In phase OPERATIONAL no request writes held state: BUILD, the only operation that could, is LOCKED. -/
theorem respond_held_operational {ν : Type} (N : NumType ν) (p : Params) {h : Held ν} (ht : h.tvalid = true)
    (r : Request ν) : (respond N p h r).1 = h := by
  obtain he | ⟨-, hf, -⟩ := respond_held N p h r
  · exact he
  · cases ht.symm.trans hf

theorem step_request_operational {s : State} {r : Request} {rest : List Event} (ht : s.tvalid = true)
    (hp : s.pending = .request r :: rest) :
    step s = .next { s with pending := rest, rsp := some (respond rational s.params s.toHeld r).2 } := by
  rw [step_request hp, respond_held_operational rational s.params ht]

/-- In phase OPERATIONAL, requests served first change neither the held state nor the response of the one after them. -/
theorem run_requests_operational {s : State} {pre rest : List Event} {r : Request} (ht : s.tvalid = true)
    (hpre : noReset pre) (hp : s.pending = pre ++ .request r :: rest) :
    Host.Core.run Sys2Proof.core (pre.length + 1) s =
      .next { s with pending := rest, rsp := some (respond rational s.params s.toHeld r).2 } := by
  induction pre generalizing s with
  | nil => exact run_succ (step_request_operational ht hp)
  | cons e pre ih =>
    cases e with
    | reset => exact absurd List.mem_cons_self hpre
    | request q =>
      rw [List.length_cons, run_succ (step_request_operational ht hp)]
      exact ih ht (fun hmem => hpre (List.mem_cons_of_mem _ hmem)) rfl

/-- Settles O18: the response of the request is that of `respond` in the starting state, in both runs. -/
theorem serviceOrderDoesNotShowInResponses : Obligations.ServiceOrderDoesNotShowInResponses := by
  unfold Obligations.ServiceOrderDoesNotShowInResponses
  intro s t u pre rest r ht hpre hp hrun hstep
  rw [run_requests_operational ht hpre hp] at hrun
  have hone := step_request_operational (s := { s with pending := [.request r] }) ht rfl
  cases hrun
  cases hone.symm.trans hstep
  exact ⟨rfl, rfl, rfl, rfl, rfl⟩

end Sys2Proof.Machine
end

section
/-! PROOFS. The command word (30_encoding.md R70 to R73, R87): a word is its fields, `decode` and `encode` agree on them, and a row of the operation map selects by them; O1, O2, O3, O4 and O7. -/

namespace Sys2Proof

/-! ## The fields of a command word -/

/-- `POL` as a bit is bit 27. -/
theorem polBit_polField (w : Word) : polBit (polField w) = w.extractLsb' 27 1 := by
  refine BitVec.eq_of_getLsbD_eq fun k hk => ?_
  obtain rfl : k = 0 := by omega
  rw [polField, BitVec.getLsbD_extractLsb']
  cases w.getLsbD 27 <;> rfl

theorem polBit_injective {p q : Policy} (h : polBit p = polBit q) : p = q := by
  cases p <;> cases q <;> simp_all [polBit]

section
variable (op : BitVec 4) (p : BitVec 1) (pol : Policy) (m : BitVec 8) (s : BitVec 6)

/-- The bits of a command word, its width read as the sum of its fields' widths, which the laws of `++` speak of. -/
theorem extractLsb'_commandWord (start len : Nat) :
    (commandWord op p m s).extractLsb' start len =
      BitVec.extractLsb' (n := 4 + 1 + 11 + 8 + 2 + 6) start len (op ++ p ++ 0#11 ++ m ++ 0#2 ++ s) := rfl

@[simp] theorem opField_commandWord : opField (commandWord op p m s) = op := by
  simp (disch := decide) only [opField, extractLsb'_commandWord, BitVec.extractLsb'_append_eq_of_le, Nat.reduceSub,
    BitVec.extractLsb'_eq_self]

@[simp] theorem polField_commandWord : polField (commandWord op (polBit pol) m s) = pol := by
  apply polBit_injective
  simp (disch := decide) only [polBit_polField, extractLsb'_commandWord, BitVec.extractLsb'_append_eq_of_le,
    BitVec.extractLsb'_append_eq_of_add_le, Nat.reduceSub, BitVec.extractLsb'_eq_self]

@[simp] theorem mField_commandWord : mField (commandWord op p m s) = m := by
  simp (disch := decide) only [mField, extractLsb'_commandWord, BitVec.extractLsb'_append_eq_of_le,
    BitVec.extractLsb'_append_eq_of_add_le, Nat.reduceSub, BitVec.extractLsb'_eq_self]

@[simp] theorem sField_commandWord : sField (commandWord op p m s) = s := by
  simp (disch := decide) only [sField, extractLsb'_commandWord, BitVec.extractLsb'_append_eq_of_add_le,
    BitVec.extractLsb'_eq_self]

@[simp] theorem reservedZero_commandWord : reservedZero (commandWord op p m s) = true := by
  simp (disch := decide) only [reservedZero, extractLsb'_commandWord, BitVec.extractLsb'_append_eq_of_le,
    BitVec.extractLsb'_append_eq_of_add_le, Nat.reduceSub, BitVec.extractLsb'_eq_self, beq_self_eq_true,
    Bool.and_self]

end

/-- A word with no reserved bit set is the command word of its own fields. -/
theorem commandWord_fields {w : Word} (h : reservedZero w = true) :
    commandWord (opField w) (polBit (polField w)) (mField w) (sField w) = w := by
  obtain ⟨h11, h2⟩ : w.extractLsb' 16 11 = 0#11 ∧ w.extractLsb' 6 2 = 0#2 := by
    simpa [reservedZero] using h
  rw [commandWord, polBit_polField, ← h11, ← h2, opField, mField, sField]
  simp (disch := decide) only [BitVec.extractLsb'_append_extractLsb'_eq_extractLsb']
  exact BitVec.extractLsb'_eq_self

/-- A word has the four fields, and no reserved bit set, exactly when it is their command word. -/
theorem commandWord_eq_iff {op : BitVec 4} {pol : Policy} {m : BitVec 8} {s : BitVec 6} {w : Word} :
    commandWord op (polBit pol) m s = w ↔
      reservedZero w = true ∧ opField w = op ∧ polField w = pol ∧ mField w = m ∧ sField w = s := by
  constructor
  · rintro rfl
    simp
  · rintro ⟨hres, rfl, rfl, rfl, rfl⟩
    exact commandWord_fields hres

/-! ## Decoding and encoding -/

/-- `OP` of each operation (30_encoding.md R72). -/
def Instr.opcode : Instr → BitVec 4
  | .build => 0x1#4
  | .find => 0x2#4
  | .dec _ _ => 0x3#4
  | .enc _ _ _ => 0x4#4
  | .decall _ => 0x5#4
  | .encall _ _ => 0x6#4
  | .rxf => 0x7#4
  | .txf _ _ => 0x8#4
  | .stat => 0x9#4
  | .getm _ => 0xA#4
  | .gets _ _ => 0xB#4

/-- `POL` of each operation, clamp (0) in those that have none (30_encoding.md R71). -/
def Instr.policy : Instr → Policy
  | .enc pol _ _ => pol
  | .encall pol _ => pol
  | .txf pol _ => pol
  | _ => .clamp

/-- `M` of each operation, 0 in those that do not use it (30_encoding.md R73). -/
def Instr.mOperand (i : Instr) : BitVec 8 := (Machine.usesM i).getD 0#8

/-- `S` of each operation, 0 in those that do not use it (30_encoding.md R73). -/
def Instr.sOperand (i : Instr) : BitVec 6 := (Machine.usesS i).getD 0#6

theorem encode_eq_commandWord (i : Instr) :
    encode i = commandWord i.opcode (polBit i.policy) i.mOperand i.sOperand := by
  cases i <;> rfl

/-- The fields that a word has when it is the word of operation `i`. -/
def HasFieldsOf (i : Instr) (w : Word) : Prop :=
  reservedZero w = true ∧ opField w = i.opcode ∧ polField w = i.policy ∧ mField w = i.mOperand ∧ sField w = i.sOperand

theorem encode_eq_iff {i : Instr} {w : Word} : encode i = w ↔ HasFieldsOf i w := by
  rw [encode_eq_commandWord, commandWord_eq_iff, HasFieldsOf]

theorem noPol_eq_ok_iff {w : Word} {x : Except IllegalWord Instr} {i : Instr} :
    noPol w x = .ok i ↔ polField w = .clamp ∧ x = .ok i := by
  unfold noPol
  split <;> simp [*]

theorem noM_eq_ok_iff {w : Word} {x : Except IllegalWord Instr} {i : Instr} :
    noM w x = .ok i ↔ mField w = 0#8 ∧ x = .ok i := by
  unfold noM
  split <;> simp [*]

theorem noS_eq_ok_iff {w : Word} {x : Except IllegalWord Instr} {i : Instr} :
    noS w x = .ok i ↔ sField w = 0#6 ∧ x = .ok i := by
  unfold noS
  split <;> simp [*]

/-- Each arm of the decoder has checked the operation code and the fields the operation does not use; the arms
stand in the order of 30_encoding.md R72. -/
theorem hasFieldsOf_of_decode {w : Word} {i : Instr} (h : decode w = .ok i) : HasFieldsOf i w := by
  unfold decode at h
  split at h
  next hres =>
    split at h <;> simp only [noPol_eq_ok_iff, noM_eq_ok_iff, noS_eq_ok_iff, Except.ok.injEq, reduceCtorEq] at h
    next hop => obtain ⟨hpol, hm, hs, rfl⟩ := h; exact ⟨hres, hop, hpol, hm, hs⟩
    next hop => obtain ⟨hpol, hm, hs, rfl⟩ := h; exact ⟨hres, hop, hpol, hm, hs⟩
    next hop => obtain ⟨hpol, rfl⟩ := h; exact ⟨hres, hop, hpol, rfl, rfl⟩
    next hop => obtain rfl := h; exact ⟨hres, hop, rfl, rfl, rfl⟩
    next hop => obtain ⟨hpol, hs, rfl⟩ := h; exact ⟨hres, hop, hpol, rfl, hs⟩
    next hop => obtain ⟨hs, rfl⟩ := h; exact ⟨hres, hop, rfl, rfl, hs⟩
    next hop => obtain ⟨hpol, hm, hs, rfl⟩ := h; exact ⟨hres, hop, hpol, hm, hs⟩
    next hop => obtain ⟨hs, rfl⟩ := h; exact ⟨hres, hop, rfl, rfl, hs⟩
    next hop => obtain ⟨hpol, hm, hs, rfl⟩ := h; exact ⟨hres, hop, hpol, hm, hs⟩
    next hop => obtain ⟨hpol, hs, rfl⟩ := h; exact ⟨hres, hop, hpol, rfl, hs⟩
    next hop => obtain ⟨hpol, rfl⟩ := h; exact ⟨hres, hop, hpol, rfl, rfl⟩
  next => cases h

theorem decode_of_hasFieldsOf {w : Word} {i : Instr} (h : HasFieldsOf i w) : decode w = .ok i := by
  obtain ⟨hres, hop, hpol, hm, hs⟩ := h
  cases i <;> simp only [Instr.opcode] at hop <;>
    simp [decode, noPol, noM, noS, hres, hop, hpol, hm, hs, Instr.policy, Instr.mOperand, Instr.sOperand,
      Machine.usesM, Machine.usesS]

/-- Settles O1: decoding and encoding are both having the operation's fields. -/
theorem everyOperationHasExactlyOneCommandWord : Obligations.EveryOperationHasExactlyOneCommandWord :=
  fun _ _ => ⟨fun h => encode_eq_iff.2 (hasFieldsOf_of_decode h), fun h => decode_of_hasFieldsOf (encode_eq_iff.1 h)⟩

theorem encode_of_decode {w : Word} {i : Instr} (h : decode w = .ok i) : encode i = w :=
  (everyOperationHasExactlyOneCommandWord w i).1 h

/-- Settles O4: each word is evaluated. -/
theorem listedCommandWordsDecode : Obligations.ListedCommandWordsDecode := by
  unfold Obligations.ListedCommandWordsDecode
  decide

/-! ## The operation map -/

/-- The command word of every operation selects the operation's row (one lemma per operation). -/
theorem encode_selects_row (i : Instr) : Laws.EncodingSelectsItsRow.Statement i := by
  cases i with
  | build => exact Laws.EncodingSelectsItsRow.build
  | find => exact Laws.EncodingSelectsItsRow.find
  | dec m s => exact Laws.EncodingSelectsItsRow.dec m s
  | enc pol m s => exact Laws.EncodingSelectsItsRow.enc pol m s
  | decall m => exact Laws.EncodingSelectsItsRow.decall m
  | encall pol m => exact Laws.EncodingSelectsItsRow.encall pol m
  | rxf => exact Laws.EncodingSelectsItsRow.rxf
  | txf pol m => exact Laws.EncodingSelectsItsRow.txf pol m
  | stat => exact Laws.EncodingSelectsItsRow.stat
  | getm m => exact Laws.EncodingSelectsItsRow.getm m
  | gets m s => exact Laws.EncodingSelectsItsRow.gets m s

/-- The map has one row for each mnemonic. -/
theorem operationMap_unique :
    ∀ row ∈ operationMap, ∀ row' ∈ operationMap, row.mnemonic = row'.mnemonic → row = row' := by
  decide

/-- The operation of a row, its operands those of the word. -/
def Mnemonic.operation (w : Word) : Mnemonic → Instr
  | .BUILD => .build
  | .FIND => .find
  | .DEC => .dec (mField w) (sField w)
  | .ENC => .enc (polField w) (mField w) (sField w)
  | .DECALL => .decall (mField w)
  | .ENCALL => .encall (polField w) (mField w)
  | .RXF => .rxf
  | .TXF => .txf (polField w) (mField w)
  | .STAT => .stat
  | .GETM => .getm (mField w)
  | .GETS => .gets (mField w) (sField w)

@[simp] theorem mnemonic_operation (w : Word) (n : Mnemonic) : (n.operation w).mnemonic = n := by
  cases n <;> rfl

/-- Where the mask is all ones, a word is what the masked word is. -/
theorem extractLsb'_eq_of_and_eq {w mask bits : Word} (h : w &&& mask = bits) {start len : Nat}
    (hmask : mask.extractLsb' start len = BitVec.allOnes len) :
    w.extractLsb' start len = bits.extractLsb' start len := by
  rw [← h, BitVec.extractLsb'_and, hmask, BitVec.and_allOnes]

theorem polField_eq_of_and_eq {w mask bits : Word} (h : w &&& mask = bits) (hmask : polField mask = .reject) :
    polField w = polField bits := by
  apply polBit_injective
  rw [polBit_polField, polBit_polField]
  refine extractLsb'_eq_of_and_eq h ?_
  rw [← polBit_polField, hmask]
  rfl

/-- Every row asks for the reserved bits, and asks that they are zero. -/
theorem operationMap_reserved : ∀ row ∈ operationMap,
    row.mask.extractLsb' 16 11 = BitVec.allOnes 11 ∧ row.mask.extractLsb' 6 2 = BitVec.allOnes 2 ∧
      row.matchBits.extractLsb' 16 11 = 0#11 ∧ row.matchBits.extractLsb' 6 2 = 0#2 := by
  decide

/-- A word that selects a row has the fields of the row's operation: the mask leaves out the operands alone. The rows
stand in the order of 30_encoding.md R72. -/
theorem hasFieldsOf_of_selects {row : MapRow} (hrow : row ∈ operationMap) {w : Word} (h : row.selects w = true) :
    HasFieldsOf (row.mnemonic.operation w) w := by
  have hand : w &&& row.mask = row.matchBits := by simpa [MapRow.selects] using h
  have hop : opField row.mask = BitVec.allOnes 4 → opField w = opField row.matchBits := extractLsb'_eq_of_and_eq hand
  have hpol := polField_eq_of_and_eq hand
  have hm : mField row.mask = BitVec.allOnes 8 → mField w = mField row.matchBits := extractLsb'_eq_of_and_eq hand
  have hs : sField row.mask = BitVec.allOnes 6 → sField w = sField row.matchBits := extractLsb'_eq_of_and_eq hand
  have hres : reservedZero w = true := by
    obtain ⟨hmask11, hmask2, hbits11, hbits2⟩ := operationMap_reserved row hrow
    simp [reservedZero, extractLsb'_eq_of_and_eq hand hmask11, extractLsb'_eq_of_and_eq hand hmask2, hbits11, hbits2]
  simp only [operationMap, List.mem_cons, List.not_mem_nil, or_false] at hrow
  rcases hrow with rfl | rfl | rfl | rfl | rfl | rfl | rfl | rfl | rfl | rfl | rfl
  · exact ⟨hres, hop rfl, hpol rfl, hm rfl, hs rfl⟩
  · exact ⟨hres, hop rfl, hpol rfl, hm rfl, hs rfl⟩
  · exact ⟨hres, hop rfl, hpol rfl, rfl, rfl⟩
  · exact ⟨hres, hop rfl, rfl, rfl, rfl⟩
  · exact ⟨hres, hop rfl, hpol rfl, rfl, hs rfl⟩
  · exact ⟨hres, hop rfl, rfl, rfl, hs rfl⟩
  · exact ⟨hres, hop rfl, hpol rfl, hm rfl, hs rfl⟩
  · exact ⟨hres, hop rfl, rfl, rfl, hs rfl⟩
  · exact ⟨hres, hop rfl, hpol rfl, hm rfl, hs rfl⟩
  · exact ⟨hres, hop rfl, hpol rfl, rfl, hs rfl⟩
  · exact ⟨hres, hop rfl, hpol rfl, rfl, rfl⟩

/-- A row is selected exactly by the words that decode to an operation of the row. -/
theorem selects_iff {row : MapRow} (hrow : row ∈ operationMap) {w : Word} :
    row.selects w = true ↔ ∃ i, decode w = .ok i ∧ i.mnemonic = row.mnemonic := by
  constructor
  · intro h
    exact ⟨_, decode_of_hasFieldsOf (hasFieldsOf_of_selects hrow h), mnemonic_operation w _⟩
  · rintro ⟨i, hd, hi⟩
    obtain ⟨row', hrow', hi', hsel⟩ := encode_selects_row i
    rw [operationMap_unique row hrow row' hrow' (hi.symm.trans hi'.symm), ← encode_of_decode hd]
    exact hsel

/-- Settles O2: `selects_iff`, at a row and at any row. -/
theorem decoderAcceptsExactlyTheOperationMap : Obligations.DecoderAcceptsExactlyTheOperationMap := by
  unfold Obligations.DecoderAcceptsExactlyTheOperationMap
  refine fun w => ⟨fun i hd row hrow => ?_, ?_⟩
  · simp [selects_iff hrow, hd, eq_comm]
  · constructor
    · rintro ⟨i, hd⟩
      obtain ⟨row, hrow, hi, -⟩ := encode_selects_row i
      exact ⟨row, hrow, (selects_iff hrow).2 ⟨i, hd, hi.symm⟩⟩
    · rintro ⟨row, hrow, h⟩
      obtain ⟨i, hd, -⟩ := (selects_iff hrow).1 h
      exact ⟨i, hd⟩

/-! ## Illegal command words -/

/-- The conditions of 30_encoding.md R73, in the order it lists them. -/
def MeetsIllegalCondition (w : Word) : Prop :=
  w >>> 28 = 0x0#32 ∨ w >>> 28 = 0xC#32 ∨ w >>> 28 = 0xD#32 ∨ w >>> 28 = 0xE#32 ∨ w >>> 28 = 0xF#32 ∨
    w &&& 0x07FF00C0#32 ≠ 0#32 ∨
    (w &&& 0x08000000#32 ≠ 0#32 ∧ w >>> 28 ≠ 0x4#32 ∧ w >>> 28 ≠ 0x6#32 ∧ w >>> 28 ≠ 0x8#32) ∨
    (w &&& 0x0000FF00#32 ≠ 0#32 ∧
      (w >>> 28 = 0x1#32 ∨ w >>> 28 = 0x2#32 ∨ w >>> 28 = 0x7#32 ∨ w >>> 28 = 0x9#32)) ∨
    (w &&& 0x0000003F#32 ≠ 0#32 ∧ w >>> 28 ≠ 0x3#32 ∧ w >>> 28 ≠ 0x4#32 ∧ w >>> 28 ≠ 0xB#32)

/-- Shifting a word down reads its upper field. -/
theorem ushiftRight_eq_setWidth_extractLsb' (w : Word) (n : Nat) :
    w >>> n = (w.extractLsb' n (32 - n)).setWidth 32 := by
  refine BitVec.eq_of_getLsbD_eq fun k hk => ?_
  rw [BitVec.getLsbD_ushiftRight, BitVec.getLsbD_setWidth, BitVec.getLsbD_extractLsb']
  by_cases hn : k < 32 - n
  · simp only [hk, hn, decide_true, Bool.true_and]
  · simp only [hn, decide_false, Bool.false_and, Bool.and_false]
    exact BitVec.getLsbD_of_ge w _ (by omega)

theorem encode_ushiftRight_28 (i : Instr) : encode i >>> 28 = i.opcode.setWidth 32 := by
  rw [ushiftRight_eq_setWidth_extractLsb', encode_eq_commandWord]
  exact congrArg _ (opField_commandWord ..)

section
open Laws.EncodingSelectsItsRow (commandWord_masked)
variable (op : BitVec 4) (p : BitVec 1) (m : BitVec 8) (s : BitVec 6)

theorem commandWord_and_reserved : commandWord op p m s &&& 0x07FF00C0#32 = 0#32 := by
  simpa using commandWord_masked op 0#4 p 0#1 m 0#8 s 0#6 0x7FF#11 3#2

theorem commandWord_and_pol : commandWord op 0#1 m s &&& 0x08000000#32 = 0#32 := by
  simpa using commandWord_masked op 0#4 0#1 1#1 m 0#8 s 0#6 0#11 0#2

theorem commandWord_and_m : commandWord op p 0#8 s &&& 0x0000FF00#32 = 0#32 := by
  simpa using commandWord_masked op 0#4 p 0#1 0#8 0xFF#8 s 0#6 0#11 0#2

theorem commandWord_and_s : commandWord op p m 0#6 &&& 0x0000003F#32 = 0#32 := by
  simpa using commandWord_masked op 0#4 p 0#1 m 0#8 0#6 0x3F#6 0#11 0#2

end

/-- The word of an operation meets none of the conditions of R73. -/
theorem not_meetsIllegalCondition_encode (i : Instr) : ¬ MeetsIllegalCondition (encode i) := by
  rw [MeetsIllegalCondition, encode_ushiftRight_28]
  cases i <;>
    simp [Instr.opcode, encode, commandWord_and_reserved, commandWord_and_pol, commandWord_and_m, commandWord_and_s]

end Sys2Proof

namespace Sys2Proof.Machine

open Sys2Proof

/-- A request whose command word selects no operation is answered with ILLEGAL_CMD alone. -/
theorem step_of_illegal {s : State} {r : Request} {rest : List Event} (hp : s.pending = .request r :: rest)
    (h : ∀ i, decode r.cmd ≠ .ok i) :
    step s = .next { s with pending := rest, rsp := some (errorStatus rational .illegalCmd) } := by
  cases hd : decode r.cmd with
  | ok i => exact absurd hd (h i)
  | error e => simp [step_request hp, respond, hd]

/-- Settles O3: a word that some operation encodes meets no condition of R73. -/
theorem illegalCommandWordsAnswerIllegalCmd : Obligations.IllegalCommandWordsAnswerIllegalCmd := by
  unfold Obligations.IllegalCommandWordsAnswerIllegalCmd
  intro s r rest hp hbad
  refine step_of_illegal hp fun i hd => ?_
  rw [← encode_of_decode hd] at hbad
  exact not_meetsIllegalCondition_encode i hbad

/-- Settles O7: the suffix policy is clamp, and eight listed zero bytes are the zero buffer. -/
theorem pseudoOperationsExpand : Obligations.PseudoOperationsExpand := by
  have hpay : payloadOf [0#8, 0#8, 0#8, 0#8, 0#8, 0#8, 0#8, 0#8] = zeroPayload := by decide
  refine fun ν N => ⟨fun _ _ _ _ => rfl, fun _ _ => rfl, fun _ _ => rfl, fun m k v => ?_, rfl, fun _ => rfl⟩
  simp only [asmRequest, hpay]
  rfl

end Sys2Proof.Machine
end

section
/-! PROOFS. The packed table image (30_encoding.md R81, R85): each part of an image is read back from the front of its words, whatever follows them; O5. -/

namespace Sys2Proof.Machine

open Sys2Proof

/-! ## Numbers -/

theorem wordsValue_append (xs ys : List Word) :
    wordsValue (xs ++ ys) = wordsValue xs + 2 ^ (32 * xs.length) * wordsValue ys := by
  induction xs with
  | nil => simp [wordsValue]
  | cons x xs ih =>
    simp only [List.cons_append, wordsValue, ih, List.length_cons, Nat.mul_add, Nat.pow_add]
    ring

/-- The first `k` words of a number, least significant first, hold its low `32 * k` bits. -/
theorem wordsValue_map_extractLsb' {n : Nat} (x : BitVec n) (k : Nat) :
    wordsValue ((List.range k).map fun j => x.extractLsb' (32 * j) 32) = x.toNat % 2 ^ (32 * k) := by
  induction k with
  | zero => simp [wordsValue, Nat.mod_one]
  | succ k ih =>
    rw [List.range_succ, List.map_append, wordsValue_append, ih, Nat.mul_succ, Nat.pow_add, Nat.mod_mul]
    simp [wordsValue, Nat.shiftRight_eq_div_pow]

section
variable {ν : Type} (f : NumFormat ν)

@[simp] theorem packNumber_length (q : ν) : (packNumber f q).length = numWords f := by
  simp [packNumber]

/-- The words of a number hold all its bits. -/
theorem wordsValue_packNumber (q : ν) : wordsValue (packNumber f q) = (f.toBits q).toNat := by
  rw [packNumber, wordsValue_map_extractLsb']
  refine Nat.mod_eq_of_lt ((f.toBits q).isLt.trans_le (Nat.pow_le_pow_right (by decide) ?_))
  rw [numWords]
  omega

variable {f}

theorem unpackNumber_packNumber {q : ν} (h : holdsExactly f q) : unpackNumber f (packNumber f q) = q := by
  rw [unpackNumber, wordsValue_packNumber, BitVec.ofNat_toNat, BitVec.setWidth_eq]
  exact h

/-- The words of several numbers, one after another. -/
def packNumbers (f : NumFormat ν) (qs : List ν) : List Word := (qs.map (packNumber f)).flatten

@[simp] theorem packNumbers_length (qs : List ν) : (packNumbers f qs).length = qs.length * numWords f := by
  simp [packNumbers, List.length_flatten, Function.comp_def]

/-- Number `k` of several is read back. -/
theorem numberAt_packNumbers {qs : List ν} {q : ν} {k : Nat} (hk : qs[k]? = some q) (h : holdsExactly f q)
    (rest : List Word) : numberAt f (packNumbers f qs ++ rest) k = q := by
  obtain ⟨hlt, rfl⟩ := List.getElem?_eq_some_iff.1 hk
  have hsplit : packNumbers f qs =
      packNumbers f (qs.take k) ++ (packNumber f qs[k] ++ packNumbers f (qs.drop (k + 1))) := by
    conv_lhs => rw [← List.take_append_drop k qs, List.drop_eq_getElem_cons hlt]
    simp only [packNumbers, List.map_append, List.map_cons, List.flatten_append, List.flatten_cons]
  have hpre : (packNumbers f (qs.take k)).length = k * numWords f := by simp [hlt.le]
  rw [numberAt, hsplit, List.append_assoc, List.append_assoc, List.drop_left' hpre,
    List.take_left' (packNumber_length f _), unpackNumber_packNumber h]

end

/-! ## Signals -/

section
variable {ν : Type} (sig : Signal ν)

/-- The bits of a word SG0, its width read as the sum of its fields' widths. -/
theorem extractLsb'_packSG0 (start len : Nat) :
    (packSG0 sig).extractLsb' start len =
      BitVec.extractLsb' (n := 14 + 1 + 1 + 1 + 7 + 2 + 6) start len
        (0#14 ++ BitVec.ofBool sig.isSigned ++ orderBit sig.byteOrder ++ 0#1 ++ BitVec.ofNat 7 sig.bitLength.val ++
          0#2 ++ BitVec.ofNat 6 sig.startBit.val) := rfl

/-- The fields of a word SG0 (30_encoding.md R81). -/
theorem packSG0_fields :
    (packSG0 sig).extractLsb' 0 6 = BitVec.ofNat 6 sig.startBit.val ∧ (packSG0 sig).extractLsb' 6 2 = 0#2 ∧
    (packSG0 sig).extractLsb' 8 7 = BitVec.ofNat 7 sig.bitLength.val ∧ (packSG0 sig).extractLsb' 15 1 = 0#1 ∧
    (packSG0 sig).extractLsb' 16 1 = orderBit sig.byteOrder ∧
    (packSG0 sig).extractLsb' 17 1 = BitVec.ofBool sig.isSigned ∧ (packSG0 sig).extractLsb' 18 14 = 0#14 := by
  simp (disch := decide) only [extractLsb'_packSG0, BitVec.extractLsb'_append_eq_of_le,
    BitVec.extractLsb'_append_eq_of_add_le, Nat.reduceSub, BitVec.extractLsb'_eq_self, and_self]

theorem orderBit_eq_ofBool (order : ByteOrder) : orderBit order = BitVec.ofBool (decide (order = .be)) := by
  cases order <;> rfl

/-- A bit is the field of one bit that stands there. -/
theorem getLsbD_eq_of_extractLsb' {w : Word} {k : Nat} {b : Bool} (h : w.extractLsb' k 1 = BitVec.ofBool b) :
    w.getLsbD k = b := by
  have := congrArg (fun x => x.getLsbD 0) h
  simpa using this

theorem reservedSG0_packSG0 : reservedSG0 (packSG0 sig) = false := by
  obtain ⟨-, h2, -, h15, -, -, h14⟩ := packSG0_fields sig
  have hbit : (packSG0 sig).getLsbD 15 = false := getLsbD_eq_of_extractLsb' h15
  simp only [reservedSG0, h2, h14, hbit]
  rfl

theorem unpackSG0_packSG0 :
    unpackSG0 (packSG0 sig) sig.scale sig.offset sig.minValue sig.maxValue = ⟨sig, false⟩ := by
  obtain ⟨hstart, -, hlen, -, horder, hsigned, -⟩ := packSG0_fields sig
  have hstart' : ((packSG0 sig).extractLsb' 0 6).toFin = sig.startBit := by
    rw [hstart]
    exact Fin.ext (Nat.mod_eq_of_lt sig.startBit.isLt)
  have hlen' : ((packSG0 sig).extractLsb' 8 7).toFin = sig.bitLength := by
    rw [hlen]
    exact Fin.ext (Nat.mod_eq_of_lt sig.bitLength.isLt)
  have horder' : (if (packSG0 sig).getLsbD 16 then ByteOrder.be else .le) = sig.byteOrder := by
    rw [getLsbD_eq_of_extractLsb' (horder.trans (orderBit_eq_ofBool _))]
    cases sig.byteOrder <;> rfl
  rw [unpackSG0, reservedSG0_packSG0, hstart', hlen', horder', getLsbD_eq_of_extractLsb' hsigned]

end

section
variable {ν : Type} {f : NumFormat ν}

/-- The four numbers of a signal are ones the format holds exactly. -/
def SignalHeldExactly (f : NumFormat ν) (sig : Signal ν) : Prop :=
  holdsExactly f sig.scale ∧ holdsExactly f sig.offset ∧ holdsExactly f sig.minValue ∧ holdsExactly f sig.maxValue

/-- A signal is read back from the front of the words. -/
theorem unpackSignal_packSignal {sig : Signal ν} (h : SignalHeldExactly f sig) (rest : List Word) :
    unpackSignal f (packSignal f sig ++ rest) = some (⟨sig, false⟩, rest) := by
  obtain ⟨hscale, hoffset, hmin, hmax⟩ := h
  have hwords : packSignal f sig =
      packSG0 sig :: packNumbers f [sig.scale, sig.offset, sig.minValue, sig.maxValue] := by
    simp [packSignal, packNumbers]
  have hlen : (packNumbers f [sig.scale, sig.offset, sig.minValue, sig.maxValue]).length = 4 * numWords f :=
    packNumbers_length _
  rw [hwords, List.cons_append, unpackSignal, if_neg (by simp), numberAt_packNumbers rfl hscale,
    numberAt_packNumbers rfl hoffset, numberAt_packNumbers rfl hmin, numberAt_packNumbers rfl hmax, unpackSG0_packSG0,
    List.drop_left' hlen]

/-- Signals are read back in order. -/
theorem unpackSignals_packSignals {sigs : List (RawSignal ν)} (hres : ∀ sig ∈ sigs, sig.reserved = false)
    (h : ∀ sig ∈ sigs, SignalHeldExactly f sig.record) (rest : List Word) :
    unpackSignals f sigs.length ((sigs.map fun sig => packSignal f sig.record).flatten ++ rest) = some (sigs, rest) := by
  induction sigs with
  | nil => rfl
  | cons sig sigs ih =>
    obtain ⟨hs, hsigs⟩ := List.forall_mem_cons.1 h
    obtain ⟨hr, hress⟩ := List.forall_mem_cons.1 hres
    rw [List.map_cons, List.flatten_cons, List.append_assoc, List.length_cons, unpackSignals,
      unpackSignal_packSignal hs]
    simp only [ih hress hsigs, ← hr]

/-! ## Messages -/

/-- The fields of a word MH2 (30_encoding.md R81). -/
theorem packMH2_fields (dlc nsig : Nat) :
    (packMH2 dlc nsig).extractLsb' 0 4 = BitVec.ofNat 4 dlc ∧
    (packMH2 dlc nsig).extractLsb' 4 7 = BitVec.ofNat 7 nsig ∧ (packMH2 dlc nsig).extractLsb' 11 21 = 0#21 := by
  have hwidth (start len : Nat) : (packMH2 dlc nsig).extractLsb' start len =
      BitVec.extractLsb' (n := 21 + 7 + 4) start len (0#21 ++ BitVec.ofNat 7 nsig ++ BitVec.ofNat 4 dlc) := rfl
  simp (disch := decide) only [hwidth, BitVec.extractLsb'_append_eq_of_le, BitVec.extractLsb'_append_eq_of_add_le,
    Nat.reduceSub, BitVec.extractLsb'_eq_self, and_self]

/-- A message with at most 127 signals and no reserved bit set is read back from the front of the words. -/
theorem unpackMessage_packMessage {msg : RawMessage ν} (hn : msg.sig.length ≤ 127) (hr : msg.reserved = false)
    (hres : ∀ sig ∈ msg.sig, sig.reserved = false) (h : ∀ sig ∈ msg.sig, SignalHeldExactly f sig.record)
    (rest : List Word) : unpackMessage f (packMessage f msg ++ rest) = some (msg, rest) := by
  obtain ⟨hdlc, hnsig, hzero⟩ := packMH2_fields msg.dlc.val msg.sig.length
  have hdlc' : ((packMH2 msg.dlc.val msg.sig.length).extractLsb' 0 4).toFin = msg.dlc := by
    rw [hdlc]
    exact Fin.ext (Nat.mod_eq_of_lt msg.dlc.isLt)
  have hnsig' : ((packMH2 msg.dlc.val msg.sig.length).extractLsb' 4 7).toNat = msg.sig.length := by
    rw [hnsig, BitVec.toNat_ofNat, Nat.mod_eq_of_lt (by omega)]
  have hzero' : reservedMH2 (packMH2 msg.dlc.val msg.sig.length) = msg.reserved := by
    simp [reservedMH2, hzero, hr]
  simp only [packMessage, List.cons_append, unpackMessage, hnsig', unpackSignals_packSignals hres h, hdlc', hzero']

/-- Messages are read back in order. -/
theorem unpackMessages_packMessages {msgs : List (RawMessage ν)} (hn : ∀ msg ∈ msgs, msg.sig.length ≤ 127)
    (hres : ∀ msg ∈ msgs, msg.reserved = false ∧ ∀ sig ∈ msg.sig, sig.reserved = false)
    (h : ∀ msg ∈ msgs, ∀ sig ∈ msg.sig, SignalHeldExactly f sig.record) (rest : List Word) :
    unpackMessages f msgs.length ((msgs.map (packMessage f)).flatten ++ rest) = some (msgs, rest) := by
  induction msgs with
  | nil => rfl
  | cons msg msgs ih =>
    obtain ⟨hn1, hns⟩ := List.forall_mem_cons.1 hn
    obtain ⟨⟨hr1, hres1⟩, hress⟩ := List.forall_mem_cons.1 hres
    obtain ⟨h1, hs⟩ := List.forall_mem_cons.1 h
    rw [List.map_cons, List.flatten_cons, List.append_assoc, List.length_cons, unpackMessages,
      unpackMessage_packMessage hn1 hr1 hres1 h1]
    simp only [ih hns hress hs]

/-! ## The image -/

/-- The fields of a word IH (30_encoding.md R81). -/
theorem packIH_fields (nmsg : Nat) :
    (packIH nmsg).extractLsb' 0 9 = BitVec.ofNat 9 nmsg ∧ (packIH nmsg).extractLsb' 9 23 = 0#23 := by
  have hwidth (start len : Nat) : (packIH nmsg).extractLsb' start len =
      BitVec.extractLsb' (n := 23 + 9) start len (0#23 ++ BitVec.ofNat 9 nmsg) := rfl
  simp (disch := decide) only [hwidth, BitVec.extractLsb'_append_eq_of_le, BitVec.extractLsb'_append_eq_of_add_le,
    Nat.reduceSub, BitVec.extractLsb'_eq_self, and_self]

theorem unpackImage_packImage {img : Image ν} (hwf : img.wellFormed = true) (hres : noReservedBit img)
    (h : imageHeldExactly f img) : unpackImage f (packImage f img) = some img := by
  obtain ⟨hcount, hn⟩ : img.msgs.length ≤ 511 ∧ ∀ msg ∈ img.msgs, msg.sig.length ≤ 127 := by
    simpa [Image.wellFormed, Image.nmsgInDomain, RawMessage.nsigInDomain] using hwf
  obtain ⟨hr, hress⟩ := hres
  obtain ⟨hnmsg, hzero⟩ := packIH_fields img.msgs.length
  have hnmsg' : ((packIH img.msgs.length).extractLsb' 0 9).toNat = img.msgs.length := by
    rw [hnmsg, BitVec.toNat_ofNat, Nat.mod_eq_of_lt (by omega)]
  have hzero' : reservedIH (packIH img.msgs.length) = img.reserved := by
    simp [reservedIH, hzero, hr]
  have hmsgs := unpackMessages_packMessages hn hress h []
  rw [List.append_nil] at hmsgs
  simp only [packImage, unpackImage, hnmsg', hmsgs, hzero']

end

/-- Settles O5: the parts of the image are read back one after another. -/
theorem packedImageReadsBack : Obligations.PackedImageReadsBack :=
  fun _ _ _ => unpackImage_packImage

end Sys2Proof.Machine
end

section
/-! PROOFS. Reserved bits of a packed image (30_encoding.md R81): what is read at an index of the packed image, and that the first line of 41_table_build.md R136 that fires is reported; O6. -/

namespace Sys2Proof.Machine

open Sys2Proof

/-! ## The fields that the rules read by shifts and masks -/

/-- A shifted word is zero exactly when its upper field is. -/
theorem ushiftRight_eq_zero_iff {w : Word} {n : Nat} : w >>> n = 0#32 ↔ w.extractLsb' n (32 - n) = 0#(32 - n) := by
  rw [ushiftRight_eq_setWidth_extractLsb']
  constructor
  · intro h
    simpa using congrArg (BitVec.setWidth (32 - n)) h
  · intro h
    simp [h]

/-- A shifted word under a mask of `n` ones is a field of `n` bits. -/
theorem toNat_ushiftRight_and {w mask : Word} {n : Nat} (k : Nat) (hmask : mask.toNat = 2 ^ n - 1) :
    ((w >>> k) &&& mask).toNat = (w.extractLsb' k n).toNat := by
  rw [BitVec.toNat_and, hmask, Nat.and_two_pow_sub_one_eq_mod, BitVec.toNat_ushiftRight, BitVec.extractLsb'_toNat]

/-- A word under a mask of `n` ones is its lowest field. -/
theorem toNat_and_mask {w mask : Word} {n : Nat} (hmask : mask.toNat = 2 ^ n - 1) :
    (w &&& mask).toNat = (w.extractLsb' 0 n).toNat := by
  simpa using toNat_ushiftRight_and 0 hmask

theorem reservedIH_eq_true_iff {w : Word} : reservedIH w = true ↔ w >>> 9 ≠ 0#32 := by
  simp [reservedIH, ushiftRight_eq_zero_iff]

theorem reservedMH2_eq_true_iff {w : Word} : reservedMH2 w = true ↔ w >>> 11 ≠ 0#32 := by
  simp [reservedMH2, ushiftRight_eq_zero_iff]

/-- A bit of a field that is zero is zero. -/
theorem getLsbD_of_extractLsb'_eq_zero {w : Word} {start len k : Nat} (h : w.extractLsb' start len = 0#len)
    (hlo : start ≤ k) (hhi : k < start + len) : w.getLsbD k = false := by
  have hbit := congrArg (fun x => x.getLsbD (k - start)) h
  have hk : k - start < len := by omega
  simpa [BitVec.getLsbD_extractLsb', hk, Nat.add_sub_cancel' hlo] using hbit

/-- The mask 0xFFFC80C0 holds bits 7:6, 15 and 31:18. -/
theorem reservedSG0_of_and_ne_zero {w : Word} (h : w &&& 0xFFFC80C0#32 ≠ 0#32) : reservedSG0 w = true := by
  by_contra hres
  obtain ⟨⟨h2, h15⟩, h14⟩ : (w.extractLsb' 6 2 = 0#2 ∧ w.getLsbD 15 = false) ∧ w.extractLsb' 18 14 = 0#14 := by
    simpa [reservedSG0, -BitVec.getLsbD_eq_getElem] using hres
  have hmask : ∀ k < 32, (0xFFFC80C0#32).getLsbD k = true → k = 15 ∨ 6 ≤ k ∧ k < 6 + 2 ∨ 18 ≤ k ∧ k < 18 + 14 := by
    decide
  refine h (BitVec.eq_of_getLsbD_eq fun k hk => ?_)
  rw [BitVec.getLsbD_and, BitVec.getLsbD_zero, Bool.and_eq_false_iff]
  cases hm : (0xFFFC80C0#32).getLsbD k with
  | false => exact .inr rfl
  | true =>
    left
    obtain rfl | ⟨hlo, hhi⟩ | ⟨hlo, hhi⟩ := hmask k hk hm
    · exact h15
    · exact getLsbD_of_extractLsb'_eq_zero h2 hlo hhi
    · exact getLsbD_of_extractLsb'_eq_zero h14 hlo hhi

/-! ## Reading a packed image -/

/-- Reading `n` items, one after another: what `unpackSignals` and `unpackMessages` both do. -/
def readMany {α : Type} (read : List Word → Option (α × List Word)) : Nat → List Word → Option (List α × List Word)
  | 0, ws => some ([], ws)
  | n + 1, ws => (read ws).bind fun x => (readMany read n x.2).map fun xs => (x.1 :: xs.1, xs.2)

section
variable {ν : Type} (f : NumFormat ν)

theorem unpackSignals_eq_readMany (n : Nat) (ws : List Word) :
    unpackSignals f n ws = readMany (unpackSignal f) n ws := by
  induction n generalizing ws with
  | zero => rfl
  | succ n ih =>
    rw [unpackSignals, readMany]
    cases unpackSignal f ws with
    | none => rfl
    | some x =>
      simp only [ih, Option.bind_some]
      cases readMany (unpackSignal f) n x.2 <;> rfl

theorem unpackMessages_eq_readMany (n : Nat) (ws : List Word) :
    unpackMessages f n ws = readMany (unpackMessage f) n ws := by
  induction n generalizing ws with
  | zero => rfl
  | succ n ih =>
    rw [unpackMessages, readMany]
    cases unpackMessage f ws with
    | none => rfl
    | some x =>
      simp only [ih, Option.bind_some]
      cases readMany (unpackMessage f) n x.2 <;> rfl

end

section
variable {α : Type} {read : List Word → Option (α × List Word)}

theorem readMany_succ_eq_some {n : Nat} {ws rest : List Word} {ys : List α}
    (h : readMany read (n + 1) ws = some (ys, rest)) :
    ∃ x mid xs, read ws = some (x, mid) ∧ readMany read n mid = some (xs, rest) ∧ ys = x :: xs := by
  obtain ⟨⟨x, mid⟩, hx, h⟩ := Option.bind_eq_some_iff.1 h
  obtain ⟨⟨xs, rest'⟩, hxs, h⟩ := Option.map_eq_some_iff.1 h
  cases h
  exact ⟨x, mid, xs, hx, hxs, rfl⟩

theorem readMany_length {n : Nat} {ws rest : List Word} {xs : List α} (h : readMany read n ws = some (xs, rest)) :
    xs.length = n := by
  induction n generalizing ws xs with
  | zero => cases h; rfl
  | succ n ih =>
    obtain ⟨x, mid, ys, -, hys, rfl⟩ := readMany_succ_eq_some h
    rw [List.length_cons, ih hys]

/-- Of `n` items read, the first `k` are those that reading `k` gives, and the next is read from what that leaves. -/
theorem readMany_split {n k : Nat} {ws mid rest : List Word} {all front : List α} (hk : k < n)
    (hall : readMany read n ws = some (all, rest)) (hfront : readMany read k ws = some (front, mid)) :
    ∃ x mid' back, read mid = some (x, mid') ∧ all = front ++ x :: back := by
  induction k generalizing n ws all front with
  | zero =>
    obtain ⟨n, rfl⟩ := Nat.exists_eq_add_one_of_ne_zero hk.ne'
    obtain ⟨x, mid', xs, hx, -, rfl⟩ := readMany_succ_eq_some hall
    cases hfront
    exact ⟨x, mid', xs, hx, rfl⟩
  | succ k ih =>
    obtain ⟨n, rfl⟩ := Nat.exists_eq_add_one_of_ne_zero (Nat.ne_zero_of_lt hk)
    obtain ⟨x, mid₁, xs, hx, hxs, rfl⟩ := readMany_succ_eq_some hall
    obtain ⟨y, mid₂, ys, hy, hys, rfl⟩ := readMany_succ_eq_some hfront
    cases hx.symm.trans hy
    obtain ⟨z, mid', back, hz, rfl⟩ := ih (Nat.lt_of_succ_lt_succ hk) hxs hys
    exact ⟨z, mid', back, hz, rfl⟩

end

section
variable {ν : Type} {f : NumFormat ν}

theorem unpackImage_eq_some {ih : Word} {ws : List Word} {img : Image ν} (h : unpackImage f (ih :: ws) = some img) :
    img.reserved = reservedIH ih ∧ unpackMessages f (ih.extractLsb' 0 9).toNat ws = some (img.msgs, []) := by
  rw [unpackImage] at h
  split at h
  next msgs hmsgs =>
    cases h
    exact ⟨rfl, hmsgs⟩
  next => cases h

theorem unpackMessage_eq_some {mh0 mh1 mh2 : Word} {ws rest : List Word} {msg : RawMessage ν}
    (h : unpackMessage f (mh0 :: mh1 :: mh2 :: ws) = some (msg, rest)) :
    msg.dlc = (mh2.extractLsb' 0 4).toFin ∧ msg.reserved = reservedMH2 mh2 ∧
      unpackSignals f (mh2.extractLsb' 4 7).toNat ws = some (msg.sig, rest) := by
  rw [unpackMessage] at h
  split at h
  next => cases h
  next sigs rest' hsigs =>
    cases h
    exact ⟨rfl, rfl, hsigs⟩

theorem unpackSignal_reserved {sg0 : Word} {ws rest : List Word} {sig : RawSignal ν}
    (h : unpackSignal f (sg0 :: ws) = some (sig, rest)) : sig.reserved = reservedSG0 sg0 := by
  rw [unpackSignal] at h
  split at h <;> cases h
  rfl

end

/-! ## The first line that fires -/

theorem lineIf_eq_nil_iff {α : Type} {c : Prop} [Decidable c] {v : α} : lineIf c v = [] ↔ ¬ c := by
  unfold lineIf
  split <;> simp [*]

/-- No line fires for a signal exactly when its checks report nothing. -/
theorem signalLines_eq_nil_iff {ν : Type} {N : NumType ν} {m s dlc : Nat} {sig : RawSignal ν} :
    signalLines N m s dlc sig = [] ↔ signalFault N dlc sig = none := by
  simp only [signalLines, signalFault, List.append_eq_nil_iff, lineIf_eq_nil_iff, ite_some_eq_none_iff, and_assoc,
    and_true]

/-- No pair of indices is listed exactly when no pair of elements is bad. -/
theorem badPairs_eq_nil_iff {α : Type} {bad : α → α → Bool} {xs : List α} :
    badPairs bad xs = [] ↔ xs.Pairwise fun a b => bad a b = false := by
  simp only [badPairs, List.flatMap_eq_nil_iff, List.mem_range, List.pairwise_iff_getElem]
  constructor
  · intro h i j hi hj hij
    have := h i hi j hj
    simpa [hi, hj, lineIf_eq_nil_iff, hij] using this
  · intro h i hi j hj
    simp only [List.getElem?_eq_getElem, hi, hj, lineIf_eq_nil_iff, not_and, Bool.not_eq_true]
    exact h i j hi hj

/-- No line fires for a message exactly when its checks report nothing. -/
theorem messageLines_eq_nil_iff {ν : Type} {N : NumType ν} {m : Nat} {msg : RawMessage ν} :
    messageLines N m msg = [] ↔ messageFault N m msg = none := by
  have hloop : (msg.sig.zipIdx.flatMap fun x => signalLines N m x.2 msg.dlc.val x.1) = [] ↔
      firstFault (fun s sig => (signalFault N msg.dlc.val sig).map fun sub => Violation.mk sub m s 0) 0 msg.sig = none := by
    simp only [List.flatMap_eq_nil_iff, Prod.forall, List.mk_mem_zipIdx_iff_getElem?, signalLines_eq_nil_iff,
      firstFault_eq_none, Option.map_eq_none_iff]
    exact forall_comm
  rw [messageLines, messageFault, List.append_eq_nil_iff, List.append_eq_nil_iff, lineIf_eq_nil_iff, hloop,
    List.map_eq_nil_iff, badPairs_eq_nil_iff, ite_some_eq_none_iff, and_assoc]
  refine and_congr_right fun _ => ?_
  split
  next hv => simp [hv]
  next hv => simp [hv, firstPair_eq_none]

/-- A single loop passes over the elements at which its check does not fire. -/
theorem firstFault_append_cons {α β : Type} {check : Nat → α → Option β} {front back : List α} {x : α} {v : β}
    {base : Nat} (hfront : ∀ (j : Nat) (y : α), front[j]? = some y → check (base + j) y = none)
    (hx : check (base + front.length) x = some v) : firstFault check base (front ++ x :: back) = some v := by
  induction front generalizing base with
  | nil =>
    have hx : check base x = some v := hx
    rw [List.nil_append, firstFault, hx]
  | cons y front ih =>
    have hy : check base y = none := hfront 0 y rfl
    rw [List.cons_append, firstFault, hy]
    refine ih (fun j z hz => ?_) ?_
    · rw [Nat.add_right_comm]
      exact hfront (j + 1) z hz
    · rw [Nat.add_right_comm]
      exact hx

section
variable {ν : Type} {N : NumType ν}

/-- A message that comes after none with a violation is the first that `first_violation` reports. -/
theorem firstViolation_of_messageFault {p : Params} {img : Image ν} {front back : List (RawMessage ν)}
    {msg : RawMessage ν} {v : Violation} (hres : img.reserved = false) (hlen : img.msgs.length ≤ p.nMsgMax.val)
    (hmsgs : img.msgs = front ++ msg :: back)
    (hfront : ∀ (j : Nat) (msg' : RawMessage ν), front[j]? = some msg' → messageLines N j msg' = [])
    (hv : messageFault N front.length msg = some v) : firstViolation N p img = some v := by
  have hloop : firstFault (messageFault N) 0 img.msgs = some v := by
    rw [hmsgs]
    refine firstFault_append_cons (fun j msg' hj => ?_) ?_ <;> rw [Nat.zero_add]
    · exact messageLines_eq_nil_iff.1 (hfront j msg' hj)
    · exact hv
  simp only [firstViolation, hres, Bool.false_eq_true, if_false, hlen.not_gt, hloop]

/-- A signal that comes after none with a violation is the first that its message's checks report. -/
theorem messageFault_of_signalFault {m : Nat} {msg : RawMessage ν} {front back : List (RawSignal ν)}
    {sig : RawSignal ν} {sub : SubCause} (hdlc : msg.dlc.val ≤ 8) (hlen : msg.sig.length ≤ 64)
    (hres : msg.reserved = false) (hsigs : msg.sig = front ++ sig :: back)
    (hfront : ∀ (j : Nat) (sig' : RawSignal ν), front[j]? = some sig' → signalLines N m j msg.dlc.val sig' = [])
    (hsub : signalFault N msg.dlc.val sig = some sub) : messageFault N m msg = some ⟨sub, m, front.length, 0⟩ := by
  have hloop :
      firstFault (fun s sig => (signalFault N msg.dlc.val sig).map fun sub => Violation.mk sub m s 0) 0 msg.sig =
        some ⟨sub, m, front.length, 0⟩ := by
    rw [hsigs]
    refine firstFault_append_cons (fun j sig' hj => ?_) ?_
    · exact Option.map_eq_none_iff.2 (signalLines_eq_nil_iff.1 (hfront j sig' hj))
    · rw [hsub, Nat.zero_add]
      rfl
  have hown : ¬ (8 < msg.dlc.val ∨ 64 < msg.sig.length ∨ msg.reserved = true) := by
    simp only [hres, Bool.false_eq_true, or_false]
    omega
  rw [messageFault, if_neg hown, hloop]

end

section
variable {ν : Type} {N : NumType ν} {f : NumFormat ν}

/-- Where the message at an index is read, and no line fires before it: what its checks report is reported. -/
theorem firstViolation_of_unpackMessages {p : Params} {ih : Word} {ws post : List Word} {img : Image ν} {m : Nat}
    {msgs : List (RawMessage ν)} (himg : unpackImage f (ih :: ws) = some img) (hih : ih >>> 9 = 0#32)
    (hmax : (ih &&& 0x1FF#32).toNat ≤ p.nMsgMax.val) (hm : m < (ih &&& 0x1FF#32).toNat)
    (hfront : unpackMessages f m ws = some (msgs, post))
    (hlines : ∀ (j : Nat) (msg : RawMessage ν), msgs[j]? = some msg → messageLines N j msg = []) :
    ∃ msg rest, unpackMessage f post = some (msg, rest) ∧
      ∀ v, messageFault N m msg = some v → firstViolation N p img = some v := by
  obtain ⟨hres, hall⟩ := unpackImage_eq_some himg
  have hnmsg : (ih &&& 0x1FF#32).toNat = (ih.extractLsb' 0 9).toNat := toNat_and_mask rfl
  rw [unpackMessages_eq_readMany] at hall hfront
  rw [hnmsg] at hmax hm
  obtain ⟨msg, rest, back, hmsg, hmsgs⟩ := readMany_split hm hall hfront
  have hres0 : img.reserved = false := by
    rw [hres, ← Bool.not_eq_true, reservedIH_eq_true_iff, not_not]
    exact hih
  refine ⟨msg, rest, hmsg, fun v hv => firstViolation_of_messageFault hres0 ?_ hmsgs hlines ?_⟩
  · rwa [readMany_length hall]
  · rwa [readMany_length hfront]

/-- A reserved bit of an SG0, with no line firing for an earlier signal, is what its message's checks report. -/
theorem messageFault_of_unpackSignals {mh0 mh1 mh2 sg0 : Word} {post post' rest : List Word} {msg : RawMessage ν}
    {m k : Nat} {sigs : List (RawSignal ν)} (hmsg : unpackMessage f (mh0 :: mh1 :: mh2 :: post) = some (msg, rest))
    (hmh2 : mh2 >>> 11 = 0#32) (hdlc : (mh2 &&& 0xF#32).toNat ≤ 8) (hn : ((mh2 >>> 4) &&& 0x7F#32).toNat ≤ 64)
    (hk : k < ((mh2 >>> 4) &&& 0x7F#32).toNat) (hfront : unpackSignals f k post = some (sigs, sg0 :: post'))
    (hlines : ∀ (j : Nat) (sig : RawSignal ν), sigs[j]? = some sig →
      signalLines N m j (mh2 &&& 0xF#32).toNat sig = [])
    (hsg0 : sg0 &&& 0xFFFC80C0#32 ≠ 0#32) : messageFault N m msg = some ⟨.range, m, k, 0⟩ := by
  obtain ⟨hmdlc, hres, hall⟩ := unpackMessage_eq_some hmsg
  have hdlcv : (mh2 &&& 0xF#32).toNat = msg.dlc.val := by
    rw [hmdlc]
    exact toNat_and_mask rfl
  have hnsig : ((mh2 >>> 4) &&& 0x7F#32).toNat = (mh2.extractLsb' 4 7).toNat := toNat_ushiftRight_and 4 rfl
  rw [unpackSignals_eq_readMany] at hall hfront
  rw [hdlcv] at hdlc hlines
  rw [hnsig] at hk hn
  obtain ⟨sig, rest', back, hsig, hsplit⟩ := readMany_split hk hall hfront
  have hres0 : msg.reserved = false := by
    rw [hres, ← Bool.not_eq_true, reservedMH2_eq_true_iff, not_not]
    exact hmh2
  have hfault : signalFault N msg.dlc.val sig = some .range := by
    rw [signalFault, if_pos (.inr (.inr ((unpackSignal_reserved hsig).trans (reservedSG0_of_and_ne_zero hsg0))))]
  rw [← readMany_length hall] at hn
  rw [messageFault_of_signalFault hdlc hn hres0 hsplit hlines hfault, readMany_length hfront]

end

/-- Settles O6: the record read at the word's place has its reserved flag set, and no line fires before it. -/
theorem packedReservedBitsAreRefused : Obligations.PackedReservedBitsAreRefused := by
  unfold Obligations.PackedReservedBitsAreRefused
  intro ν N f p ih ws img himg
  refine ⟨fun hih => ?_, fun m msgs mh0 mh1 mh2 post hih hmax hm hfront hlines => ?_⟩
  · rw [firstViolation, if_pos ((unpackImage_eq_some himg).1.trans (reservedIH_eq_true_iff.2 hih))]
  obtain ⟨msg, rest, hmsg, hreport⟩ := firstViolation_of_unpackMessages himg hih hmax hm hfront hlines
  refine ⟨fun hmh2 => hreport _ ?_, fun k sigs sg0 post' hmh2 hdlc hn hk hsfront hslines hsg0 => hreport _ ?_⟩
  · rw [messageFault, if_pos (.inr (.inr ((unpackMessage_eq_some hmsg).2.1.trans (reservedMH2_eq_true_iff.2 hmh2))))]
  · exact messageFault_of_unpackSignals hmsg hmh2 hdlc hn hk hsfront hslines hsg0

end Sys2Proof.Machine
end

section
/-! PROOFS. What each operation reads from a request (30_encoding.md R75): two requests that agree on it are answered alike; O26. -/

namespace Sys2Proof.Machine

open Sys2Proof

/-! ## Payload bytes -/

/-- A signal is read from the bytes below `need` alone. -/
theorem extract_eq_of_samePayBelow {ν : Type} {sig : Signal ν} {p q : Payload} {n : Nat} (hn : need sig ≤ n)
    (h : samePayBelow n p q) : extract sig p = extract sig q := by
  refine extract_congr fun i hi => ?_
  have hb := h _ ((cells_byte_bounds (sigCell_mem_cells hi)).2.trans_le hn)
  simp only [cellBit, hb]

theorem decodeValue_eq_of_samePayBelow {ν : Type} {N : NumType ν} {sig : Signal ν} {p q : Payload} {n : Nat}
    (hn : need sig ≤ n) (h : samePayBelow n p q) : decodeValue N sig p = decodeValue N sig q := by
  simp only [decodeValue, sraw, extract_eq_of_samePayBelow hn h]

/-- A message is decoded from the bytes below `len` alone: where a signal needs more, nothing is decoded. -/
theorem decodeMessage_eq_of_samePayBelow {ν : Type} {N : NumType ν} {len : BitVec 4} {p q : Payload}
    (h : samePayBelow len.toNat p q) (m : BitVec 8) (msg : Message ν) :
    decodeMessage N m msg len p = decodeMessage N m msg len q := by
  unfold decodeMessage
  split
  next => rfl
  next hlong =>
    have hvalue : ∀ sig ∈ msg.sig, decodeValue N sig p = decodeValue N sig q := by
      intro sig hs
      have hneed : tooShort len sig = false := List.findIdx?_eq_none_iff.1 hlong sig hs
      exact decodeValue_eq_of_samePayBelow (by simpa [tooShort] using hneed) h
    have hvals : msg.sig.map (fun sig => decodeValue N sig p) = msg.sig.map fun sig => decodeValue N sig q :=
      List.map_congr_left hvalue
    have hflags : msg.sig.map (fun sig => decodeFlags N sig (decodeValue N sig p)) =
        msg.sig.map fun sig => decodeFlags N sig (decodeValue N sig q) :=
      List.map_congr_left fun sig hs => by rw [hvalue sig hs]
    rw [hvals, hflags]

/-! ## Values -/

/-- The values of a message's signals are the first `nsig` lanes. -/
theorem assignments_congr {ν : Type} {msg : Message ν} {v w : Vector ν 64}
    (h : ∀ j < msg.sig.length, v[j]? = w[j]?) : assignments msg v = assignments msg w := by
  apply List.ext_getElem?
  intro j
  by_cases hj : j < msg.sig.length
  · have hlane : v.toList[j]? = w.toList[j]? := by simpa using h j hj
    simp only [assignments, List.zip, List.getElem?_zipWith, hlane]
  · have hout : msg.sig[j]? = none := List.getElem?_eq_none (Nat.not_lt.1 hj)
    simp only [assignments, List.zip, List.getElem?_zipWith, hout]

section
variable {ν : Type} {N : NumType ν} (p : Params) {h : Held ν} (pol : Policy) {m : BitVec 8} {r q : Request ν}

theorem encallResponse_congr
    (hv : ∀ msg, messageAt h m = .ok msg → assignments msg r.vals = assignments msg q.vals) :
    encallResponse N p h pol m r = encallResponse N p h pol m q := by
  unfold encallResponse
  split
  next => rfl
  next msg hm => simp only [firstRejected, hv msg hm]

theorem txfResponse_congr (hv : ∀ msg, messageAt h m = .ok msg → assignments msg r.vals = assignments msg q.vals) :
    txfResponse N p h pol m r = txfResponse N p h pol m q := by
  simp only [txfResponse, encallResponse_congr p pol hv]

end

/-- Two requests that agree on what an operation reads are answered alike, and leave the same held state. -/
theorem operate_eq_of_sameRead {i : Instr} {s : State} {r q : Request} (h : sameRead i s r q) :
    operate rational s.params i s.toHeld r = operate rational s.params i s.toHeld q := by
  cases i with
  | build =>
    have himg : r.img = q.img := h
    simp only [operate, buildTable, himg]
  | find =>
    have hid : r.id = q.id := h
    simp only [operate, findResponse, hid]
  | dec m k =>
    obtain ⟨hlen, hpay⟩ := h
    simp only [operate, decResponse, hlen]
    split
    next => rfl
    next sig hs =>
      obtain ⟨msg, hm, hsig⟩ := signalAt_ok_iff.1 hs
      obtain ⟨ht, hlt, hrec⟩ := messageAt_ok_iff.1 hm
      have hinst : InstalledSignal s m.toNat k.toNat sig := ⟨ht, hlt, by simp [hrec, hsig]⟩
      rw [decodeValue_eq_of_samePayBelow le_rfl (hpay sig hinst)]
  | enc pol m k =>
    obtain ⟨hv, hpay⟩ := h
    simp only [operate, encResponse, hv, hpay]
  | decall m =>
    obtain ⟨hlen, hpay⟩ := h
    rw [hlen] at hpay
    simp only [operate, decallResponse, decodeMessage_eq_of_samePayBelow hpay, hlen]
  | encall pol m =>
    have hv : ∀ msg, messageAt s.toHeld m = .ok msg → assignments msg r.vals = assignments msg q.vals :=
      fun msg hm => assignments_congr (h msg (messageAt_ok_iff.1 hm))
    simp only [operate, encallResponse_congr s.params pol hv]
  | rxf =>
    obtain ⟨hid, hlen, hpay⟩ := h
    rw [hlen] at hpay
    simp only [operate, rxfResponse, decodeMessage_eq_of_samePayBelow hpay, hid, hlen]
  | txf pol m =>
    have hv : ∀ msg, messageAt s.toHeld m = .ok msg → assignments msg r.vals = assignments msg q.vals :=
      fun msg hm => assignments_congr (h msg (messageAt_ok_iff.1 hm))
    simp only [operate, txfResponse_congr s.params pol hv]
  | stat => rfl
  | getm m => rfl
  | gets m k => rfl

/-- Settles O26: what an operation does is `operate`, whose answer depends on what the operation reads. -/
theorem unreadRequestFieldsHaveNoEffect : Obligations.UnreadRequestFieldsHaveNoEffect := by
  unfold Obligations.UnreadRequestFieldsHaveNoEffect
  intro i s r q rest h
  rw [exec_request (r := r) rfl, exec_request (r := q) rfl]
  simp only [operate_eq_of_sameRead h]

end Sys2Proof.Machine
end

section
/-! PROOFS. What the codec operations answer for installed records (40_signal_codec.md R102 to R110): the error results that name a signal, and the OK responses; O20, O21, O49, O50, O51 and O52. -/

namespace Sys2Proof.Machine

open Sys2Proof

/-! ## Serving a request and finding the first element that fails -/

/-- An operation other than BUILD: what it answers is what stands as the response. -/
theorem exec_of_response {s : State} {r : Request} {rest : List Event} {i : Instr} {x : Response}
    (hp : s.pending = .request r :: rest) (hi : i ≠ .build) (hx : (operate rational s.params i s.toHeld r).2 = x) :
    exec i s = .next { s with pending := rest, rsp := some x } := by
  rw [exec_other hp hi, hx]

theorem findIdx?_eq_some_of_getElem? {α : Type} {p : α → Bool} {xs : List α} {i : Nat} {x : α}
    (hx : xs[i]? = some x) (hp : p x = true) (hl : ∀ j < i, ∀ y, xs[j]? = some y → p y = false) :
    xs.findIdx? p = some i := by
  obtain ⟨hi, rfl⟩ := List.getElem?_eq_some_iff.1 hx
  refine List.findIdx?_eq_some_iff_getElem.2 ⟨hi, hp, fun j hj => ?_⟩
  simp [hl j hj xs[j] (List.getElem?_eq_getElem _)]

/-- An element of `assignments` is a signal of the message with the value of its own lane. -/
theorem assignments_getElem?_eq_some {ν : Type} {msg : Message ν} {vals : Vector ν 64} {j : Nat} {x : Signal ν × ν} :
    (assignments msg vals)[j]? = some x ↔ msg.sig[j]? = some x.1 ∧ vals[j]? = some x.2 := by
  simp [assignments, List.getElem?_zip_eq_some]

/-! ## Decoding -/

section
variable {ν : Type} {N : NumType ν} {h : Held ν} {m : BitVec 8} {k : BitVec 6} {msg : Message ν} {sig : Signal ν}
  {r : Request ν}

/-- DEC of a frame that contains the signal. -/
theorem decResponse_of_long (hs : signalAt h m k = .ok sig) (hlen : r.len.toNat ≤ 8)
    (hlong : sigStart sig + sigLen sig ≤ 8 * r.len.toNat) :
    decResponse N h m k r =
      { okResponse N with v := decodeValue N sig r.pay, fl := decodeFlags N sig (decodeValue N sig r.pay) } := by
  simp [decResponse, hs, badLength_eq_false hlen, tooShort_eq_false_iff.2 hlong]

/-- DEC of a frame that ends before the signal does. -/
theorem decResponse_of_short (hs : signalAt h m k = .ok sig) (hlen : r.len.toNat ≤ 8)
    (hshort : 8 * r.len.toNat < sigStart sig + sigLen sig) :
    decResponse N h m k r = errorAtSignal N .payloadTooShort m k := by
  simp [decResponse, hs, badLength_eq_false hlen, tooShort_iff.2 hshort]

/-- Decoding a message names the least signal that the frame does not contain. -/
theorem decodeMessage_of_short {len : BitVec 4} (hs : msg.sig[k.toNat]? = some sig)
    (hshort : 8 * len.toNat < sigStart sig + sigLen sig)
    (hleast : ∀ j < k.toNat, ∀ sig', msg.sig[j]? = some sig' → sigStart sig' + sigLen sig' ≤ 8 * len.toNat)
    (pay : Payload) : decodeMessage N m msg len pay = errorAtSignal N .payloadTooShort m k := by
  have hfind : msg.sig.findIdx? (tooShort len) = some k.toNat :=
    findIdx?_eq_some_of_getElem? hs (tooShort_iff.2 hshort) fun j hj sig' hs' =>
      tooShort_eq_false_iff.2 (hleast j hj sig' hs')
  simp [decodeMessage, hfind]

/-- DECALL of a frame with a good length decodes the message. -/
theorem decallResponse_of_messageAt (hm : messageAt h m = .ok msg) (hlen : r.len.toNat ≤ 8) :
    decallResponse N h m r = decodeMessage N m msg r.len r.pay := by
  simp [decallResponse, hm, badLength_eq_false hlen]

/-- RXF of a frame with a good length decodes the first installed message that matches. -/
theorem rxfResponse_of_match {j : Nat} (ht : h.tvalid = true) (hj : j < h.nmsg.toNat) (hrec : h.table[j]? = some msg)
    (hlen : r.len.toNat ≤ 8) (hmatch : r.id &&& msg.idMask = msg.messageId &&& msg.idMask)
    (hfirst : ∀ i < j, ∀ msg', h.table[i]? = some msg' → r.id &&& msg'.idMask ≠ msg'.messageId &&& msg'.idMask) :
    rxfResponse N h r =
      { decodeMessage N (BitVec.ofNat 8 j) msg r.len r.pay with m := BitVec.ofNat 8 j } := by
  simp [rxfResponse, installedTable_operational ht, badLength_eq_false hlen,
    findMatch_take_some hj hrec hmatch hfirst, hj, hrec]

end

/-- At the default number type `oor` compares with the two bounds (40_signal_codec.md R101). -/
theorem outOfRange_eq_decide (sig : Signal) (v : NUM) :
    outOfRange rational sig v = decide (v < sig.minValue ∨ sig.maxValue < v) := by
  simp [outOfRange]

/-- Settles O20: each response names the signal that `tooShort` finds first. -/
theorem truncatedFramesAnswerPayloadTooShort : Obligations.TruncatedFramesAnswerPayloadTooShort := by
  unfold Obligations.TruncatedFramesAnswerPayloadTooShort
  intro s r rest hp hlen
  refine ⟨?_, ?_, ?_⟩
  · intro m k sig hinst hshort
    exact exec_of_response hp (by nofun) (decResponse_of_short (signalAt_installed hinst) hlen hshort)
  · intro m k msg sig hinst hs hshort hleast
    exact exec_of_response hp (by nofun)
      ((decallResponse_of_messageAt (messageAt_installed hinst) hlen).trans (decodeMessage_of_short hs hshort hleast _))
  · rintro m k msg sig ⟨ht, hm, hrec⟩ hmatch hfirst hs hshort hleast
    refine exec_of_response hp (by nofun) ?_
    rw [operate, rxfResponse_of_match ht hm hrec hlen hmatch hfirst, decodeMessage_of_short hs hshort hleast,
      BitVec.ofNat_toNat, BitVec.setWidth_eq]
    rfl

/-- Settles O49: the flags of `decodeFlags` at the default number type. -/
theorem decAnswersThePhysicalValue : Obligations.DecAnswersThePhysicalValue := by
  unfold Obligations.DecAnswersThePhysicalValue
  rintro s r rest m k sig v hp hinst hlen hlong rfl
  refine exec_of_response hp (by nofun) ?_
  rw [operate, decResponse_of_long (signalAt_installed hinst) hlen hlong]
  simp only [decodeFlags, outOfRange_eq_decide, decodeValue, rational_add, rational_mul, rational_ofInt]

/-- Settles O51: lane `j` of the response is the value of signal `j`. -/
theorem decallAnswersEveryValue : Obligations.DecallAnswersEveryValue := by
  unfold Obligations.DecallAnswersEveryValue
  intro s r rest m msg hp hinst hlen hlong
  have hresp := (decallResponse_of_messageAt (N := rational) (messageAt_installed hinst) hlen).trans
    (decodeMessage_of_long rational hlong)
  refine ⟨_, _, exec_of_response hp (by nofun) hresp, fun j hj sig hs => ?_⟩
  simp [hs, decodeFlags, outOfRange_eq_decide, decodeValue]

/-! ## Encoding -/

section
variable {ν : Type} {N : NumType ν} (p : Params) {h : Held ν} {pol : Policy} {m : BitVec 8} {k : BitVec 6}
  {msg : Message ν} {sig : Signal ν} {r : Request ν}

/-- `encode` rejects nothing under the clamp policy, and under the reject policy no value in range. -/
theorem encodeSignal_of_accepted {v : ν} (hacc : pol = .reject → outOfRange N sig v = false) (pay : Payload) :
    encodeSignal N p pol sig v pay = some (encodeClamped N p sig v pay) := by
  cases pol with
  | clamp => rfl
  | reject => simp [encodeSignal, hacc rfl]

theorem encResponse_of_accepted (hs : signalAt h m k = .ok sig)
    (hacc : pol = .reject → outOfRange N sig r.v = false) :
    encResponse N p h pol m k r =
      { okResponse N with
        pay := (encodeClamped N p sig r.v r.pay).1, fl := (encodeClamped N p sig r.v r.pay).2 } := by
  simp only [encResponse, hs, encodeSignal_of_accepted p hacc]

theorem encResponse_of_rejected (hs : signalAt h m k = .ok sig) (hout : outOfRange N sig r.v = true) :
    encResponse N p h .reject m k r = errorAtSignal N .valueOutOfRange m k := by
  simp [encResponse, hs, encodeSignal, hout]

/-- The reject policy finds the least signal index whose value is out of range. -/
theorem firstRejected_eq_some {vals : Vector ν 64} {j : Nat} {v : ν} (hs : msg.sig[j]? = some sig)
    (hv : vals[j]? = some v) (hout : outOfRange N sig v = true)
    (hleast : ∀ i < j, ∀ sig' v', msg.sig[i]? = some sig' → vals[i]? = some v' → outOfRange N sig' v' = false) :
    firstRejected N .reject msg vals = some j :=
  findIdx?_eq_some_of_getElem? (x := (sig, v)) (assignments_getElem?_eq_some.2 ⟨hs, hv⟩) hout fun i hi x hx => by
    obtain ⟨hs', hv'⟩ := assignments_getElem?_eq_some.1 hx
    exact hleast i hi x.1 x.2 hs' hv'

theorem encallResponse_of_rejected (hm : messageAt h m = .ok msg)
    (hrej : firstRejected N pol msg r.vals = some k.toNat) :
    encallResponse N p h pol m r = errorAtSignal N .valueOutOfRange m k := by
  simp [encallResponse, hm, hrej]

theorem encallResponse_of_accepted (hm : messageAt h m = .ok msg) (hacc : firstRejected N pol msg r.vals = none) :
    encallResponse N p h pol m r =
      { okResponse N with
        pay := (encodeLoop N p (assignments msg r.vals) zeroPayload).1
        len := BitVec.ofNat 4 msg.dlc.val
        vfl := lanes noFlags (encodeLoop N p (assignments msg r.vals) zeroPayload).2 } := by
  simp only [encallResponse, hm, hacc]

/-- TXF answers an error result of ENCALL as it is (43_frame_dispatch.md R165). -/
theorem txfResponse_of_encall_not_ok (he : (encallResponse N p h pol m r).st ≠ .ok) :
    txfResponse N p h pol m r = encallResponse N p h pol m r := by
  unfold txfResponse
  split
  next hst _ => exact absurd hst he
  next => rfl

/-- Lane `j` of the flags of ENCALL: those of encoding the signal's own value, into whatever buffer. -/
theorem lanes_encodeLoop_flags {j : Nat} (hj : j < 64) (hs : msg.sig[j]? = some sig) (vals : Vector ν 64)
    (pay : Payload) :
    (lanes noFlags (encodeLoop N p (assignments msg vals) pay).2)[j] =
      encodeFlags N sig vals[j] (encodeRaw N p sig vals[j]) := by
  simp [encodeLoop_flags, assignments_getElem? vals hj hs]

end

/-- Settles O21: ENCALL and TXF name the index of `firstRejected`. -/
theorem rejectedValuesAnswerValueOutOfRange : Obligations.RejectedValuesAnswerValueOutOfRange := by
  unfold Obligations.RejectedValuesAnswerValueOutOfRange
  intro s r rest m k sig hp hinst
  obtain ⟨msg, hm, hs⟩ := signalAt_ok_iff.1 (signalAt_installed hinst)
  obtain ⟨ht, hlt, hrec⟩ := messageAt_ok_iff.1 hm
  constructor
  · intro hout
    exact exec_of_response hp (by nofun)
      (encResponse_of_rejected _ (signalAt_installed hinst) (outOfRange_iff.2 hout))
  · intro v hv hout hleast
    have hrej : firstRejected rational .reject msg r.vals = some k.toNat :=
      firstRejected_eq_some hs hv (outOfRange_iff.2 hout) fun j hj sig' v' hs' hv' =>
        outOfRange_eq_false_iff.2 (hleast j hj sig' v' ⟨ht, hlt, by rw [hrec, Option.bind_some, hs']⟩ hv')
    have hencall := encallResponse_of_rejected s.params hm hrej
    have hnot : (encallResponse rational s.params s.toHeld .reject m r).st ≠ .ok := by
      rw [hencall]
      exact (errorAtSignal_isError rational (by decide) m k).st_ne_ok
    exact ⟨exec_of_response hp (by nofun) hencall,
      exec_of_response hp (by nofun) ((txfResponse_of_encall_not_ok _ hnot).trans hencall)⟩

/-- Settles O50: the field's bits are `truncBits` of `encodeRaw`. -/
theorem encAnswersTheMergedBuffer : Obligations.EncAnswersTheMergedBuffer := by
  unfold Obligations.EncAnswersTheMergedBuffer
  rintro s r rest pol m k sig raw hp hinst hacc hraw
  have hraw' : encodeRaw rational s.params sig r.v = raw := by
    rw [hraw]
    simp [encodeRaw, clampNum]
  refine exec_of_response hp (by nofun) ?_
  rw [operate, encResponse_of_accepted _ (signalAt_installed hinst)
    fun hpol => outOfRange_eq_false_iff.2 (hacc hpol)]
  simp only [encodeClamped, encodeFlags, truncBits, outOfRange_eq_decide, hraw']

/-- Settles O52: the loop's buffer is the fold, its flags are the lanes. -/
theorem encallAnswersThePayload : Obligations.EncallAnswersThePayload := by
  unfold Obligations.EncallAnswersThePayload
  intro s r rest pol m msg hp hinst hacc
  have hresp := encallResponse_of_accepted s.params (messageAt_installed hinst) (firstRejected_eq_none hacc)
  rw [encodeLoop_pay] at hresp
  refine ⟨_, exec_of_response hp (by nofun) hresp, fun j hj sig hs => ?_⟩
  rw [lanes_encodeLoop_flags _ hj hs]
  simp only [encodeFlags, outOfRange_eq_decide]

end Sys2Proof.Machine
end

section
/-! PROOFS. The raw integer of a signal (40_signal_codec.md R100, R105): a field read as a two's complement or an unsigned number, and which integers it holds; O42 and O43. -/

namespace Sys2Proof.Machine

open Sys2Proof

/-! ## Reading a field as an integer -/

section
variable {ν : Type} {sig : Signal ν} {pay : Payload}

theorem sraw_unsigned (hu : sig.isSigned = false) : sraw sig pay = (extract sig pay : Int) := by
  simp [sraw, hu]

/-- The sign extension of 40_signal_codec.md R100 is the two's complement reading: the bit it looks at is the field's
most significant one. -/
theorem sraw_signed (hs : sig.isSigned = true) (hlen : 1 ≤ sigLen sig) :
    sraw sig pay = (BitVec.ofNat (sigLen sig) (extract sig pay)).toInt := by
  have hlt := (extract_spec sig pay).1
  have htop : sigLen sig - 1 < sigLen sig := by omega
  have hmsb : (BitVec.ofNat (sigLen sig) (extract sig pay)).msb = (extract sig pay).testBit (sigLen sig - 1) := by
    rw [BitVec.msb_eq_getLsbD_last, BitVec.getLsbD_ofNat, decide_eq_true htop, Bool.true_and]
  simp [sraw, hs, BitVec.toInt_eq_msb_cond, hmsb, Nat.mod_eq_of_lt hlt]

/-- Two buffers that hold the same field hold the same raw integer and the same value. -/
theorem sraw_congr {q : Payload} (h : extract sig pay = extract sig q) : sraw sig pay = sraw sig q := by
  simp only [sraw, h]

theorem decodeValue_congr {N : NumType ν} {q : Payload} (h : extract sig pay = extract sig q) :
    decodeValue N sig pay = decodeValue N sig q := by
  simp only [decodeValue, sraw_congr h]

end

/-- Settles O42: the ranges are those of `extract` and of a two's complement number. -/
theorem rawIntegerIsSignExtendedAndInRange : Obligations.RawIntegerIsSignExtendedAndInRange := by
  unfold Obligations.RawIntegerIsSignExtendedAndInRange
  intro ν sig pay hlen _
  constructor
  · intro hu
    have hlt : (extract sig pay : Int) < 2 ^ sigLen sig := by exact_mod_cast (extract_spec sig pay).1
    rw [sraw_unsigned hu]
    exact ⟨rfl, Int.natCast_nonneg _, by omega⟩
  · intro hs
    rw [sraw_signed hs hlen]
    exact ⟨rfl, BitVec.le_toInt _, Int.le_sub_one_of_lt BitVec.toInt_lt⟩

/-! ## Writing an integer into a field -/

section
variable {ν : Type} {sig : Signal ν} {r : Int}

theorem fitsRaw_unsigned (hu : sig.isSigned = false) : fitsRaw sig r = true ↔ 0 ≤ r ∧ r ≤ 2 ^ sigLen sig - 1 := by
  simp [fitsRaw, hu]

theorem fitsRaw_signed (hs : sig.isSigned = true) :
    fitsRaw sig r = true ↔ -(2 ^ (sigLen sig - 1)) ≤ r ∧ r ≤ 2 ^ (sigLen sig - 1) - 1 := by
  simp [fitsRaw, hs]

theorem truncBits_cast (sig : Signal ν) (r : Int) : (truncBits sig r : Int) = r % 2 ^ sigLen sig :=
  Int.toNat_of_nonneg (Int.emod_nonneg r (by positivity))

theorem truncBits_lt (sig : Signal ν) (r : Int) : truncBits sig r < 2 ^ sigLen sig := by
  have hlt : (truncBits sig r : Int) < 2 ^ sigLen sig := by
    rw [truncBits_cast]
    exact Int.emod_lt_of_pos r (by positivity)
  exact_mod_cast hlt

/-- The bits written, as a bit vector, are those of the integer. -/
theorem ofNat_truncBits (sig : Signal ν) (r : Int) :
    BitVec.ofNat (sigLen sig) (truncBits sig r) = BitVec.ofInt (sigLen sig) r := by
  apply BitVec.eq_of_toNat_eq
  rw [BitVec.toNat_ofNat, Nat.mod_eq_of_lt (truncBits_lt sig r), BitVec.toNat_ofInt, truncBits]
  norm_cast

/-- A field that holds the truncated bits of an integer that fits reads back as that integer (40_signal_codec.md
R105). -/
theorem sraw_of_extract_eq_truncBits {pay : Payload} (hlen : 1 ≤ sigLen sig) (hfit : fitsRaw sig r = true)
    (h : extract sig pay = truncBits sig r) : sraw sig pay = r := by
  cases hs : sig.isSigned with
  | false =>
    obtain ⟨hlo, hhi⟩ := (fitsRaw_unsigned hs).1 hfit
    rw [sraw_unsigned hs, h, truncBits_cast]
    exact Int.emod_eq_of_lt hlo (by omega)
  | true =>
    obtain ⟨hlo, hhi⟩ := (fitsRaw_signed hs).1 hfit
    rw [sraw_signed hs hlen, h, ofNat_truncBits]
    exact BitVec.toInt_ofInt_eq_self hlen hlo (by omega)

end

/-- Settles O43: what is written is read back by the first law of 20_memory.md R60. -/
theorem fittingRawIntegerReadsBack : Obligations.FittingRawIntegerReadsBack := by
  unfold Obligations.FittingRawIntegerReadsBack
  intro ν sig r pay hlen hin
  exact ⟨fitsRaw_unsigned, fitsRaw_signed, truncBits_cast sig r, truncBits_lt sig r,
    fun hfit => sraw_of_extract_eq_truncBits hlen hfit (extract_insert hin (truncBits_lt sig r) pay)⟩

end Sys2Proof.Machine
end

section
/-! PROOFS. The laws of encode and decode (40_signal_codec.md R107 to R111): the round trip, signals that do not clobber each other, the order of encoding and the payload of ENCALL; O44 to O48. -/

namespace Sys2Proof.Machine

open Sys2Proof

/-! ## One signal -/

section
variable {ν : Type} {N : NumType ν} {p : Params} {sig : Signal ν} {v : ν} (pay : Payload)

/-- `rovf` is clear exactly when the rounded integer fits (40_signal_codec.md R105). -/
theorem encodeClamped_rovf_eq_false_iff :
    (encodeClamped N p sig v pay).2.rovf = false ↔ fitsRaw sig (encodeRaw N p sig v) = true := by
  rw [encodeClamped, encodeFlags, Bool.not_eq_false']

/-- Encoding leaves in the field the truncated bits of the rounded integer. -/
theorem extract_encodeClamped (hin : fieldInside sig) :
    extract sig (encodeClamped N p sig v pay).1 = truncBits sig (encodeRaw N p sig v) :=
  extract_insert hin (truncBits_lt ..) pay

/-- What is decoded after encoding does not depend on the buffer encoded into. -/
theorem decodeValue_encodeClamped_congr (hin : fieldInside sig) (q : Payload) :
    decodeValue N sig (encodeClamped N p sig v pay).1 = decodeValue N sig (encodeClamped N p sig v q).1 :=
  decodeValue_congr (by simp only [extract_encodeClamped _ hin])

/-- Where the rounded integer fits, it is the integer that decoding finds. -/
theorem decodeValue_encodeClamped (hlen : 1 ≤ sigLen sig) (hin : fieldInside sig)
    (hfit : fitsRaw sig (encodeRaw N p sig v) = true) :
    decodeValue N sig (encodeClamped N p sig v pay).1 =
      N.add (N.mul (N.ofInt (encodeRaw N p sig v)) sig.scale) sig.offset := by
  rw [decodeValue, sraw_of_extract_eq_truncBits hlen hfit (extract_encodeClamped pay hin)]

/-- A value in range is rounded as it is. -/
theorem encodeRaw_of_mem (hN : N.Ordered) (hlo : N.le sig.minValue v = true)
    (hhi : N.le v sig.maxValue = true) :
    encodeRaw N p sig v = N.round p.roundTies (N.div (N.sub v sig.offset) sig.scale) := by
  rw [encodeRaw, clampNum_of_mem hN hlo hhi]

/-- The round trip of a value in range (40_signal_codec.md R107). -/
theorem decodeValue_encodeClamped_of_mem (hN : N.Ordered) (hlen : 1 ≤ sigLen sig) (hin : fieldInside sig)
    (hlo : N.le sig.minValue v = true) (hhi : N.le v sig.maxValue = true)
    (hfit : fitsRaw sig (encodeRaw N p sig v) = true) :
    decodeValue N sig (encodeClamped N p sig v pay).1 =
      N.add (N.mul (N.ofInt (N.round p.roundTies (N.div (N.sub v sig.offset) sig.scale))) sig.scale) sig.offset := by
  rw [decodeValue_encodeClamped pay hlen hin hfit, encodeRaw_of_mem hN hlo hhi]

end

/-- The round trip of a value in range, at `NUM = ℚ`. -/
theorem decodeValue_encodeClamped_rational {p : Params} {sig : Signal} {v : NUM} (hlen : 1 ≤ sigLen sig)
    (hin : fieldInside sig) (hlo : sig.minValue ≤ v) (hhi : v ≤ sig.maxValue)
    (hfit : fitsRaw sig (encodeRaw rational p sig v) = true) (pay : Payload) :
    decodeValue rational sig (encodeClamped rational p sig v pay).1 =
      (roundNum p.roundTies ((v - sig.offset) / sig.scale) : NUM) * sig.scale + sig.offset :=
  decodeValue_encodeClamped_of_mem pay rational_ordered hlen hin (decide_eq_true hlo) (decide_eq_true hhi) hfit

/-- At `NUM = ℚ` the round trip moves a value by at most half a step. -/
theorem abs_roundNum_mul_add_sub_le (ties : RoundTies) {scale : NUM} (hscale : scale ≠ 0) (v offset : NUM) :
    |(roundNum ties ((v - offset) / scale) : NUM) * scale + offset - v| ≤ |scale| / 2 := by
  have hv : (v - offset) / scale * scale = v - offset := div_mul_cancel₀ _ hscale
  calc
    _ = |((roundNum ties ((v - offset) / scale) : NUM) - (v - offset) / scale) * scale| := by
      rw [sub_mul, hv]
      ring_nf
    _ = |(roundNum ties ((v - offset) / scale) : NUM) - (v - offset) / scale| * |scale| := abs_mul ..
    _ ≤ 1 / 2 * |scale| := mul_le_mul_of_nonneg_right (abs_roundNum_sub_le ..) (abs_nonneg _)
    _ = |scale| / 2 := by ring

/-- At `NUM = ℚ` a value on the grid of the signal is its own round trip. -/
theorem roundNum_mul_add_of_eq_intCast (ties : RoundTies) {scale v offset : NUM} {n : Int} (hscale : scale ≠ 0)
    (hn : (v - offset) / scale = n) : (roundNum ties ((v - offset) / scale) : NUM) * scale + offset = v := by
  rw [hn, roundNum_intCast, ← hn, div_mul_cancel₀ _ hscale, sub_add_cancel]

/-- Settles O44: a value in range is accepted and not clamped, and `rovf` clear says that the integer fits. -/
theorem encodeThenDecodeRoundTrips : Obligations.EncodeThenDecodeRoundTrips := by
  unfold Obligations.EncodeThenDecodeRoundTrips
  constructor
  · intro ν N p pol sig v pay hN hlen hin hlo hhi
    have hmem := outOfRange_of_mem hN hlo hhi
    exact ⟨_, _, encodeSignal_of_accepted p (fun _ => hmem) pay, hmem, fun hrovf =>
      decodeValue_encodeClamped_of_mem pay hN hlen hin hlo hhi
        ((encodeClamped_rovf_eq_false_iff pay).1 hrovf)⟩
  · intro p pol sig v pay hlen hin hscale hlo hhi
    have hmem := outOfRange_eq_false_iff.2 ⟨hlo, hhi⟩
    refine ⟨(encodeClamped rational p sig v pay).1, _, encodeSignal_of_accepted p (fun _ => hmem) pay, hmem,
      fun hrovf => ?_⟩
    have hfit := (encodeClamped_rovf_eq_false_iff pay).1 hrovf
    rw [decodeValue_encodeClamped_rational hlen hin hlo hhi hfit]
    exact ⟨rfl, abs_roundNum_mul_add_sub_le _ hscale _ _, fun n hn => roundNum_mul_add_of_eq_intCast _ hscale hn⟩

/-! ## Two signals of a message -/

section
variable {ν : Type} {N : NumType ν} {p : Params} {a b : Signal ν}

/-- Encoding one signal leaves the field of another that shares no cell with it. -/
theorem extract_encodeClamped_of_cellsDisjoint (ha : fieldInside a) (hab : cellsDisjoint a b) (w : ν) (pay : Payload) :
    extract a (encodeClamped N p b w pay).1 = extract a pay :=
  extract_insert_of_cellsDisjoint ha hab _ pay

/-- Encoding two signals that share no cell gives the same buffer in either order. -/
theorem encodeClamped_comm (hab : cellsDisjoint a b) (v w : ν) (pay : Payload) :
    (encodeClamped N p a v (encodeClamped N p b w pay).1).1 = (encodeClamped N p b w (encodeClamped N p a v pay).1).1 :=
  insert_comm_of_cellsDisjoint hab _ _ pay

end

/-- Settles O45: the second encode does not change the field that the first one wrote. -/
theorem encodingOneSignalKeepsTheOthers : Obligations.EncodingOneSignalKeepsTheOthers := by
  unfold Obligations.EncodingOneSignalKeepsTheOthers
  constructor
  · intro ν N p table msg j k a b hN htable hmsg hjk ha hb
    have hv := htable.2.1 msg hmsg
    obtain ⟨hlen, hin, -, -⟩ := hv.inside (List.mem_of_getElem? ha)
    have hab := hv.disjoint hjk ha hb
    have hkeep (w : ν) (pay : Payload) := extract_encodeClamped_of_cellsDisjoint (N := N) (p := p) hin hab w pay
    refine ⟨hab, fun w pay => ⟨sraw_congr (hkeep w pay), decodeValue_congr (hkeep w pay)⟩, ?_⟩
    intro v w pay hlo hhi hfit
    rw [decodeValue_congr (hkeep w _)]
    exact decodeValue_encodeClamped_of_mem pay hN hlen hin hlo hhi hfit
  · intro p table msg j k a b htable hmsg hjk ha hb v w pay n hlo hhi hfit hn
    have hv := htable.2.1 msg hmsg
    obtain ⟨hlen, hin, -, hscale⟩ := hv.inside (List.mem_of_getElem? ha)
    rw [isZero_rational, decide_eq_false_iff_not] at hscale
    rw [decodeValue_congr (extract_encodeClamped_of_cellsDisjoint hin (hv.disjoint hjk ha hb) w _),
      decodeValue_encodeClamped_rational hlen hin hlo hhi hfit]
    exact roundNum_mul_add_of_eq_intCast _ hscale hn

/-! ## All signals of a message -/

section
variable {ν : Type} {N : NumType ν} (p : Params) {msg : Message ν} (vals : Vector ν 64)

/-- Two different assignments of a valid message are those of two signal indices, so they share no cell. -/
theorem assignments_cellsDisjoint (hv : messageValid N msg) {x y : Signal ν × ν} (hx : x ∈ assignments msg vals)
    (hy : y ∈ assignments msg vals) (hne : x ≠ y) : cellsDisjoint x.1 y.1 := by
  obtain ⟨j, hj⟩ := List.mem_iff_getElem?.1 hx
  obtain ⟨k, hk⟩ := List.mem_iff_getElem?.1 hy
  have hjk : j ≠ k := by
    rintro rfl
    exact hne (Option.some.inj (hj.symm.trans hk))
  exact hv.disjoint hjk (assignments_getElem?_eq_some.1 hj).1 (assignments_getElem?_eq_some.1 hk).1

/-- The loop of ENCALL builds the same payload in any order (40_signal_codec.md R111): any two of its steps commute. -/
theorem encodeLoop_pay_perm (hv : messageValid N msg) {order : List (Signal ν × ν)}
    (hperm : order.Perm (assignments msg vals)) (pay : Payload) :
    (encodeLoop N p order pay).1 = (encodeLoop N p (assignments msg vals) pay).1 := by
  rw [encodeLoop_pay, encodeLoop_pay]
  refine hperm.foldl_eq' (fun x hx y hy pay => ?_) pay
  by_cases hxy : x = y
  · rw [hxy]
  · exact encodeClamped_comm
      (assignments_cellsDisjoint vals hv (hperm.mem_iff.1 hy) (hperm.mem_iff.1 hx) (Ne.symm hxy)) ..

/-- As the order does not matter, any one signal may be thought of as encoded last. -/
theorem encodeLoop_pay_eq_encode_last (hv : messageValid N msg) {x : Signal ν × ν} (hx : x ∈ assignments msg vals)
    (pay : Payload) :
    ∃ before, (encodeLoop N p (assignments msg vals) pay).1 = (encodeClamped N p x.1 x.2 before).1 := by
  obtain ⟨front, back, hsplit⟩ := List.append_of_mem hx
  have hperm : ((front ++ back) ++ [x]).Perm (assignments msg vals) := by
    rw [hsplit]
    exact (List.perm_append_singleton x _).trans List.perm_middle.symm
  refine ⟨(encodeLoop N p (front ++ back) pay).1, ?_⟩
  rw [← encodeLoop_pay_perm p vals hv hperm, encodeLoop_pay, encodeLoop_pay, List.foldl_append]
  rfl

/-- Each signal is decoded from the payload of ENCALL as if it had been encoded alone, into whatever buffer. -/
theorem decodeValue_encodeLoop (hv : messageValid N msg) {j : Nat} (hj : j < 64) {sig : Signal ν}
    (hs : msg.sig[j]? = some sig) (pay q : Payload) :
    decodeValue N sig (encodeLoop N p (assignments msg vals) pay).1 =
      decodeValue N sig (encodeClamped N p sig vals[j] q).1 := by
  have hmem : (sig, vals[j]) ∈ assignments msg vals := List.mem_of_getElem? (assignments_getElem? vals hj hs)
  obtain ⟨before, hlast⟩ := encodeLoop_pay_eq_encode_last p vals hv hmem pay
  rw [hlast]
  obtain ⟨-, hin, -⟩ := hv.inside (List.mem_of_getElem? hs)
  exact decodeValue_encodeClamped_congr before hin q

end

/-- Settles O46: the flags of a signal are `encodeFlags`, whatever the order. -/
theorem encodeOrderDoesNotMatter : Obligations.EncodeOrderDoesNotMatter := by
  unfold Obligations.EncodeOrderDoesNotMatter
  intro ν N p table msg vals order pay htable hmsg hperm
  exact ⟨encodeLoop_pay_perm p vals (htable.2.1 msg hmsg) hperm pay,
    fun sv => encodeFlags N sv.1 sv.2 (encodeRaw N p sv.1 sv.2), encodeLoop_flags .., encodeLoop_flags ..⟩

/-- Settles O47: each signal is decoded from the payload of ENCALL as if it had been encoded alone. -/
theorem encallThenDecallRoundTrips : Obligations.EncallThenDecallRoundTrips := by
  unfold Obligations.EncallThenDecallRoundTrips
  intro s pol m msg r q rest rest' t u x y hinv hinst hp hencall hx hok hlen hpay hdecall hy
  have hv := (installed_of_inv hinv hinst).1
  have hm := messageAt_installed hinst
  have hdlc : (BitVec.ofNat 4 msg.dlc.val).toNat = msg.dlc.val := by
    rw [BitVec.toNat_ofNat]
    exact Nat.mod_eq_of_lt msg.dlc.isLt
  have hxr : x = encallResponse rational s.params s.toHeld pol m r := exec_rsp hp hencall hx
  obtain he | ⟨msg', hm', he⟩ := encallResponse_cases rational s.params s.toHeld pol m r
  · exact absurd (hxr ▸ hok) he.st_ne_ok
  cases hm.symm.trans hm'
  rw [he] at hxr
  subst hxr
  have hqlen : q.len.toNat = msg.dlc.val := by rw [hlen, hdlc]
  have hyr : y = decodeMessage rational m msg q.len q.pay :=
    (exec_rsp rfl hdecall hy).trans (decallResponse_of_messageAt hm (hqlen ▸ hv.1))
  rw [decodeMessage_of_long rational fun sig hs => hqlen ▸ (hv.inside hs).2.2.1] at hyr
  subst hyr
  refine ⟨rfl, hdlc, fun j hj sig hs => ⟨?_, lanes_encodeLoop_flags _ hj hs _ _⟩⟩
  rw [lanes_getElem, List.getD_eq_getElem?_getD, List.getElem?_map, hs, hpay]
  exact decodeValue_encodeLoop s.params r.vals hv hj hs _ _

/-! ## Bits that no signal owns -/

/-- The loop of ENCALL leaves a bit that is in no signal's cells. -/
theorem cellBit_encodeLoop_of_unowned {ν : Type} (N : NumType ν) (p : Params) {xs : List (Signal ν × ν)} {b k : Nat}
    (hb : b < 8) (hk : k < 8) (hun : ∀ x ∈ xs, (b, k) ∉ cells x.1) (pay : Payload) :
    cellBit (encodeLoop N p xs pay).1 (b, k) = cellBit pay (b, k) := by
  induction xs generalizing pay with
  | nil => rfl
  | cons x xs ih =>
    rw [List.forall_mem_cons] at hun
    calc
      _ = cellBit (encodeClamped N p x.1 x.2 pay).1 (b, k) := ih hun.2 _
      _ = insertedBit x.1 _ pay (b, k) := cellBit_insert _ _ pay b k hb hk
      _ = cellBit pay (b, k) := insertedBit_outside hun.1 _ pay

theorem mem_of_mem_assignments {ν : Type} {msg : Message ν} {vals : Vector ν 64} {x : Signal ν × ν}
    (hx : x ∈ assignments msg vals) : x.1 ∈ msg.sig :=
  (List.of_mem_zip hx).1

theorem cellBit_zeroPayload (b k : Nat) (hb : b < 8) : cellBit zeroPayload (b, k) = false := by
  simp [cellBit_of_lt _ _ _ hb, zeroPayload]

/-- No signal of a valid message has a cell in byte `dlc` or above. -/
theorem messageValid.not_mem_cells {ν : Type} {N : NumType ν} {msg : Message ν} (h : messageValid N msg)
    {sig : Signal ν} (hs : sig ∈ msg.sig) {b : Nat} (hb : msg.dlc.val ≤ b) (k : Nat) : (b, k) ∉ cells sig := by
  intro hc
  have hneed : b < need sig := (cells_byte_bounds hc).2
  obtain ⟨-, -, hplace, -⟩ := h.inside hs
  rw [need] at hneed
  omega

/-- Settles O48: the buffer of ENCALL starts from zeros, and an error result carries zeros too. -/
theorem unownedPayloadBitsAreZero : Obligations.UnownedPayloadBitsAreZero := by
  unfold Obligations.UnownedPayloadBitsAreZero
  intro s t r rest pol m msg x b k hb hp hinst hk hexec hx
  have hzero : (∀ sig ∈ msg.sig, (b, k) ∉ cells sig) → x.pay[b].getLsbD k = false := by
    intro hun
    obtain rfl : x = encallResponse rational s.params s.toHeld pol m r := exec_rsp hp hexec hx
    rw [← cellBit_of_lt _ _ _ hb]
    obtain ⟨st, sub, m', s', aux, -, he⟩ | ⟨msg', hm', he⟩ :=
      encallResponse_cases rational s.params s.toHeld pol m r
    · rw [he]
      exact cellBit_zeroPayload b k hb
    · cases (messageAt_installed hinst).symm.trans hm'
      rw [he]
      exact (cellBit_encodeLoop_of_unowned _ _ hb hk (fun y hy => hun _ (mem_of_mem_assignments hy)) _).trans
        (cellBit_zeroPayload b k hb)
  exact ⟨hzero, fun hinv hdlc =>
    hzero fun sig hs => (installed_of_inv hinv hinst).1.not_mem_cells hs hdlc k⟩

end Sys2Proof.Machine
end

section
/-! PROOFS. The validation of a table image (41_table_build.md R132, R133, R136): `first_violation` is empty exactly on a valid image, it is the first line that fires, and its indices fit a response; O29, O30, O31 and O32. -/

namespace Sys2Proof.Machine

open Sys2Proof

/-! ## The lines in sequence -/

/-- The checks of a message in sequence: its own line, the signal loop, the overlap loop. -/
theorem messageFault_eq_or {ν : Type} (N : NumType ν) (m : Nat) (msg : RawMessage ν) :
    messageFault N m msg =
      if 8 < msg.dlc.val ∨ 64 < msg.sig.length ∨ msg.reserved = true then some ⟨.range, m, 0, 0⟩
      else (firstFault (fun s sig => (signalFault N msg.dlc.val sig).map fun sub => Violation.mk sub m s 0) 0 msg.sig).or
        ((firstPair overlap 0 msg.sig).map fun ij => ⟨.overlap, m, ij.1, ij.2⟩) := by
  unfold messageFault
  split_ifs
  · rfl
  · split
    next hv => rw [hv, Option.some_or]
    next hv => rw [hv, Option.none_or]

/-- The checks of an image in sequence: its own two lines, the message loop, the collision loop. -/
theorem firstViolation_eq_or {ν : Type} (N : NumType ν) (p : Params) (img : Image ν) :
    firstViolation N p img =
      if img.reserved = true then some ⟨.range, 0, 0, 0⟩
      else if p.nMsgMax.val < img.msgs.length then some ⟨.capacity, 0, 0, 0⟩
      else (firstFault (messageFault N) 0 img.msgs).or
        ((firstPair idsCollide 0 img.msgs).map fun ij => ⟨.idCollision, ij.1, 0, ij.2⟩) := by
  unfold firstViolation
  split_ifs
  · rfl
  · rfl
  · split
    next hv => rw [hv, Option.some_or]
    next hv => rw [hv, Option.none_or]

/-! ## Nothing fires exactly on a valid image -/

/-- In a total order `first_violation` finds nothing exactly on a valid image (41_table_build.md R132). -/
theorem firstViolation_eq_none_iff {ν : Type} {N : NumType ν} (hN : N.Ordered) {p : Params} {img : Image ν} :
    firstViolation N p img = none ↔ imageValid N p img := by
  have hmsgs : firstFault (messageFault N) 0 img.msgs = none ↔ ∀ msg ∈ img.msgs,
      messageValid N (installedMessage msg) ∧ msg.reserved = false ∧ ∀ sig ∈ msg.sig, sig.reserved = false :=
    firstFault_eq_none_iff_forall fun _ _ => messageFault_eq_none_iff hN
  have hids : firstPair idsCollide 0 img.msgs = none ↔
      (installedRecords img).Pairwise fun a b => a.messageId &&& a.idMask ≠ b.messageId &&& b.idMask := by
    rw [firstPair_eq_none, installedRecords, List.pairwise_map]
    simp only [idsCollide_eq_false_iff, installedMessage]
  have hcount : (installedRecords img).length = img.msgs.length := List.length_map _
  rw [firstViolation_eq_or, ite_some_eq_none_iff, ite_some_eq_none_iff, Option.or_eq_none_iff, hmsgs,
    Option.map_eq_none_iff, hids, imageValid, noReservedBit, tableValid, hcount, installedRecords,
    List.forall_mem_map, Bool.not_eq_true, Nat.not_lt]
  constructor
  · rintro ⟨hres, hmax, hmsg, hpair⟩
    exact ⟨⟨hres, fun msg hm => (hmsg msg hm).2⟩, hmax, fun msg hm => (hmsg msg hm).1, hpair⟩
  · rintro ⟨⟨hres, hmsgres⟩, hmax, hmsg, hpair⟩
    exact ⟨hres, hmax, fun msg hm => ⟨hmsg msg hm, hmsgres msg hm⟩, hpair⟩

/-- Settles O29: line by line, in `firstViolation_eq_none_iff`. -/
theorem imageIsValidExactlyWhenNoViolation : Obligations.ImageIsValidExactlyWhenNoViolation :=
  fun _ _ _ _ hN => firstViolation_eq_none_iff hN

/-! ## The first line that fires is the one reported -/

theorem head?_lineIf_append {α : Type} (c : Prop) [Decidable c] (v : α) (xs : List α) :
    (lineIf c v ++ xs).head? = if c then some v else xs.head? := by
  unfold lineIf
  split <;> rfl

/-- A single loop reports the first line of its elements' lines, where each check reports its first. -/
theorem firstFault_eq_head?_flatMap {α β : Type} {check : Nat → α → Option β} {lines : Nat → α → List β}
    (h : ∀ i x, check i x = (lines i x).head?) (base : Nat) (xs : List α) :
    firstFault check base xs = ((xs.zipIdx base).flatMap fun x => lines x.2 x.1).head? := by
  induction xs generalizing base with
  | nil => rfl
  | cons x xs ih =>
    rw [List.zipIdx_cons, List.flatMap_cons, List.head?_append, ← ih, ← h, firstFault]
    split
    next hv => rw [hv, Option.some_or]
    next hv => rw [hv, Option.none_or]

/-- The line that a double loop has for the indices `i` and `j`: it fires for `i < j` where the elements are bad together. -/
def pairLine {α : Type} (bad : α → α → Bool) (xs : List α) (i j : Nat) : List (Nat × Nat) :=
  match xs[i]?, xs[j]? with
  | some a, some b => lineIf (i < j ∧ bad a b = true) (i, j)
  | _, _ => []

theorem badPairs_eq_flatMap_pairLine {α : Type} (bad : α → α → Bool) (xs : List α) :
    badPairs bad xs =
      (List.range xs.length).flatMap fun i => (List.range xs.length).flatMap fun j => pairLine bad xs i j := rfl

theorem pairLine_of_not_lt {α : Type} (bad : α → α → Bool) (xs : List α) {i j : Nat} (h : ¬ i < j) :
    pairLine bad xs i j = [] := by
  unfold pairLine
  split
  · exact lineIf_eq_nil_iff.2 fun hij => h hij.1
  · rfl

theorem pairLine_cons_succ {α : Type} (bad : α → α → Bool) (x : α) (xs : List α) (i j : Nat) :
    pairLine bad (x :: xs) (i + 1) (j + 1) = (pairLine bad xs i j).map fun ij => (ij.1 + 1, ij.2 + 1) := by
  simp only [pairLine, List.getElem?_cons_succ, Nat.add_lt_add_iff_right]
  split
  · unfold lineIf
    split <;> rfl
  · rfl

theorem pairLine_zero_cons_cons_succ {α : Type} (bad : α → α → Bool) (x y : α) (xs : List α) (j : Nat) :
    pairLine bad (x :: y :: xs) 0 (j + 1 + 1) = (pairLine bad (x :: xs) 0 (j + 1)).map fun ij => (ij.1, ij.2 + 1) := by
  simp only [pairLine, List.getElem?_cons_succ, List.getElem?_cons_zero, Nat.zero_lt_succ]
  split
  · unfold lineIf
    split <;> rfl
  · rfl

/-- The pairs of a list's first element `x` with an element of the rest. -/
def firstRow {α : Type} (bad : α → α → Bool) (x : α) (xs : List α) : List (Nat × Nat) :=
  (List.range xs.length).flatMap fun j => pairLine bad (x :: xs) 0 (j + 1)

theorem firstRow_cons {α : Type} (bad : α → α → Bool) (x y : α) (xs : List α) :
    firstRow bad x (y :: xs) =
      lineIf (bad x y = true) (0, 1) ++ (firstRow bad x xs).map fun ij => (ij.1, ij.2 + 1) := by
  have hline : pairLine bad (x :: y :: xs) 0 1 = lineIf (bad x y = true) (0, 1) := by
    simp [pairLine, lineIf]
  rw [firstRow, List.length_cons, List.range_succ_eq_map, List.flatMap_cons, List.flatMap_map, hline, firstRow,
    List.map_flatMap]
  simp only [Nat.succ_eq_add_one, pairLine_zero_cons_cons_succ]

/-- The first pair of the first row has the least index at which an element is bad with `x`. -/
theorem firstRow_head? {α : Type} (bad : α → α → Bool) (x : α) (xs : List α) :
    (firstRow bad x xs).head? = (xs.findIdx? (bad x)).map fun k => (0, k + 1) := by
  induction xs with
  | nil => rfl
  | cons y xs ih =>
    rw [firstRow_cons, head?_lineIf_append, List.head?_map, ih, List.findIdx?_cons]
    split
    · rfl
    · rw [Option.map_map, Option.map_map]
      rfl

/-- The pairs of a list: the first row, then the pairs of the rest with both indices one higher. -/
theorem badPairs_cons {α : Type} (bad : α → α → Bool) (x : α) (xs : List α) :
    badPairs bad (x :: xs) = firstRow bad x xs ++ (badPairs bad xs).map fun ij => (ij.1 + 1, ij.2 + 1) := by
  have hzero (i : Nat) : pairLine bad (x :: xs) i 0 = [] := pairLine_of_not_lt bad _ (Nat.not_lt_zero i)
  simp only [badPairs_eq_flatMap_pairLine, firstRow, List.length_cons, List.range_succ_eq_map, List.flatMap_cons,
    List.flatMap_map, hzero, List.nil_append, Nat.succ_eq_add_one, pairLine_cons_succ, List.map_flatMap]

/-- A double loop reports the first bad pair, its indices counted from `base`. -/
theorem firstPair_eq_head?_badPairs {α : Type} (bad : α → α → Bool) (base : Nat) (xs : List α) :
    firstPair bad base xs = (badPairs bad xs).head?.map fun ij => (base + ij.1, base + ij.2) := by
  induction xs generalizing base with
  | nil => rfl
  | cons x xs ih =>
    rw [badPairs_cons, List.head?_append, firstRow_head?, List.head?_map, firstPair]
    split
    next k hk =>
      simp only [hk, Option.map_some, Option.some_or, Nat.add_zero, Nat.add_assoc, Nat.add_comm 1]
    next hk =>
      rw [hk, Option.map_none, Option.none_or, ih, Option.map_map]
      simp only [Function.comp_def, Nat.add_assoc, Nat.add_comm 1]

/-- A double loop from index 0 reports the first bad pair. -/
theorem firstPair_zero {α : Type} (bad : α → α → Bool) (xs : List α) :
    firstPair bad 0 xs = (badPairs bad xs).head? := by
  simp [firstPair_eq_head?_badPairs]

/-- The checks of a signal report its first line. -/
theorem signalFault_eq_head?_signalLines {ν : Type} (N : NumType ν) (m s dlc : Nat) (sig : RawSignal ν) :
    ((signalFault N dlc sig).map fun sub => Violation.mk sub m s 0) = (signalLines N m s dlc sig).head? := by
  rw [signalLines, List.append_assoc, List.append_assoc, head?_lineIf_append, head?_lineIf_append, head?_lineIf_append,
    ← List.append_nil (lineIf (N.lt _ _ = true) _), head?_lineIf_append, signalFault]
  split_ifs <;> rfl

/-- The checks of a message report its first line. -/
theorem messageFault_eq_head?_messageLines {ν : Type} (N : NumType ν) (m : Nat) (msg : RawMessage ν) :
    messageFault N m msg = (messageLines N m msg).head? := by
  rw [messageFault_eq_or, messageLines, List.append_assoc, head?_lineIf_append, List.head?_append, List.head?_map,
    firstPair_zero,
    firstFault_eq_head?_flatMap fun s sig => signalFault_eq_head?_signalLines N m s msg.dlc.val sig]

/-- Settles O30: each loop reports the first line of its lines. -/
theorem firstViolationIsTheFirstFiredLine : Obligations.FirstViolationIsTheFirstFiredLine := by
  unfold Obligations.FirstViolationIsTheFirstFiredLine
  intro ν N p img
  rw [firstViolation_eq_or, firedLines, List.append_assoc, List.append_assoc, head?_lineIf_append, head?_lineIf_append,
    List.head?_append, List.head?_map, firstPair_zero,
    firstFault_eq_head?_flatMap (messageFault_eq_head?_messageLines N)]

/-! ## The indices of a violation -/

theorem firstPair_zero_lt {α : Type} {bad : α → α → Bool} {xs : List α} {i j : Nat}
    (h : firstPair bad 0 xs = some (i, j)) : i < j ∧ j < xs.length := by
  obtain ⟨-, hlt, _, _, -, hj, -⟩ := firstPair_eq_some h
  exact ⟨hlt, (List.getElem?_eq_some_iff.1 hj).1⟩

/-- What the checks of message `m` report names `m`, and signals of it, which are at most 64. -/
theorem messageFault_indices {ν : Type} {N : NumType ν} {m : Nat} {msg : RawMessage ν} {v : Violation}
    (h : messageFault N m msg = some v) : v.m = m ∧ v.s < 64 ∧ v.aux < 64 := by
  rw [messageFault_eq_or] at h
  split at h
  next =>
    cases h
    exact ⟨rfl, show 0 < 64 by decide, show 0 < 64 by decide⟩
  next hown =>
    obtain hsig | ⟨-, hpair⟩ := Option.or_eq_some_iff.1 h
    · obtain ⟨k, sig, hk, hsig⟩ := firstFault_eq_some hsig
      obtain ⟨sub, -, rfl⟩ := Option.map_eq_some_iff.1 hsig
      have hlt := (List.getElem?_eq_some_iff.1 hk).1
      exact ⟨rfl, show 0 + k < 64 by omega, show 0 < 64 by decide⟩
    · obtain ⟨⟨i, j⟩, hij, rfl⟩ := Option.map_eq_some_iff.1 hpair
      obtain ⟨hlt, hj⟩ := firstPair_zero_lt hij
      exact ⟨rfl, show i < 64 by omega, show j < 64 by omega⟩

/-- Everything that `first_violation` can report. -/
theorem firstViolation_cases {ν : Type} {N : NumType ν} {p : Params} {img : Image ν} {v : Violation}
    (h : firstViolation N p img = some v) :
    (img.reserved = true ∧ v = ⟨.range, 0, 0, 0⟩) ∨
    (p.nMsgMax.val < img.msgs.length ∧ v = ⟨.capacity, 0, 0, 0⟩) ∨
    (img.msgs.length ≤ p.nMsgMax.val ∧
      ((∃ (m : Nat) (msg : RawMessage ν), img.msgs[m]? = some msg ∧ messageFault N m msg = some v) ∨
        ∃ i j, i < j ∧ j < img.msgs.length ∧ v = ⟨.idCollision, i, 0, j⟩)) := by
  rw [firstViolation_eq_or] at h
  split at h
  next hres => exact .inl ⟨hres, (Option.some.inj h).symm⟩
  next =>
    split at h
    next hmax => exact .inr (.inl ⟨hmax, (Option.some.inj h).symm⟩)
    next hmax =>
      refine .inr (.inr ⟨Nat.not_lt.1 hmax, ?_⟩)
      obtain hmsg | ⟨-, hpair⟩ := Option.or_eq_some_iff.1 h
      · obtain ⟨m, msg, hm, hv⟩ := firstFault_eq_some hmsg
        exact .inl ⟨m, msg, hm, Nat.zero_add m ▸ hv⟩
      · obtain ⟨⟨i, j⟩, hij, rfl⟩ := Option.map_eq_some_iff.1 hpair
        obtain ⟨hlt, hj⟩ := firstPair_zero_lt hij
        exact .inr ⟨i, j, hlt, hj, rfl⟩

/-- Settles O31: message indices lie below the count of messages, which N_MSG_MAX bounds by 256. -/
theorem violationIndicesFitTheResponse : Obligations.ViolationIndicesFitTheResponse := by
  unfold Obligations.ViolationIndicesFitTheResponse
  intro ν N p img v h
  have hcap := p.nMsgMax.isLt
  obtain ⟨hres, rfl⟩ | ⟨-, rfl⟩ | ⟨hmax, ⟨m, msg, hm, hv⟩ | ⟨i, j, hij, hj, rfl⟩⟩ := firstViolation_cases h
  · exact ⟨by decide, by decide, by decide, fun hres' => by simp [hres] at hres'⟩
  · exact ⟨by decide, by decide, by decide, fun _ hsub => absurd rfl hsub⟩
  · obtain ⟨rfl, hs, haux⟩ := messageFault_indices hv
    have hlt := (List.getElem?_eq_some_iff.1 hm).1
    exact ⟨by omega, hs, by omega, fun _ _ => ⟨by omega, hlt⟩⟩
  · exact ⟨show i < 256 by omega, show 0 < 64 by decide, show j < 256 by omega,
      fun _ _ => ⟨show i < _ by omega, show i < _ by omega⟩⟩

/-! ## The number of signals of a message -/

/-- Of two signals with disjoint intervals, neither empty, one's `start_bit` is not the other's. -/
theorem intervalsDisjoint.start_ne {ν : Type} {a b : Signal ν} (h : intervalsDisjoint a b) (ha : 1 ≤ sigLen a)
    (hb : 1 ≤ sigLen b) : sigStart a ≠ sigStart b := by
  have hstart := h (sigStart a)
  omega

/-- Settles O32: the signals' start bits are different positions below 64. -/
theorem disjointSignalsAreAtMostSixtyFour : Obligations.DisjointSignalsAreAtMostSixtyFour := by
  unfold Obligations.DisjointSignalsAreAtMostSixtyFour
  intro ν sigs hsigs hdisj
  have hnodup : (sigs.map sigStart).Nodup :=
    List.pairwise_map.2 (hdisj.imp_of_mem fun ha hb hab => hab.start_ne (hsigs _ ha).1 (hsigs _ hb).1)
  have hpos : sigs.map sigStart ⊆ List.range 64 := by
    intro p hp
    obtain ⟨sig, hs, rfl⟩ := List.mem_map.1 hp
    obtain ⟨hlen, hin⟩ : 1 ≤ sigLen sig ∧ sigStart sig + sigLen sig ≤ 64 := hsigs sig hs
    exact List.mem_range.2 (by omega)
  calc
    sigs.length = (sigs.map sigStart).length := (List.length_map _).symm
    _ ≤ (List.range 64).length := (hnodup.subperm hpos).length_le
    _ = 64 := List.length_range

end Sys2Proof.Machine
end

section
/-! PROOFS. BUILD and the table it installs (41_table_build.md R131, R137 to R140): what BUILD answers for a valid and for an invalid image, what validity gives an installed record, and what STAT, GETM and GETS answer; O27, O28, O33, O34, O35 and O36. -/

namespace Sys2Proof.Machine

open Sys2Proof

/-! ## BUILD in phase UNBUILT -/

section
variable {ν : Type} {N : NumType ν} {p : Params} {h : Held ν} {r : Request ν}

/-- BUILD installs a valid image's records. -/
theorem buildTable_of_imageValid (hN : N.Ordered) (ht : h.tvalid = false) (hv : imageValid N p r.img) :
    buildTable N p h r =
      ({ table := installedRecords r.img, nmsg := BitVec.ofNat 9 r.img.msgs.length, tvalid := true },
        okResponse N) := by
  have hnone : firstViolation N p r.img = none := (firstViolation_eq_none_iff hN).2 hv
  obtain ⟨ht', -⟩ | ⟨v, -, hsome, -⟩ | ⟨-, -, he⟩ := buildTable_cases N p h r
  · cases ht.symm.trans ht'
  · cases hnone.symm.trans hsome
  · exact he

/-- BUILD refuses an image that is not valid, with the violation reported first. -/
theorem buildTable_of_not_imageValid (hN : N.Ordered) (ht : h.tvalid = false) (hv : ¬ imageValid N p r.img) :
    ∃ v, firstViolation N p r.img = some v ∧ buildTable N p h r = (h, violationResult N v) := by
  obtain ⟨ht', -⟩ | ⟨v, -, hsome, he⟩ | ⟨-, hnone, -⟩ := buildTable_cases N p h r
  · cases ht.symm.trans ht'
  · exact ⟨v, hsome, he⟩
  · exact absurd ((firstViolation_eq_none_iff hN).1 hnone) hv

end

/-- Settles O27: at `NUM = ℚ`, whose order is total. -/
theorem buildInstallsAValidImage : Obligations.BuildInstallsAValidImage := by
  unfold Obligations.BuildInstallsAValidImage
  intro s r rest hp ht hv
  rw [exec_request hp, operate, buildTable_of_imageValid rational_ordered ht hv]
  rfl

/-- Settles O28: at `NUM = ℚ`, whose order is total. -/
theorem buildRefusesAnInvalidImage : Obligations.BuildRefusesAnInvalidImage := by
  unfold Obligations.BuildRefusesAnInvalidImage
  intro s r rest hp ht hv
  obtain ⟨v, hsome, he⟩ := buildTable_of_not_imageValid rational_ordered ht hv
  refine ⟨v, hsome, ?_⟩
  rw [exec_request hp, operate, he]
  rfl

/-! ## Installed records -/

/-- A signal that has a bit and ends within `n` bytes needs at least one byte and at most `n`. -/
theorem need_bounds {ν : Type} {sig : Signal ν} {n : Nat} (hlen : 1 ≤ sigLen sig)
    (hend : sigStart sig + sigLen sig ≤ 8 * n) : 1 ≤ need sig ∧ need sig ≤ n := by
  rw [need]
  omega

/-- Settles O33: an installed message is valid. -/
theorem installedRecordsAreUsable : Obligations.InstalledRecordsAreUsable := by
  unfold Obligations.InstalledRecordsAreUsable
  intro s m msg hinv hinst
  obtain ⟨⟨hdlc, hnsig, hsigs, hdisj⟩, -⟩ := installed_of_inv hinv hinst
  refine ⟨hnsig, fun sig hs => ?_, hdisj.imp fun hab => hab.2⟩
  obtain ⟨hlen, -, hend, hscale, hbounds⟩ := hsigs sig hs
  obtain ⟨hneed, hneed'⟩ := need_bounds hlen (Nat.mul_comm .. ▸ hend)
  exact ⟨hneed, hneed', hdlc, by simpa using hscale, by simpa using hbounds⟩

/-! ## STAT, GETM and GETS -/

/-- Settles O34: `statResponse` reads the held state alone. -/
theorem statAnswersTheTableStatus : Obligations.StatAnswersTheTableStatus :=
  fun _ _ _ hp => exec_of_response hp (by nofun) rfl

theorem getmResponse_of_messageAt {ν : Type} {N : NumType ν} {h : Held ν} {m : BitVec 8} {msg : Message ν}
    (hm : messageAt h m = .ok msg) :
    getmResponse N h m =
      { okResponse N with
        msg := { messageId := msg.messageId, idMask := msg.idMask, dlc := msg.dlc, nsig := msg.sig.length } } := by
  simp only [getmResponse, hm]

theorem getsResponse_of_signalAt {ν : Type} {N : NumType ν} {h : Held ν} {m : BitVec 8} {k : BitVec 6}
    {sig : Signal ν} (hs : signalAt h m k = .ok sig) : getsResponse N h m k = { okResponse N with sig := sig } := by
  simp only [getsResponse, hs]

/-- Settles O35: the record that `messageAt` reads is the installed one. -/
theorem getmAnswersTheMessageRecord : Obligations.GetmAnswersTheMessageRecord :=
  fun _ _ _ _ _ hp hinst => exec_of_response hp (by nofun) (getmResponse_of_messageAt (messageAt_installed hinst))

/-- Settles O36: the record that `signalAt` reads is the installed one. -/
theorem getsAnswersTheSignalRecord : Obligations.GetsAnswersTheSignalRecord :=
  fun _ _ _ _ _ _ hp hinst => exec_of_response hp (by nofun) (getsResponse_of_signalAt (signalAt_installed hinst))

end Sys2Proof.Machine
end

section
/-! PROOFS. The matcher (42_matcher.md R150 to R154): the scan finds the least index that matches, and FIND answers what the scan finds; O53 and O54. -/

namespace Sys2Proof.Machine

open Sys2Proof

/-! ## The scan -/

section
variable {ν : Type} {table : List (Message ν)} {id : Word} {k : Nat} {msg : Message ν}

theorem matchesId_of_eq_messageId (h : id = msg.messageId) : matchesId id msg = true := by
  simp [matchesId, h]

/-- The scan stops at a record exactly when the record matches and no earlier one does. -/
theorem findMatch_eq_some_iff (hrec : table[k]? = some msg) :
    findMatch table id = some k ↔
      matchesId id msg = true ∧ ∀ j < k, ∀ msg', table[j]? = some msg' → matchesId id msg' = false := by
  refine ⟨fun hf => ?_, fun ⟨hm, hfirst⟩ => findIdx?_eq_some_of_getElem? hrec hm hfirst⟩
  obtain ⟨hk, hm, hfirst⟩ := List.findIdx?_eq_some_iff_getElem.1 hf
  obtain ⟨_, rfl⟩ := List.getElem?_eq_some_iff.1 hrec
  refine ⟨hm, fun j hj msg' hrec' => ?_⟩
  obtain ⟨_, rfl⟩ := List.getElem?_eq_some_iff.1 hrec'
  simpa using hfirst j hj

theorem findMatch_eq_none_iff : findMatch table id = none ↔ ∀ msg ∈ table, matchesId id msg = false :=
  List.findIdx?_eq_none_iff

theorem findMatch_lt_length (hf : findMatch table id = some k) : k < table.length :=
  (List.findIdx?_eq_some_iff_getElem.1 hf).1

/-- A record that matches stops the scan, at its own index or at an earlier one. -/
theorem exists_findMatch_le (hrec : table[k]? = some msg) (hm : matchesId id msg = true) :
    ∃ j ≤ k, findMatch table id = some j := by
  cases hf : findMatch table id with
  | none => simp [findMatch_eq_none_iff.1 hf msg (List.mem_of_getElem? hrec)] at hm
  | some j =>
    refine ⟨j, Nat.not_lt.1 fun hkj => ?_, rfl⟩
    have hj := List.getElem?_eq_getElem (findMatch_lt_length hf)
    simp [((findMatch_eq_some_iff hj).1 hf).2 k hkj msg hrec] at hm

end

/-! ## The response of FIND -/

section
variable {ν : Type} {N : NumType ν} {h : Held ν} {r : Request ν} {table : List (Message ν)}

theorem findResponse_of_some {k : Nat} (ht : installedTable h = .ok table) (hf : findMatch table r.id = some k) :
    findResponse N h r = { okResponse N with m := BitVec.ofNat 8 k } := by
  simp only [findResponse, ht, hf]

theorem findResponse_of_none (ht : installedTable h = .ok table) (hf : findMatch table r.id = none) :
    findResponse N h r = errorStatus N .notFound := by
  simp only [findResponse, ht, hf]

/-- Among at most 256 messages the field `m` of an OK response tells each index from the others. -/
theorem findResponse_eq_ok_iff {k : Nat} (ht : installedTable h = .ok table) (hlen : table.length ≤ 256)
    (hk : k < 256) :
    findResponse N h r = { okResponse N with m := BitVec.ofNat 8 k } ↔ findMatch table r.id = some k := by
  refine ⟨fun hx => ?_, findResponse_of_some ht⟩
  cases hf : findMatch table r.id with
  | none => exact absurd ((findResponse_of_none ht hf).symm.trans hx) (by simp [errorStatus, errorResult, okResponse])
  | some j =>
    have hj := findMatch_lt_length hf
    have hm : BitVec.ofNat 8 j = BitVec.ofNat 8 k :=
      congrArg Response.m ((findResponse_of_some (N := N) ht hf).symm.trans hx)
    have hjk : j = k := by
      simpa [Nat.mod_eq_of_lt hk, Nat.mod_eq_of_lt (hj.trans_le hlen)] using congrArg BitVec.toNat hm
    rw [hjk]

theorem findResponse_eq_notFound_iff (ht : installedTable h = .ok table) :
    findResponse N h r = errorStatus N .notFound ↔ findMatch table r.id = none := by
  refine ⟨fun hx => ?_, findResponse_of_none ht⟩
  cases hf : findMatch table r.id with
  | none => rfl
  | some j => exact absurd ((findResponse_of_some ht hf).symm.trans hx) (by simp [errorStatus, errorResult, okResponse])

end

/-! ## FIND -/

/-- Settles O53: the scan over the installed records decides the response. -/
theorem findAnswersTheFirstMatch : Obligations.FindAnswersTheFirstMatch := by
  unfold Obligations.FindAnswersTheFirstMatch
  intro s r rest hp ht
  refine ⟨fun k msg ⟨_, hk, hrec⟩ hm hfirst => ?_, fun hnone => ?_⟩
  · exact exec_of_response hp (by nofun)
      (findResponse_of_some (installedTable_operational ht) (findMatch_take_some hk hrec hm hfirst))
  · exact exec_of_response hp (by nofun)
      (findResponse_of_none (installedTable_operational ht) (findMatch_take_none ht hnone))

/-- An operation other than BUILD determines the response that stands after it. -/
theorem exec_eq_iff_response {s : State} {r : Request} {rest : List Event} {i : Instr} {x : Response}
    (hp : s.pending = .request r :: rest) (hi : i ≠ .build) :
    exec i s = .next { s with pending := rest, rsp := some x } ↔ (operate rational s.params i s.toHeld r).2 = x := by
  refine ⟨fun h => ?_, exec_of_response hp hi⟩
  rw [exec_other hp hi] at h
  simpa using h

/-- Settles O54: FIND's response says what the scan over the whole table finds, at most 256 messages. -/
theorem matcherLaw : Obligations.MatcherLaw := by
  unfold Obligations.MatcherLaw
  intro s r rest hinv ht hp
  have htable : installedTable s.toHeld = .ok s.table := installedTable_of_inv hinv ht
  have hlen : s.table.length ≤ 256 := by
    obtain ⟨-, hmax, -⟩ := hinv.1 ht
    omega
  have hindex {k : Nat} {msg : Message} (hrec : s.table[k]? = some msg) : k < 256 :=
    (List.getElem?_eq_some_iff.1 hrec).1.trans_le hlen
  have hfound {k : Nat} (hk : k < 256) :
      exec .find s = .next { s with pending := rest, rsp := some { okResponse rational with m := BitVec.ofNat 8 k } } ↔
        findMatch s.table r.id = some k :=
    (exec_eq_iff_response hp (by nofun)).trans (findResponse_eq_ok_iff htable hlen hk)
  refine ⟨fun k msg hrec => ?_, ?_, fun k msg hrec hid => ?_⟩
  · exact (hfound (hindex hrec)).trans (findMatch_eq_some_iff hrec)
  · exact (exec_eq_iff_response hp (by nofun)).trans
      ((findResponse_eq_notFound_iff htable).trans findMatch_eq_none_iff)
  · have hm : matchesId r.id msg = true := matchesId_of_eq_messageId hid
    obtain ⟨j, hjk, hf⟩ := exists_findMatch_le hrec hm
    exact ⟨hm, ⟨j, hjk, (hfound (hjk.trans_lt (hindex hrec))).2 hf⟩,
      fun hfirst => (hfound (hindex hrec)).2 ((findMatch_eq_some_iff hrec).2 ⟨hm, hfirst⟩)⟩

end Sys2Proof.Machine
end

section
/-! PROOFS. The frame data flows (43_frame_dispatch.md R160 to R165): RXF is FIND and then DECALL, TXF is ENCALL with the ID of the definition, and RXF reads back what TXF emitted; O55, O56, O57, O58 and O59. -/

namespace Sys2Proof.Machine

open Sys2Proof

/-! ## The response of RXF -/

section
variable {ν : Type} {N : NumType ν} {h : Held ν} {r : Request ν} {table : List (Message ν)}

theorem rxfResponse_unbuilt (ht : h.tvalid = false) : rxfResponse N h r = errorStatus N .noTable := by
  simp only [rxfResponse, installedTable_unbuilt ht]

/-- In phase OPERATIONAL a reserved length is refused whatever the ID (60_exceptions.md R174). -/
theorem rxfResponse_of_badLength (ht : h.tvalid = true) (hlen : 8 < r.len.toNat) :
    rxfResponse N h r = errorStatus N .badLength := by
  simp [rxfResponse, installedTable_operational ht, badLength, hlen]

theorem rxfResponse_of_no_match (ht : installedTable h = .ok table) (hlen : r.len.toNat ≤ 8)
    (hf : findMatch table r.id = none) : rxfResponse N h r = errorStatus N .notFound := by
  simp [rxfResponse, ht, badLength_eq_false hlen, hf]

/-- Where the scan stops at an index that the field `m` holds, RXF decodes as DECALL of that message does. -/
theorem rxfResponse_of_findMatch {m : BitVec 8} (ht : installedTable h = .ok table) (hlen : r.len.toNat ≤ 8)
    (hf : findMatch table r.id = some m.toNat) : rxfResponse N h r = { decallResponse N h m r with m := m } := by
  obtain ⟨msg, hrec⟩ : ∃ msg, table[m.toNat]? = some msg := ⟨_, List.getElem?_eq_getElem (findMatch_lt_length hf)⟩
  have hm : messageAt h m = .ok msg := by simp only [messageAt, ht, hrec]
  rw [decallResponse_of_messageAt hm hlen]
  simp [rxfResponse, ht, badLength_eq_false hlen, hf, hrec]

/-! ## RXF, FIND and DECALL -/

theorem findResponse_unbuilt (ht : h.tvalid = false) : findResponse N h r = errorStatus N .noTable := by
  simp only [findResponse, installedTable_unbuilt ht]

/-- RXF answers an error result of FIND as it is, unless the length is refused first. -/
theorem rxfResponse_of_find_not_ok (hlen : h.tvalid = false ∨ r.len.toNat ≤ 8)
    (hnot : (findResponse N h r).st ≠ .ok) : rxfResponse N h r = findResponse N h r := by
  cases ht : h.tvalid with
  | false => rw [rxfResponse_unbuilt ht, findResponse_unbuilt ht]
  | true =>
    have htable := installedTable_operational ht
    cases hf : findMatch (h.table.take h.nmsg.toNat) r.id with
    | none =>
      rw [rxfResponse_of_no_match htable (hlen.resolve_left (by simp [ht])) hf, findResponse_of_none htable hf]
    | some k => exact absurd (by rw [findResponse_of_some htable hf]; rfl) hnot

/-- An OK response of FIND names the index at which the scan of the whole table stops: a valid table has at
most 256 records, so that the field `m` holds it. -/
theorem findMatch_of_find_ok {p : Params} (hi : Held.Inv N p h) (hok : (findResponse N h r).st = .ok) :
    installedTable h = .ok h.table ∧ findMatch h.table r.id = some (findResponse N h r).m.toNat := by
  cases ht : h.tvalid with
  | false => exact absurd (findResponse_unbuilt ht ▸ hok) (errorStatus_isError N (by decide)).st_ne_ok
  | true =>
    have htable := installedTable_of_inv hi ht
    refine ⟨htable, ?_⟩
    cases hf : findMatch h.table r.id with
    | none => exact absurd (findResponse_of_none htable hf ▸ hok) (errorStatus_isError N (by decide)).st_ne_ok
    | some k =>
      have hk := findMatch_lt_length hf
      obtain ⟨-, hmax, -⟩ := hi.1 ht
      rw [findResponse_of_some htable hf, BitVec.toNat_ofNat, Nat.mod_eq_of_lt (by omega)]

end

/-- Settles O56: the cases of FIND's response. -/
theorem rxfIsFindThenDecall : Obligations.RxfIsFindThenDecall := by
  unfold Obligations.RxfIsFindThenDecall
  intro s r rest f hinv hp hfind
  obtain rfl : findResponse rational s.toHeld r = f := (exec_eq_iff_response hp (by nofun)).1 hfind
  refine ⟨fun ht hlen => exec_of_response hp (by nofun) (rxfResponse_of_badLength ht hlen), fun hlen => ⟨?_, ?_⟩⟩
  · intro hnot
    exact exec_of_response hp (by nofun) (rxfResponse_of_find_not_ok hlen hnot)
  · intro hok
    obtain ⟨htable, hf⟩ := findMatch_of_find_ok hinv hok
    have hlen' : r.len.toNat ≤ 8 :=
      hlen.resolve_left fun ht => by simp [installedTable_unbuilt ht] at htable
    exact ⟨_, exec_of_response hp (by nofun) rfl,
      exec_of_response hp (by nofun) (rxfResponse_of_findMatch htable hlen' hf)⟩

/-- Settles O55: lane `j` of the response is the value of signal `j` of the message that matches first. -/
theorem rxfAnswersTheDecodedFrame : Obligations.RxfAnswersTheDecodedFrame := by
  unfold Obligations.RxfAnswersTheDecodedFrame
  intro s r rest hp ht hlen
  refine ⟨fun k msg ⟨_, hk, hrec⟩ hmatch hfirst hlong => ?_, fun hnone => ?_⟩
  · have hresp := rxfResponse_of_match (N := rational) ht hk hrec hlen hmatch hfirst
    rw [decodeMessage_of_long rational hlong] at hresp
    refine ⟨_, _, exec_of_response hp (by nofun) hresp, fun j hj sig hs => ?_⟩
    simp [hs, decodeFlags, outOfRange_eq_decide, decodeValue]
  · exact exec_of_response hp (by nofun)
      (rxfResponse_of_no_match (installedTable_operational ht) hlen (findMatch_take_none ht hnone))

/-! ## TXF and ENCALL -/

section
variable {ν : Type} {N : NumType ν} {p : Params} {h : Held ν} {pol : Policy} {m : BitVec 8} {r : Request ν}

theorem txfResponse_of_encall_ok {msg : Message ν} (hm : messageAt h m = .ok msg)
    (hok : (encallResponse N p h pol m r).st = .ok) :
    txfResponse N p h pol m r = { encallResponse N p h pol m r with id := msg.messageId } := by
  simp only [txfResponse, hok, hm]

theorem txfResponse_st : (txfResponse N p h pol m r).st = (encallResponse N p h pol m r).st := by
  unfold txfResponse
  split <;> rfl

/-- ENCALL answers OK only for an installed message (60_exceptions.md R173). -/
theorem messageAt_of_encall_ok (hok : (encallResponse N p h pol m r).st = .ok) : ∃ msg, messageAt h m = .ok msg := by
  obtain he | ⟨msg, hm, -⟩ := encallResponse_cases N p h pol m r
  · exact absurd hok he.st_ne_ok
  · exact ⟨msg, hm⟩

end

/-- Settles O57: the ID is the one of the message that `messageAt` reads. -/
theorem txfIsEncallWithTheDefinitionsId : Obligations.TxfIsEncallWithTheDefinitionsId := by
  unfold Obligations.TxfIsEncallWithTheDefinitionsId
  intro s r rest pol m hp
  refine ⟨_, exec_of_response hp (by nofun) rfl, fun hnot => ?_, fun hok => ?_⟩
  · exact exec_of_response hp (by nofun) (txfResponse_of_encall_not_ok _ hnot)
  · obtain ⟨msg, hm⟩ := messageAt_of_encall_ok hok
    exact ⟨msg, messageAt_ok_iff.1 hm, exec_of_response hp (by nofun) (txfResponse_of_encall_ok hm hok)⟩

/-- Settles O58: the frame of ENCALL, whose buffer is the fold and whose flags are the lanes, with the ID. -/
theorem txfAnswersTheFrame : Obligations.TxfAnswersTheFrame := by
  unfold Obligations.TxfAnswersTheFrame
  intro s r rest pol m msg hp hinst hacc
  have hm := messageAt_installed hinst
  have hencall := encallResponse_of_accepted s.params hm (firstRejected_eq_none hacc)
  have hresp := txfResponse_of_encall_ok hm (congrArg Response.st hencall)
  rw [hencall, encodeLoop_pay] at hresp
  refine ⟨_, exec_of_response hp (by nofun) hresp, fun j hj sig hs => ?_⟩
  rw [lanes_encodeLoop_flags _ hj hs]
  simp only [encodeFlags, outOfRange_eq_decide]

/-! ## RXF of the frame of TXF -/

/-- Settles O59: the frame's ID leads RXF back to message `m`, whose values are those that DECALL reads from the
payload of ENCALL (O47). -/
theorem txfThenRxfRoundTrips : Obligations.TxfThenRxfRoundTrips := by
  unfold Obligations.TxfThenRxfRoundTrips
  intro s pol m msg r q rest rest' t u x y hinv hinst hp htxf hx hok hid hlen hpay hshadow hrxf hy
  have ⟨ht, hlt, hrec⟩ := hinst
  have hxr : x = txfResponse rational s.params s.toHeld pol m r := exec_rsp hp htxf hx
  have hencall : (encallResponse rational s.params s.toHeld pol m r).st = .ok := by
    rw [← txfResponse_st, ← hxr, hok]
  rw [txfResponse_of_encall_ok (messageAt_installed hinst) hencall] at hxr
  subst hxr
  obtain ⟨hdecall, hdlc, hvals⟩ := encallThenDecallRoundTrips s pol m msg r q rest rest' _ _ _ _ hinv hinst hp
    (exec_of_response hp (by nofun) rfl) rfl hencall hlen hpay (exec_of_response rfl (by nofun) rfl) rfl
  have hqlen : q.len.toNat ≤ 8 := by
    rw [hlen]
    exact hdlc.trans_le (installed_of_inv hinv hinst).1.1
  have hfind : findMatch (s.table.take s.nmsg.toNat) q.id = some m.toNat :=
    findMatch_take_some hlt hrec (by rw [hid]) (by rwa [hid])
  obtain rfl : y = { decallResponse rational s.toHeld m q with m := m } :=
    (exec_rsp rfl hrxf hy).trans (rxfResponse_of_findMatch (installedTable_operational ht) hqlen hfind)
  exact ⟨hdecall, rfl, rfl, fun j hj sig hs => (hvals j hj sig hs).1⟩

end Sys2Proof.Machine
end

section
/-! PROOFS. Exceptions (60_exceptions.md R170 to R182): the interface conditions in the order of R174, the form of every response and the statuses it can carry, and what leaves phase UNBUILT; O11, O19, O22 and O23. -/

namespace Sys2Proof.Machine

open Sys2Proof

/-! ## The phases -/

/-- A step that leaves phase UNBUILT serves a BUILD and answers OK. -/
theorem step_leaves_unbuilt {s t : State} (h : step s = .next t) (hs : s.tvalid = false) (ht : t.tvalid = true) :
    ∃ r rest, s.pending = .request r :: rest ∧ decode r.cmd = .ok .build ∧ t.rsp = some (okResponse rational) := by
  obtain ⟨-, he⟩ | ⟨rest, -, he⟩ | ⟨r, rest, hp, he⟩ := step_cases s <;> rw [he] at h <;> cases h
  · cases hs.symm.trans ht
  · cases ht
  · obtain hheld | ⟨hd, -, -, hbuild⟩ := respond_held rational s.params s.toHeld r
    · rw [hheld] at ht
      cases hs.symm.trans ht
    · exact ⟨r, rest, hp, hd, by rw [hbuild]⟩

/-- A step that stays in phase OPERATIONAL leaves the held state. -/
theorem step_keeps_held_operational {s t : State} (h : step s = .next t) (hs : s.tvalid = true)
    (ht : t.tvalid = true) : t.toHeld = s.toHeld := by
  obtain ⟨-, he⟩ | ⟨rest, -, he⟩ | ⟨r, rest, -, he⟩ := step_cases s <;> rw [he] at h <;> cases h
  · rfl
  · cases ht
  · exact respond_held_operational rational s.params hs r

/-- Settles O11: the two phases. -/
theorem onlyASuccessfulBuildLeavesUnbuilt : Obligations.OnlyASuccessfulBuildLeavesUnbuilt := by
  unfold Obligations.OnlyASuccessfulBuildLeavesUnbuilt
  refine ⟨fun _ _ => step_leaves_unbuilt, fun s t h hs ht => ?_⟩
  rw [step_keeps_held_operational h hs ht]
  exact ⟨rfl, rfl⟩

/-! ## The interface conditions -/

section
variable {ν : Type} {N : NumType ν} {p : Params} {i : Instr} {h : Held ν} {m : BitVec 8} {k : BitVec 6}
  {msg : Message ν} {sig : Signal ν} {r : Request ν} {e : Status}

theorem signalAt_of_messageAt_error (he : messageAt h m = .error e) : signalAt h m k = .error e := by
  simp only [signalAt, he]

/-- Reading a signal record whose index is not below `nsig`. -/
theorem signalAt_badIndex (hm : messageAt h m = .ok msg) (hk : msg.sig.length ≤ k.toNat) :
    signalAt h m k = .error .badIndex := by
  simp only [signalAt, hm, List.getElem?_eq_none hk]

/-- An operation on a signal answers the status with which reading its record ends. -/
theorem operate_of_signalAt_error (hm : usesM i = some m) (hk : usesS i = some k) (he : signalAt h m k = .error e) :
    operate N p i h r = (h, errorStatus N e) := by
  cases i with
  | build | find | rxf | stat => cases hm
  | decall _ | encall _ _ | txf _ _ | getm _ => cases hk
  | dec _ _ => cases hm; cases hk; simp only [operate, decResponse, he]
  | enc _ _ _ => cases hm; cases hk; simp only [operate, encResponse, he]
  | gets _ _ => cases hm; cases hk; simp only [operate, getsResponse, he]

/-- An operation on a message answers the status with which reading its record ends. -/
theorem operate_of_messageAt_error (hm : usesM i = some m) (he : messageAt h m = .error e) :
    operate N p i h r = (h, errorStatus N e) := by
  cases i with
  | build | find | rxf | stat => cases hm
  | dec _ _ | enc _ _ _ | gets _ _ => exact operate_of_signalAt_error hm rfl (signalAt_of_messageAt_error he)
  | decall _ => cases hm; simp only [operate, decallResponse, he]
  | encall _ _ => cases hm; simp only [operate, encallResponse, he]
  | txf _ _ => cases hm; simp [operate, txfResponse, encallResponse, he]
  | getm _ => cases hm; simp only [operate, getmResponse, he]

/-- NO_TABLE: in phase UNBUILT no operation but BUILD and STAT does anything. -/
theorem operate_unbuilt (ht : h.tvalid = false) (hbuild : i ≠ .build) (hstat : i ≠ .stat) :
    operate N p i h r = (h, errorStatus N .noTable) := by
  cases i with
  | build => exact absurd rfl hbuild
  | stat => exact absurd rfl hstat
  | find => rw [operate, findResponse_unbuilt ht]
  | rxf => rw [operate, rxfResponse_unbuilt ht]
  | dec m _ | enc _ m _ | decall m | encall _ m | txf _ m | getm m | gets m _ =>
    exact operate_of_messageAt_error rfl (messageAt_unbuilt ht m)

/-- LOCKED: BUILD in phase OPERATIONAL. -/
theorem buildTable_operational (ht : h.tvalid = true) : buildTable N p h r = (h, errorStatus N .locked) := by
  obtain ⟨-, he⟩ | ⟨_, hf, -⟩ | ⟨hf, -⟩ := buildTable_cases N p h r
  · exact he
  · cases ht.symm.trans hf
  · cases ht.symm.trans hf

theorem decResponse_of_badLength (hs : signalAt h m k = .ok sig) (hlen : 8 < r.len.toNat) :
    decResponse N h m k r = errorStatus N .badLength := by
  simp [decResponse, hs, badLength, hlen]

theorem decallResponse_of_badLength (hm : messageAt h m = .ok msg) (hlen : 8 < r.len.toNat) :
    decallResponse N h m r = errorStatus N .badLength := by
  simp [decallResponse, hm, badLength, hlen]

end

/-- BAD_LENGTH, once the table and the indices are good (60_exceptions.md R174). -/
theorem operate_of_badLength {i : Instr} {s : State} {r : Request} (ht : s.tvalid = true) (hi : readsLen i = true)
    (hgood : indicesGood i s) (hlen : 8 < r.len.toNat) :
    operate rational s.params i s.toHeld r = (s.toHeld, errorStatus rational .badLength) := by
  cases i with
  | build | find | enc _ _ _ | encall _ _ | txf _ _ | stat | getm _ | gets _ _ => cases hi
  | dec m k =>
    obtain ⟨msg, hinst, hk⟩ := hgood m rfl
    have hs : signalAt s.toHeld m k = .ok (msg.sig[k.toNat]'(hk k rfl)) :=
      signalAt_ok_iff.2 ⟨msg, messageAt_installed hinst, List.getElem?_eq_getElem _⟩
    rw [operate, decResponse_of_badLength hs hlen]
  | decall m =>
    obtain ⟨msg, hinst, -⟩ := hgood m rfl
    rw [operate, decallResponse_of_badLength (messageAt_installed hinst) hlen]
  | rxf => rw [operate, rxfResponse_of_badLength ht hlen]

/-- `exec` of an operation that leaves the held state. -/
theorem exec_of_operate {s : State} {r : Request} {rest : List Event} {i : Instr} {x : Response}
    (hp : s.pending = .request r :: rest) (hx : operate rational s.params i s.toHeld r = (s.toHeld, x)) :
    exec i s = .next { s with pending := rest, rsp := some x } := by
  rw [exec_request hp, hx]

/-- Settles O19: one lemma about `operate` for each condition. -/
theorem interfaceConditionsAnswerTheirStatus : Obligations.InterfaceConditionsAnswerTheirStatus := by
  unfold Obligations.InterfaceConditionsAnswerTheirStatus
  intro i s r rest hp
  refine ⟨fun ht hbuild hstat => ?_, ?_, fun m ht hm hle => ?_, fun m k msg hm hk hinst hle => ?_,
    fun ht hi hgood hlen => ?_⟩
  · exact exec_of_operate hp (operate_unbuilt ht hbuild hstat)
  · rintro ht rfl
    exact exec_of_operate hp (buildTable_operational ht)
  · exact exec_of_operate hp (operate_of_messageAt_error hm (messageAt_badIndex ht hle))
  · exact exec_of_operate hp
      (operate_of_signalAt_error hm hk (signalAt_badIndex (messageAt_installed hinst) hle))
  · exact exec_of_operate hp (operate_of_badLength ht hi hgood hlen)

/-! ## The forms of a response -/

/-- A response with a status from `sts`, in one of the forms of 60_exceptions.md R171: OK, a bare status, a status
that names a signal, or the report of a violation. -/
inductive Response.InForm {ν : Type} (N : NumType ν) (sts : List Status) : Response ν → Prop
  | ok {x : Response ν} (hmem : .ok ∈ sts) (hst : x.st = .ok) : InForm N sts x
  | status {st : Status} (hmem : st ∈ sts) (hst : st ≠ .tableInvalid) : InForm N sts (errorStatus N st)
  | atSignal {st : Status} (m : BitVec 8) (k : BitVec 6) (hmem : st ∈ sts)
      (hst : st = .payloadTooShort ∨ st = .valueOutOfRange) : InForm N sts (errorAtSignal N st m k)
  | violation (v : Violation) (hmem : .tableInvalid ∈ sts) : InForm N sts (violationResult N v)

theorem Response.InForm.st_mem {ν : Type} {N : NumType ν} {sts : List Status} {x : Response ν} (h : x.InForm N sts) :
    x.st ∈ sts := by
  cases h with
  | ok hmem hst => rwa [hst]
  | status hmem _ | atSignal _ _ hmem _ | violation _ hmem => exact hmem

/-- What a response that is not OK delivers (60_exceptions.md R171). -/
theorem Response.InForm.delivers {ν : Type} {N : NumType ν} {sts : List Status} {x : Response ν}
    (h : x.InForm N sts) (hnot : x.st ≠ .ok) :
    x = { okResponse N with st := x.st, sub := x.sub, m := x.m, s := x.s, aux := x.aux } ∧
    (x.sub ≠ none ↔ x.st = .tableInvalid) ∧
    (x.st ≠ .tableInvalid → x.aux = 0#8) ∧
    (x.st ≠ .tableInvalid → x.st ≠ .payloadTooShort → x.st ≠ .valueOutOfRange → x.m = 0#8 ∧ x.s = 0#6) := by
  cases h with
  | ok _ hst => exact absurd hst hnot
  | status _ hst => exact ⟨rfl, iff_of_false (fun hsub => hsub rfl) hst, fun _ => rfl, fun _ _ _ => ⟨rfl, rfl⟩⟩
  | atSignal m k _ hst =>
    refine ⟨rfl, iff_of_false (fun hsub => hsub rfl) ?_, fun _ => rfl, fun _ hshort hrange => ?_⟩
    · obtain rfl | rfl := hst <;> nofun
    · exact (hst.elim hshort hrange).elim
  | violation v _ =>
    exact ⟨rfl, iff_of_true nofun rfl, fun hst => absurd rfl hst, fun hst => absurd rfl hst⟩

/-! ## The statuses of each operation -/

theorem ok_mem_statusesOf (i : Instr) : .ok ∈ statusesOf i := by
  cases i with
  | enc pol _ _ | encall pol _ | txf pol _ => cases pol <;> exact List.mem_cons_self
  | _ => exact List.mem_cons_self

/-- An operation on a message can answer NO_TABLE and BAD_INDEX. -/
theorem record_errors_mem_statusesOf {i : Instr} {m : BitVec 8} (hm : usesM i = some m) :
    .noTable ∈ statusesOf i ∧ .badIndex ∈ statusesOf i := by
  cases i with
  | build | find | rxf | stat => cases hm
  | enc pol _ _ | encall pol _ | txf pol _ => cases pol <;> simp [statusesOf]
  | dec _ _ | decall _ | getm _ | gets _ _ => simp [statusesOf]

/-- TXF can answer the statuses of ENCALL (43_frame_dispatch.md R165). -/
theorem statusesOf_txf (pol : Policy) (m : BitVec 8) : statusesOf (.txf pol m) = statusesOf (.encall pol m) := by
  cases pol <;> rfl

section
variable {ν : Type} {h : Held ν} {m : BitVec 8} {k : BitVec 6} {e : Status}

theorem messageAt_error_cases (he : messageAt h m = .error e) : e = .noTable ∨ e = .badIndex := by
  cases ht : h.tvalid with
  | false => exact .inl (Except.error.inj (he.symm.trans (messageAt_unbuilt ht m)))
  | true =>
    rw [messageAt, installedTable_operational ht] at he
    dsimp only at he
    split at he <;> cases he
    exact .inr rfl

theorem signalAt_error_cases (he : signalAt h m k = .error e) : e = .noTable ∨ e = .badIndex := by
  cases hm : messageAt h m with
  | error e' =>
    obtain rfl : e' = e := Except.error.inj ((signalAt_of_messageAt_error hm).symm.trans he)
    exact messageAt_error_cases hm
  | ok msg =>
    rw [signalAt, hm] at he
    dsimp only at he
    split at he <;> cases he
    exact .inr rfl

end

section
variable {ν : Type} {N : NumType ν} {p : Params} {i : Instr} {h : Held ν} {pol : Policy} {m : BitVec 8}
  {k : BitVec 6} {msg : Message ν} {sig : Signal ν} {r : Request ν}

theorem record_error_inForm {e : Status} (hm : usesM i = some m) (he : e = .noTable ∨ e = .badIndex) :
    (errorStatus N e).InForm N (statusesOf i) := by
  obtain ⟨htable, hindex⟩ := record_errors_mem_statusesOf hm
  obtain rfl | rfl := he
  · exact .status htable nofun
  · exact .status hindex nofun

/-- For the form of an operation on a message, only an installed message is left to look at. -/
theorem operate_inForm_of_message (hm : usesM i = some m)
    (hok : ∀ msg, messageAt h m = .ok msg → (operate N p i h r).2.InForm N (statusesOf i)) :
    (operate N p i h r).2.InForm N (statusesOf i) := by
  cases he : messageAt h m with
  | error e =>
    rw [operate_of_messageAt_error hm he]
    exact record_error_inForm hm (messageAt_error_cases he)
  | ok msg => exact hok msg he

/-- For the form of an operation on a signal, only an installed signal is left to look at. -/
theorem operate_inForm_of_signal (hm : usesM i = some m) (hk : usesS i = some k)
    (hok : ∀ sig, signalAt h m k = .ok sig → (operate N p i h r).2.InForm N (statusesOf i)) :
    (operate N p i h r).2.InForm N (statusesOf i) := by
  cases he : signalAt h m k with
  | error e =>
    rw [operate_of_signalAt_error hm hk he]
    exact record_error_inForm hm (signalAt_error_cases he)
  | ok sig => exact hok sig he

theorem buildTable_inForm : (buildTable N p h r).2.InForm N (statusesOf .build) := by
  obtain ⟨-, he⟩ | ⟨v, -, -, he⟩ | ⟨-, -, he⟩ := buildTable_cases N p h r <;> rw [he]
  · exact .status (by decide) nofun
  · exact .violation v (by decide)
  · exact .ok (by decide) rfl

theorem findResponse_inForm : (findResponse N h r).InForm N (statusesOf .find) := by
  cases ht : h.tvalid with
  | false =>
    rw [findResponse_unbuilt ht]
    exact .status (by decide) nofun
  | true =>
    have htable := installedTable_operational ht
    cases hf : findMatch (h.table.take h.nmsg.toNat) r.id with
    | none =>
      rw [findResponse_of_none htable hf]
      exact .status (by decide) nofun
    | some j =>
      rw [findResponse_of_some htable hf]
      exact .ok (by decide) rfl

theorem decResponse_inForm (hs : signalAt h m k = .ok sig) :
    (decResponse N h m k r).InForm N (statusesOf (.dec m k)) := by
  by_cases hlen : r.len.toNat ≤ 8
  · by_cases hlong : sigStart sig + sigLen sig ≤ 8 * r.len.toNat
    · rw [decResponse_of_long hs hlen hlong]
      exact .ok (ok_mem_statusesOf _) rfl
    · rw [decResponse_of_short hs hlen (Nat.not_le.1 hlong)]
      exact .atSignal m k (by simp [statusesOf]) (.inl rfl)
  · rw [decResponse_of_badLength hs (Nat.not_le.1 hlen)]
    exact .status (by simp [statusesOf]) nofun

theorem encResponse_inForm (hs : signalAt h m k = .ok sig) :
    (encResponse N p h pol m k r).InForm N (statusesOf (.enc pol m k)) := by
  by_cases hacc : pol = .reject → outOfRange N sig r.v = false
  · rw [encResponse_of_accepted p hs hacc]
    exact .ok (ok_mem_statusesOf _) rfl
  · obtain ⟨rfl, hout⟩ := Classical.not_imp.1 hacc
    rw [encResponse_of_rejected p hs (Bool.eq_true_of_not_eq_false hout)]
    exact .atSignal m k (by simp [statusesOf]) (.inr rfl)

theorem decodeMessage_inForm {sts : List Status} (hok : .ok ∈ sts) (hshort : .payloadTooShort ∈ sts)
    (len : BitVec 4) (pay : Payload) : (decodeMessage N m msg len pay).InForm N sts := by
  obtain ⟨j, he⟩ | he := decodeMessage_cases N m msg len pay <;> rw [he]
  · exact .atSignal m j hshort (.inl rfl)
  · exact .ok hok rfl

theorem decallResponse_inForm (hm : messageAt h m = .ok msg) :
    (decallResponse N h m r).InForm N (statusesOf (.decall m)) := by
  by_cases hlen : r.len.toNat ≤ 8
  · rw [decallResponse_of_messageAt hm hlen]
    exact decodeMessage_inForm (ok_mem_statusesOf _) (by simp [statusesOf]) _ _
  · rw [decallResponse_of_badLength hm (Nat.not_le.1 hlen)]
    exact .status (by simp [statusesOf]) nofun

/-- Where ENCALL finds a value to reject, the policy is to reject, and the response names the signal. -/
theorem encallResponse_of_firstRejected {j : Nat} (hm : messageAt h m = .ok msg)
    (hrej : firstRejected N pol msg r.vals = some j) :
    pol = .reject ∧ encallResponse N p h pol m r = errorAtSignal N .valueOutOfRange m (BitVec.ofNat 6 j) := by
  refine ⟨?_, by simp only [encallResponse, hm, hrej]⟩
  cases pol with
  | clamp => cases hrej
  | reject => rfl

theorem encallResponse_inForm (hm : messageAt h m = .ok msg) :
    (encallResponse N p h pol m r).InForm N (statusesOf (.encall pol m)) := by
  cases hrej : firstRejected N pol msg r.vals with
  | none =>
    rw [encallResponse_of_accepted p hm hrej]
    exact .ok (ok_mem_statusesOf _) rfl
  | some j =>
    obtain ⟨rfl, he⟩ := encallResponse_of_firstRejected (p := p) hm hrej
    rw [he]
    exact .atSignal m _ (by simp [statusesOf]) (.inr rfl)

theorem txfResponse_inForm (hm : messageAt h m = .ok msg) :
    (txfResponse N p h pol m r).InForm N (statusesOf (.txf pol m)) := by
  by_cases hst : (encallResponse N p h pol m r).st = .ok
  · exact .ok (ok_mem_statusesOf _) (txfResponse_st.trans hst)
  · rw [txfResponse_of_encall_not_ok p hst, statusesOf_txf]
    exact encallResponse_inForm hm

/-- RXF where the scan stops: the response of decoding that message, with the index in the field `m`. -/
theorem rxfResponse_of_findMatch_some {table : List (Message ν)} {j : Nat} (ht : installedTable h = .ok table)
    (hlen : r.len.toNat ≤ 8) (hf : findMatch table r.id = some j) (hrec : table[j]? = some msg) :
    rxfResponse N h r = { decodeMessage N (BitVec.ofNat 8 j) msg r.len r.pay with m := BitVec.ofNat 8 j } := by
  simp [rxfResponse, ht, badLength_eq_false hlen, hf, hrec]

theorem rxfResponse_inForm : (rxfResponse N h r).InForm N (statusesOf .rxf) := by
  cases ht : h.tvalid with
  | false =>
    rw [rxfResponse_unbuilt ht]
    exact .status (by decide) nofun
  | true =>
    have htable := installedTable_operational ht
    by_cases hlen : r.len.toNat ≤ 8
    · cases hf : findMatch (h.table.take h.nmsg.toNat) r.id with
      | none =>
        rw [rxfResponse_of_no_match htable hlen hf]
        exact .status (by decide) nofun
      | some j =>
        rw [rxfResponse_of_findMatch_some htable hlen hf (List.getElem?_eq_getElem (findMatch_lt_length hf))]
        obtain ⟨k, he⟩ | he := decodeMessage_cases N (BitVec.ofNat 8 j) _ r.len r.pay <;> rw [he]
        · exact .atSignal (st := .payloadTooShort) (BitVec.ofNat 8 j) k (by decide) (.inl rfl)
        · exact .ok (by decide) rfl
    · rw [rxfResponse_of_badLength ht (Nat.not_le.1 hlen)]
      exact .status (by decide) nofun

theorem getmResponse_inForm (hm : messageAt h m = .ok msg) : (getmResponse N h m).InForm N (statusesOf (.getm m)) := by
  rw [getmResponse_of_messageAt hm]
  exact .ok (ok_mem_statusesOf _) rfl

theorem getsResponse_inForm (hs : signalAt h m k = .ok sig) :
    (getsResponse N h m k).InForm N (statusesOf (.gets m k)) := by
  rw [getsResponse_of_signalAt hs]
  exact .ok (ok_mem_statusesOf _) rfl

/-- Every operation answers one of its statuses, in the form that belongs to the status. -/
theorem operate_inForm (N : NumType ν) (p : Params) (i : Instr) (h : Held ν) (r : Request ν) :
    (operate N p i h r).2.InForm N (statusesOf i) := by
  cases i with
  | build => exact buildTable_inForm
  | find => exact findResponse_inForm
  | dec m k => exact operate_inForm_of_signal rfl rfl fun _ => decResponse_inForm
  | enc pol m k => exact operate_inForm_of_signal rfl rfl fun _ => encResponse_inForm
  | decall m => exact operate_inForm_of_message rfl fun _ => decallResponse_inForm
  | encall pol m => exact operate_inForm_of_message rfl fun _ => encallResponse_inForm
  | rxf => exact rxfResponse_inForm
  | txf pol m => exact operate_inForm_of_message rfl fun _ => txfResponse_inForm
  | stat => exact .ok (ok_mem_statusesOf _) rfl
  | getm m => exact operate_inForm_of_message rfl fun _ => getmResponse_inForm
  | gets m k => exact operate_inForm_of_signal rfl rfl fun _ => getsResponse_inForm

end

/-- Settles O22: the form of the response says what it delivers. -/
theorem errorResultsDeliverNothingElse : Obligations.ErrorResultsDeliverNothingElse := by
  unfold Obligations.ErrorResultsDeliverNothingElse
  intro i s t r rest x hp h hx
  obtain rfl := exec_rsp hp h hx
  exact (operate_inForm rational s.params i s.toHeld r).delivers

/-- The places of the three flags in a flag field (10_state.md R30). -/
theorem flagBits_getLsbD (fl : Flags) :
    (flagBits fl).getLsbD 0 = fl.oor ∧ (flagBits fl).getLsbD 1 = fl.clamped ∧ (flagBits fl).getLsbD 2 = fl.rovf := by
  simp only [flagBits, BitVec.getLsbD_append, BitVec.getLsbD_ofBool]
  simp

/-- Settles O23: the codes by the tables of R170 and R172, the statuses by `operate_inForm`. -/
theorem statusesAndWhoRaisesThem : Obligations.StatusesAndWhoRaisesThem := by
  unfold Obligations.StatusesAndWhoRaisesThem
  refine ⟨by decide, by decide, flagBits_getLsbD, ?_⟩
  intro i s t r rest x hp h hx
  obtain rfl := exec_rsp hp h hx
  exact (operate_inForm rational s.params i s.toHeld r).st_mem

end Sys2Proof.Machine
end

section
/-! PROOFS. Reset and hazards (70_reset_and_hazards.md R200, R209): what leaves phase OPERATIONAL, and how the steps serve the events in their order; O10 and O15. -/

namespace Sys2Proof.Machine

open Sys2Proof

/-! ## The reset event -/

/-- A step at a reset event. -/
theorem step_reset {s : State} {rest : List Event} (h : s.pending = .reset :: rest) :
    step s = .next (resetEvent s rest) := by
  simp [step, h]

/-- A step that leaves phase OPERATIONAL stands at a reset event: with no event nothing changes, and a
request leaves the held state. -/
theorem step_leaves_operational {s t : State} (h : step s = .next t) (hs : s.tvalid = true) (ht : t.tvalid = false) :
    ∃ rest, s.pending = .reset :: rest := by
  obtain ⟨-, he⟩ | ⟨rest, hp, -⟩ | ⟨r, rest, -, he⟩ := step_cases s
  · cases he.symm.trans h
    cases hs.symm.trans ht
  · exact ⟨rest, hp⟩
  · cases he.symm.trans h
    rw [respond_held_operational rational s.params hs] at ht
    cases hs.symm.trans ht

/-- Settles O10: the reset event, and what leaves phase OPERATIONAL. -/
theorem resetEventIsTheOnlyWayBackToUnbuilt : Obligations.ResetEventIsTheOnlyWayBackToUnbuilt := by
  unfold Obligations.ResetEventIsTheOnlyWayBackToUnbuilt
  exact ⟨fun _ _ => step_reset, fun _ _ => step_leaves_operational⟩

/-! ## The events in their order -/

/-- Every step answers a next state: the parameters stay, and an event that stands first is consumed. -/
theorem step_consumes (s : State) :
    ∃ t : State, step s = .next t ∧ t.params = s.params ∧ t.pending = s.pending.tail := by
  obtain ⟨hp, he⟩ | ⟨rest, hp, he⟩ | ⟨r, rest, hp, he⟩ := step_cases s
  · exact ⟨s, he, rfl, by rw [hp]; rfl⟩
  all_goals exact ⟨_, he, rfl, by rw [hp]; rfl⟩

/-- A run serves the events `pre` that stand first, one at each step, and goes on from a state where the events
behind them stand. -/
theorem run_consumes {s : State} {pre rest : List Event} (hp : s.pending = pre ++ rest) :
    ∃ u : State, u.params = s.params ∧ u.pending = rest ∧
      ∀ k, Host.Core.run Sys2Proof.core (pre.length + k) s = Host.Core.run Sys2Proof.core k u := by
  induction pre generalizing s with
  | nil => exact ⟨s, rfl, hp, fun k => by rw [List.length_nil, Nat.zero_add]⟩
  | cons e pre ih =>
    obtain ⟨t, hstep, hparams, htail⟩ := step_consumes s
    obtain ⟨u, hu, hrest, hrun⟩ := ih (s := t) (by rw [htail, hp]; rfl)
    refine ⟨u, hu.trans hparams, hrest, fun k => ?_⟩
    rw [List.length_cons, Nat.add_right_comm, run_succ hstep, hrun]

/-- Settles O15: the run serves the events before the request, and the step after them is at the request. -/
theorem everyIssuedOperationIsAnswered : Obligations.EveryIssuedOperationIsAnswered := by
  unfold Obligations.EveryIssuedOperationIsAnswered
  intro s
  constructor
  · obtain ⟨t, -, hdone, hrun⟩ := run_consumes (List.append_nil s.pending).symm
    exact ⟨t, hrun 0, hdone⟩
  · intro pre rest r hp
    obtain ⟨u, hparams, hu, hrun⟩ := run_consumes hp
    rw [← hparams]
    exact ⟨u, _, hrun 0, hu, (hrun 1).trans (run_succ (step_request hu)), rfl, rfl⟩

end Sys2Proof.Machine
end

section
/-! PROOFS. The step as a whole: it answers a next state (93_implementation_defined.md, section 1), is idle without an event (log 5), and is the block at `NUM = ℚ` where a request stands first (log 4); O14, O16 and O60. -/

namespace Sys2Proof.Machine

open Sys2Proof

/-- A step where no event stands at the interface. -/
theorem step_idle {s : State} (h : s.pending = []) : step s = .next s := by
  simp only [step, h]

/-- Settles O14: in each case of `step_cases` a next state is answered, as `step_consumes` has it. -/
theorem everyStepAnswersANextState : Obligations.EveryStepAnswersANextState := by
  unfold Obligations.EveryStepAnswersANextState
  exact step_consumes

/-- Settles O16: the first branch of `step`. -/
theorem idleStepChangesNothing : Obligations.IdleStepChangesNothing := by
  unfold Obligations.IdleStepChangesNothing
  exact fun _ => step_idle

/-- Settles O60: `exec` serves the request with `operate`, and `step` with `respond`, both at the rationals. -/
theorem machineIsTheBlockAtTheDefaultNumberType : Obligations.MachineIsTheBlockAtTheDefaultNumberType := by
  unfold Obligations.MachineIsTheBlockAtTheDefaultNumberType
  exact fun _ _ _ hp => ⟨exec_request hp, step_request hp⟩

end Sys2Proof.Machine
end
